-- ==== Sys2Proof/Word.lean ====
section
/-! DEFINITION. The word types of the block (`spec/00_scope.md` R7, R10): fixed-width patterns for everything the
spec calls `uN` or `sN`. A signed value is the `toInt` of its pattern, an unsigned one its `toNat`. -/

namespace Sys2Proof

/-- One beat of an input port: a 32-bit command word (`spec/30_encoding.md` R90, R92). -/
abbrev Beat := BitVec 32

/-- One 16-bit signed sample, `s16` (`spec/00_scope.md` R6 `SAMPLE_W`). -/
abbrev Sample := BitVec 16

/-- A sample index, `u32`, modulo 2^32 (`spec/00_scope.md` R7 `IDX_W`, R16). -/
abbrev Index := BitVec 32

/-- A rate in hertz, `u26` (`spec/00_scope.md` R7 `RATE_W`). -/
abbrev Rate := BitVec 26

/-- The speed multiplier, unsigned Q10.16 in 26 bits (`spec/00_scope.md` R7 `SPEED_FMT`). -/
abbrev Speed := BitVec 26

/-- An interpolator output, `s18` (`spec/00_scope.md` R7 `HOLD_W`). -/
abbrev Hold := BitVec 18

/-- One accumulator cell, `s32` in Q.8 (`spec/00_scope.md` R7 `ACC_W`). -/
abbrev AccWord := BitVec 32

end Sys2Proof
end

