-- ==== Sys2Proof/Config.lean ====
section
/-! DEFINITION. The parameters of the block: those the spec fixes (`spec/00_scope.md` R6, R7, constants here), those it
leaves OPEN (R8, the structure `Config`, an argument of reset), and the three channels they are counted by. -/

namespace Sys2Proof

/-- The channels, `NUM_CH` = 3: 0 = DMA, 1 = streaming, 2 = auxiliary (`spec/00_scope.md` R6). -/
inductive Chan where
  | dma
  | str
  | aux
deriving DecidableEq, Repr

/-- The channel's number (`spec/00_scope.md` R6). -/
def Chan.num : Chan → Nat
  | .dma => 0
  | .str => 1
  | .aux => 2

/-- The sides of a frame (`spec/00_scope.md` R16). -/
inductive Side where
  | left
  | right
deriving DecidableEq, Repr

/-- One value per channel: the spec's `X[c]`, c in 0..2. -/
structure PerChan (α : Type) where
  dma : α
  str : α
  aux : α
deriving DecidableEq, Repr

/-- `X[c]`. -/
def PerChan.get {α : Type} (p : PerChan α) : Chan → α
  | .dma => p.dma
  | .str => p.str
  | .aux => p.aux

/-- `X` with `X[c] <- v`. -/
def PerChan.set {α : Type} (p : PerChan α) (c : Chan) (v : α) : PerChan α :=
  match c with
  | .dma => { p with dma := v }
  | .str => { p with str := v }
  | .aux => { p with aux := v }

/-- The same value in every channel. -/
def PerChan.all {α : Type} (v : α) : PerChan α := ⟨v, v, v⟩

/-- `X[c] <- f c` for every channel at once. -/
def PerChan.build {α : Type} (f : Chan → α) : PerChan α := ⟨f .dma, f .str, f .aux⟩

/-- A channel's interpolation strategy (`spec/00_scope.md` R6 `INTERP`). -/
inductive Strategy where
  | linear
  | cubic
deriving DecidableEq, Repr

/-- `CAPACITY`, stereo frames per ring (`spec/00_scope.md` R6). -/
def Param.capacity : Nat := 2048

/-- `RING_SAMPLES`, 16-bit cells per ring (`spec/00_scope.md` R6). -/
def Param.ringSamples : Nat := 4096

/-- `INDEX_MASK` (`spec/00_scope.md` R6). -/
def Param.indexMask : Index := 0xFFF#32

/-- `VOL_MAX`, full scale (`spec/00_scope.md` R6). -/
def Param.volMax : Nat := 255

/-- `VOL_DIV`, the volume divisor (`spec/00_scope.md` R6): the accumulator unit is 1/256 LSB. -/
def Param.volDiv : Nat := 256

/-- `MIX_MAX`, the largest frame count of one MIX command (`spec/00_scope.md` R7). -/
def Param.mixMax : Nat := 4095

/-- The largest step value, where the step saturates (`spec/00_scope.md` R7 `STEP_W`). -/
def Param.stepMax : Nat := 0xFFFFFFFF

/-- `INTERP[c]`: constant, CUBIC for channels 0 and 1, LINEAR for channel 2 (`spec/10_state.md` R35). -/
def Param.interp : Chan → Strategy
  | .dma => .cubic
  | .str => .cubic
  | .aux => .linear

/-- The OPEN parameters a step reads (`spec/00_scope.md` R8). -/
structure Tuning where
  /-- `LOW_WATERMARK`, frames: the backlog below which rate correction acts. -/
  lowWatermark : Nat
  /-- `KP_NUM`, numerator of the proportional gain. -/
  kpNum : Nat
  /-- `KP_DEN`, denominator of the proportional gain. -/
  kpDen : Nat
  /-- `MAX_FREQ_SHIFT`, hertz: the bound of the correction. -/
  maxFreqShift : Nat
  /-- `DIAG_FLOW_EN`: whether OVERFLOW and UNDERRUN are raised. -/
  diagFlowEn : Bool
deriving DecidableEq, Repr

/-- All OPEN parameters (`spec/00_scope.md` R8), sampled at reset (`spec/70_reset_and_hazards.md` R280). -/
structure Config where
  /-- `OUT_RATE`, hertz. -/
  outRate : Rate
  /-- `DEFAULT_RATE[0..2]`, hertz. -/
  defaultRate : PerChan Rate
  /-- `DITHER_SEED`. -/
  ditherSeed : BitVec 32
  /-- The parameters a step reads. -/
  tuning : Tuning
deriving DecidableEq, Repr

/-- The default of every OPEN parameter (`spec/00_scope.md` R8). PRESUMED, unsafe where a claim leans on a default
(log entry 1): the spec itself takes the rates and the controller numbers from general knowledge. -/
def Config.default : Config where
  outRate := 48000#26
  defaultRate := ⟨32000#26, 48000#26, 3000#26⟩
  ditherSeed := 0x2A032A03#32
  tuning :=
    { lowWatermark := 1280, kpNum := 1, kpDen := 5, maxFreqShift := 200, diagFlowEn := false }

end Sys2Proof
end

