-- ==== Sys2Proof/Syntax.lean ====
section
/-! DEFINITION. The command set of ASCB-1: one constructor per row of `spec/opcode_table.json`, fifteen in all
(`spec/45_arithmetic_and_command_classes.md` R247), with the operands of `spec/30_encoding.md` R96 as fields of their
own widths; and the input ports that carry the commands (R90). -/

namespace Sys2Proof

/-- The five input ports (`spec/30_encoding.md` R90): `PUSH0` to `PUSH2`, `MIXPORT`, `CFGPORT`. -/
inductive Port where
  | push (c : Chan)
  | mix
  | cfg
deriving DecidableEq, Repr

/-- The fifteen commands. Signed operands are two's-complement patterns of the field's width. -/
inductive Instr where
  /-- PUSHF.DMA `l, r` (R121). -/
  | pushfDma (left right : Sample)
  /-- PUSHF.STR `l, r` (R122). -/
  | pushfStr (left right : Sample)
  /-- PUSHF.AUX `l, r` (R123). -/
  | pushfAux (left right : Sample)
  /-- MIX.S16 `rc, n` (R190). -/
  | mixS16 (rc : Bool) (n : BitVec 12)
  /-- MIX.F32 `rc, n` (R193). -/
  | mixF32 (rc : Bool) (n : BitVec 12)
  /-- NOP (R208). -/
  | nop
  /-- SETRATE `ch, rate` (R200). -/
  | setrate (ch : Chan) (rate : Rate)
  /-- SETVOL `ch, left, right`, the volumes as `s13` (R201). -/
  | setvol (ch : Chan) (left right : BitVec 13)
  /-- SETSPEED `q` (R202). -/
  | setspeed (q : Speed)
  /-- GETSPEED (R203). -/
  | getspeed
  /-- GETAVAIL `ch` (R124). -/
  | getavail (ch : Chan)
  /-- LOGSTART `ch` (R206). -/
  | logstart (ch : Chan)
  /-- LOGSTOP `ch` (R207). -/
  | logstop (ch : Chan)
  /-- CFGBEGIN (R204). -/
  | cfgbegin
  /-- CFGCOMMIT (R205). -/
  | cfgcommit
deriving DecidableEq, Repr

/-- The one port each command belongs to (`spec/30_encoding.md` R90, R108). -/
def Instr.port : Instr → Port
  | .pushfDma _ _ => .push .dma
  | .pushfStr _ _ => .push .str
  | .pushfAux _ _ => .push .aux
  | .mixS16 _ _ => .mix
  | .mixF32 _ _ => .mix
  | .nop => .cfg
  | .setrate _ _ => .cfg
  | .setvol _ _ _ => .cfg
  | .setspeed _ => .cfg
  | .getspeed => .cfg
  | .getavail _ => .cfg
  | .logstart _ => .cfg
  | .logstop _ => .cfg
  | .cfgbegin => .cfg
  | .cfgcommit => .cfg

end Sys2Proof
end

