-- ==== Sys2Proof/WellFormed.lean ====
section
/-! DEFINITION. The checks that the types of `Instr` and `Config` do not make. The operand ranges of
`spec/30_encoding.md` R96 (a 26-bit rate, a channel in 0..2, a 12-bit count, ...) are the widths of the constructors'
fields, so an instruction alone is always well formed; what can be ill formed is a command offered on a port that does
not accept it, and a parameter outside the range of `spec/00_scope.md` R8. -/

namespace Sys2Proof

/-- A command stands well formed on a port when it is one of those the port accepts (`spec/30_encoding.md` R90,
`spec/60_exceptions.md` R260). -/
def Instr.wellFormedOn (p : Port) (i : Instr) : Bool := i.port == p

/-- The gain's numerator and denominator are positive and the watermark is a backlog of 0..2048 frames
(`spec/00_scope.md` R8). -/
def Tuning.wellFormed (t : Tuning) : Bool :=
  decide (t.lowWatermark ≤ Param.capacity) && decide (0 < t.kpNum) && decide (0 < t.kpDen)

/-- The parameters are in the ranges of `spec/00_scope.md` R8; the widths bound the others. -/
def Config.wellFormed (cfg : Config) : Bool := cfg.tuning.wellFormed

end Sys2Proof
end

