-- ==== Sys2Proof/Decode.lean ====
section
/-! DEFINITION. Decoding a beat taken from a port (`spec/30_encoding.md` R92 to R102), total, with a name for each kind
of ILLEGAL beat; and after it the encoder (R108). -/

namespace Sys2Proof

/-- Why a beat is ILLEGAL (`spec/30_encoding.md` R101). All three have the same effect, the ILLEGAL step (R252). -/
inductive Illegal where
  /-- On `MIXPORT`, `op` is neither 1 nor 2. -/
  | mixOp
  /-- On `CFGPORT`, `op` is in 0xA..0xF. -/
  | cfgOp
  /-- On `CFGPORT`, `op` is 1, 2, 5, 6 or 7 and `ch` is 3. -/
  | cfgChannel
deriving DecidableEq, Repr

/-- `op`, bits 31:28 of formats M and C (R94, R95). -/
def opField (w : Beat) : BitVec 4 := w.extractLsb' 28 4

/-- `ch`, bits 27:26 of format C (R95). -/
def chField (w : Beat) : BitVec 2 := w.extractLsb' 26 2

/-- The payload `imm`, bits 25:0 of format C (R95): `rate` and `q` of R96. -/
def immField (w : Beat) : BitVec 26 := w.extractLsb' 0 26

/-- SETVOL's `left`, bits 25:13 (R96). -/
def volLeftField (w : Beat) : BitVec 13 := w.extractLsb' 13 13

/-- SETVOL's `right`, bits 12:0 (R96). -/
def volRightField (w : Beat) : BitVec 13 := w.extractLsb' 0 13

/-- `rc`, bit 12 of format M (R94). -/
def rcField (w : Beat) : Bool := w.getLsbD 12

/-- `n`, bits 11:0 of format M (R94). -/
def nField (w : Beat) : BitVec 12 := w.extractLsb' 0 12

/-- The left sample of a format-F beat, bits 15:0 (R93). -/
def leftField (w : Beat) : Sample := w.extractLsb' 0 16

/-- The right sample of a format-F beat, bits 31:16 (R93). -/
def rightField (w : Beat) : Sample := w.extractLsb' 16 16

/-- The channel a `ch` field names; 3 names none (R95). -/
def chanOf (ch : BitVec 2) : Option Chan :=
  match ch.toNat with
  | 0 => some .dma
  | 1 => some .str
  | 2 => some .aux
  | _ => none

/-- A command that uses `ch`: ILLEGAL where the field is 3 (R100). -/
def withChan (w : Beat) (f : Chan → Instr) : Except Illegal Instr :=
  match chanOf (chField w) with
  | some c => .ok (f c)
  | none => .error .cfgChannel

/-- Decoding on `CFGPORT` (R98, R100). -/
def decodeCfg (w : Beat) : Except Illegal Instr :=
  match (opField w).toNat with
  | 0x0 => .ok .nop
  | 0x1 => withChan w fun c => .setrate c (immField w)
  | 0x2 => withChan w fun c => .setvol c (volLeftField w) (volRightField w)
  | 0x3 => .ok (.setspeed (immField w))
  | 0x4 => .ok .getspeed
  | 0x5 => withChan w .getavail
  | 0x6 => withChan w .logstart
  | 0x7 => withChan w .logstop
  | 0x8 => .ok .cfgbegin
  | 0x9 => .ok .cfgcommit
  | _ => .error .cfgOp

/-- Decoding on `MIXPORT` (R99, R100). -/
def decodeMix (w : Beat) : Except Illegal Instr :=
  match (opField w).toNat with
  | 0x1 => .ok (.mixS16 (rcField w) (nField w))
  | 0x2 => .ok (.mixF32 (rcField w) (nField w))
  | _ => .error .mixOp

/-- Decoding on `PUSHc` (R97, R100): every beat is a frame. -/
def decodePush (c : Chan) (w : Beat) : Instr :=
  match c with
  | .dma => .pushfDma (leftField w) (rightField w)
  | .str => .pushfStr (leftField w) (rightField w)
  | .aux => .pushfAux (leftField w) (rightField w)

/-- The decoding algorithm (R100): every 32-bit beat on every port is one command of that port or ILLEGAL. Bits a
command does not use are ignored (R102). -/
def decodeBeat (p : Port) (w : Beat) : Except Illegal Instr :=
  match p with
  | .push c => .ok (decodePush c w)
  | .mix => decodeMix w
  | .cfg => decodeCfg w

/-- The `ch` field that names a channel (R95). -/
def chCode : Chan → BitVec 2
  | .dma => 0#2
  | .str => 1#2
  | .aux => 2#2

/-- A format-C beat `{op, ch, imm}` (R95). -/
def formatC (op : BitVec 4) (ch : BitVec 2) (imm : BitVec 26) : Beat := op ++ ch ++ imm

/-- A format-M beat, its reserved bits 27:13 zero (R94, R102). -/
def formatM (op : BitVec 4) (rc : Bool) (n : BitVec 12) : Beat :=
  op ++ 0#15 ++ BitVec.ofBool rc ++ n

/-- A format-F beat `{right, left}` (R93). -/
def formatF (left right : Sample) : Beat := right ++ left

/-- The beat of a command, fields it does not use zero (R102, R108). -/
def encode : Instr → Beat
  | .pushfDma l r => formatF l r
  | .pushfStr l r => formatF l r
  | .pushfAux l r => formatF l r
  | .mixS16 rc n => formatM 0x1#4 rc n
  | .mixF32 rc n => formatM 0x2#4 rc n
  | .nop => formatC 0x0#4 0#2 0#26
  | .setrate c rate => formatC 0x1#4 (chCode c) rate
  | .setvol c l r => formatC 0x2#4 (chCode c) (l ++ r)
  | .setspeed q => formatC 0x3#4 0#2 q
  | .getspeed => formatC 0x4#4 0#2 0#26
  | .getavail c => formatC 0x5#4 (chCode c) 0#26
  | .logstart c => formatC 0x6#4 (chCode c) 0#26
  | .logstop c => formatC 0x7#4 (chCode c) 0#26
  | .cfgbegin => formatC 0x8#4 0#2 0#26
  | .cfgcommit => formatC 0x9#4 0#2 0#26

/-- The ports in the order in which a word without a port is tried. DESIGN CHOICE, safe (log entry 7): the words of
`spec/opcode_table.json` do not carry the port, and the table gives three ports rows with the same words. -/
def tablePorts : List Port := [.cfg, .mix, .push .dma]

/-- The first of the ports that reads the beat as a command, with the command. -/
def decodeOnFirst : List Port → Beat → Option (Port × Instr)
  | [], _ => none
  | p :: ps, w =>
    match decodeBeat p w with
    | .ok i => some (p, i)
    | .error _ => decodeOnFirst ps w

/-- The beat an instruction word of `nbits` bits is stored as: the bits above `nbits` are 0. -/
def tableBeat (nbits w : Nat) : Beat := BitVec.ofNat 32 (w % 2 ^ nbits)

/-- The port on which a word without a port is taken to stand (log entry 7). -/
def tablePort (nbits w : Nat) : Port :=
  match decodeOnFirst tablePorts (tableBeat nbits w) with
  | some (p, _) => p
  | none => .cfg

/-- The command the decoder reads from a word of the opcode table, on the first port that accepts it (log entry 7). -/
def decodeTableWord (nbits w : Nat) : Option Instr :=
  match decodeOnFirst tablePorts (tableBeat nbits w) with
  | some (_, i) => some i
  | none => none

end Sys2Proof
end

