-- ==== Sys2Proof/Machine/State.lean ====
section
/-! DEFINITION. The state of the block (`spec/10_state.md`), as plain data, and its value after reset (R42). -/

namespace Sys2Proof.Machine

/-- A sparse memory of `w`-bit cells: (cell number, value) pairs, cell numbers strictly rising, no value equal to what
an unlisted cell reads as, which is 0, the reset contents of every memory of the block (`spec/10_state.md` R42).
DESIGN CHOICE, safe (log entry 6): the unit is the spec's cell, not a byte. -/
abbrev Cells (w : Nat) := List (Nat × BitVec w)

/-- The four internal memories (`spec/20_memory.md` R60): three rings of 4096 `s16` cells, and the accumulator, 4096
frames of two `s32` cells. -/
structure Memory where
  /-- `RING[c]` (`spec/10_state.md` R34). -/
  ring : PerChan (Cells 16)
  /-- `ACC_L` (`spec/10_state.md` R38). -/
  accL : Cells 32
  /-- `ACC_R` (`spec/10_state.md` R38). -/
  accR : Cells 32
deriving DecidableEq, Repr

/-- The output form of a MIX command, `fmt` of `spec/43_mixer.md` R191. -/
inductive MixFormat where
  | s16
  | f32
deriving DecidableEq, Repr

/-- The consumer sequencer `SEQ` (`spec/10_state.md` R38, `spec/43_mixer.md` R191). -/
inductive Seq where
  /-- No MIX command is in progress. -/
  | idle
  /-- The next step is `PullFrame(c, k, rc)`. -/
  | pull (fmt : MixFormat) (rc : Bool) (n : Nat) (c : Chan) (k : Nat)
  /-- The next step emits output frame `k`. -/
  | emit (fmt : MixFormat) (n k : Nat)
  /-- The next step emits the DONE beat. -/
  | done (n : Nat)
deriving DecidableEq, Repr

/-- `VOL[c]` = (`VOL_L[c]`, `VOL_R[c]`), read and written as a pair (`spec/10_state.md` R25). -/
structure Vol where
  left : BitVec 8
  right : BitVec 8
deriving DecidableEq, Repr

/-- The agents that execute steps (`spec/60_exceptions.md` R262). -/
inductive Agent where
  /-- `P0`, `P1`, `P2`. -/
  | producer (c : Chan)
  /-- `C`. -/
  | consumer
  /-- `K`. -/
  | config
deriving DecidableEq, Repr

/-- The state of the block. Names and widths are those of `spec/10_state.md`. -/
@[ext]
structure State where
  /-- `RING[0..2]`, `ACC_L`, `ACC_R` (`spec/20_memory.md` R60). -/
  mem : Memory
  /-- `WIDX[c]` (R30). -/
  widx : PerChan Index
  /-- `RIDX[c]` (R31). -/
  ridx : PerChan Index
  /-- `FRAC[c]` (R32). -/
  frac : PerChan (BitVec 16)
  /-- `HOLD_L[c]` (R33). -/
  holdL : PerChan Hold
  /-- `HOLD_R[c]` (R33). -/
  holdR : PerChan Hold
  /-- `SEQ` (R38). -/
  seq : Seq
  /-- `DPREV_L` (R36). -/
  dprevL : BitVec 8
  /-- `DPREV_R` (R36). -/
  dprevR : BitVec 8
  /-- `PRNG` (R37). -/
  prng : BitVec 32
  /-- CR0 to CR2, `RATE[c]` (R24). -/
  rate : PerChan Rate
  /-- CR3 to CR5, `VOL[c]` (R25). -/
  vol : PerChan Vol
  /-- CR6, `SPEED` (R26). -/
  speed : Speed
  /-- CR7, `OUT_RATE`, a strap sampled at reset (R27). -/
  outRate : Rate
  /-- CR8, `LOGEN[c]` (R28). -/
  logen : PerChan Bool
  /-- CR9, `TXN` (R29). -/
  txn : Bool
  /-- CR9, `DIRTY[6:0]` (R29). -/
  dirty : BitVec 7
  /-- `SH_RATE[c]` (R29). -/
  shRate : PerChan Rate
  /-- `SH_VOL[c]` (R29). -/
  shVol : PerChan Vol
  /-- `SH_SPEED` (R29). -/
  shSpeed : Speed
  /-- The OPEN parameters a step reads, sampled at reset and constant after it (`spec/00_scope.md` R8, R9;
  `spec/70_reset_and_hazards.md` R280; log entry 1). -/
  tuning : Tuning
  /-- MIXOUT, the 34-bit beats emitted so far, oldest first (`spec/30_encoding.md` R104; log entry 5). -/
  mixOut : List (BitVec 34)
  /-- CFGRSP, oldest first (`spec/30_encoding.md` R105). -/
  cfgRsp : List (BitVec 32)
  /-- LOGOUT[c], oldest first (`spec/30_encoding.md` R106). -/
  logOut : PerChan (List (BitVec 34))
  /-- DIAGOUT, oldest first (`spec/30_encoding.md` R107). -/
  diagOut : List (BitVec 8)
  /-- The model's own: the beats pending on `PUSHc`, next one first (R21, R41; log entry 2). -/
  pushIn : PerChan (List Beat)
  /-- The model's own: the beats pending on `MIXPORT` (log entry 2). -/
  mixIn : List Beat
  /-- The model's own: the beats pending on `CFGPORT` (log entry 2). -/
  cfgIn : List Beat
  /-- The model's own: the turns the environment gives, next one first (`spec/20_memory.md` R70; log entry 2). -/
  sched : List Agent
deriving DecidableEq, Repr

/-- The reasons a step can fault: NONE. `spec/60_exceptions.md` R267: no step of the block faults. -/
inductive Fault where
deriving DecidableEq, Repr

/-- The reasons a step can be refused. -/
inductive Refusal where
  /-- An instruction without a meaning. Nobody raises it: every command has its meaning, and R267 of
  `spec/60_exceptions.md` says that no step is refused. Safe. -/
  | notModelled (mnemonic : String)
deriving DecidableEq, Repr

/-- The state right after reset under the parameters `cfg` (`spec/10_state.md` R42, `spec/70_reset_and_hazards.md`
R280): every register, ring cell and flag has a stated value. The input queues and the schedule, the model's own, are
empty. -/
def State.resetWith (cfg : Config) : State where
  mem := { ring := .all [], accL := [], accR := [] }
  widx := .all 0#32
  ridx := .all 0#32
  frac := .all 0#16
  holdL := .all 0#18
  holdR := .all 0#18
  seq := .idle
  dprevL := 0#8
  dprevR := 0#8
  prng := cfg.ditherSeed
  rate := cfg.defaultRate
  vol := .all ⟨255#8, 255#8⟩
  speed := 0x0010000#26
  outRate := cfg.outRate
  logen := .all false
  txn := false
  dirty := 0#7
  shRate := .all 0#26
  shVol := .all ⟨0#8, 0#8⟩
  shSpeed := 0#26
  tuning := cfg.tuning
  mixOut := []
  cfgRsp := []
  logOut := .all []
  diagOut := []
  pushIn := .all []
  mixIn := []
  cfgIn := []
  sched := []

/-- The state right after reset under the default parameters (`spec/00_scope.md` R8). -/
def State.reset : State := .resetWith .default

end Sys2Proof.Machine
end

