-- ==== Sys2Proof/Machine/Operands.lean ====
section
/-! DEFINITION. Operand forms (`spec/30_encoding.md` R96) and the integer operators of `spec/00_scope.md` R11 that Lean
does not already have under another name. `fdiv` on non-negative operands is division on `Nat`; `tdiv` is `Int.tdiv`;
`>>` on a signed value is the floor shift `>>>` of `Int`. -/

namespace Sys2Proof.Machine

/-- `clamp(v, lo, hi) = min(max(v, lo), hi)` (`spec/00_scope.md` R11). -/
def clamp (v lo hi : Int) : Int := min (max v lo) hi

/-- A volume operand, `s13`, clamped to 0..255 (`spec/43_mixer.md` R201). -/
def clampVolume (v : BitVec 13) : BitVec 8 := BitVec.ofInt 8 (clamp v.toInt 0 Param.volMax)

/-- The pair SETVOL writes (`spec/43_mixer.md` R201). -/
def volumePair (left right : BitVec 13) : Vol := ⟨clampVolume left, clampVolume right⟩

/-- The frame word `{right, left}` of a PUSH beat, an S16FRAME beat and a FRAME beat (`spec/20_memory.md` R64). -/
def frameWord (left right : Sample) : BitVec 32 := right ++ left

/-- `n`, `zext_12` (`spec/30_encoding.md` R96). -/
def countOperand (n : BitVec 12) : Nat := n.toNat

end Sys2Proof.Machine
end

