-- ==== Sys2Proof/Machine/Ops.lean ====
section
/-! DEFINITION. The operations the commands share: cells, ring and accumulator accesses (`spec/20_memory.md`), the named
register updates, the output beats (`spec/30_encoding.md` R104 to R107) and the diagnostic mechanism
(`spec/60_exceptions.md` R250), which is all the block has in place of taking an exception (R257, R258: no trap entry
and no return). -/

namespace Sys2Proof.Machine

/-! ## Cells -/

/-- The value of cell `a`; an unlisted cell holds its reset value 0 (`spec/10_state.md` R42). -/
def Cells.read {w : Nat} : Cells w → Nat → BitVec w
  | [], _ => 0#w
  | (b, v) :: rest, a => if a = b then v else Cells.read rest a

/-- Puts a cell in front of a memory, unless it holds what an unlisted cell reads as. -/
def Cells.cons {w : Nat} (a : Nat) (v : BitVec w) (m : Cells w) : Cells w :=
  if v = 0#w then m else (a, v) :: m

/-- Cell `a` set to `v`, in the canonical form. -/
def Cells.write {w : Nat} : Cells w → Nat → BitVec w → Cells w
  | [], a, v => Cells.cons a v []
  | (b, u) :: rest, a, v =>
    if a < b then Cells.cons a v ((b, u) :: rest)
    else if a = b then Cells.cons a v rest
    else (b, u) :: Cells.write rest a v

/-- Cells 0 .. n-1 set to 0. -/
def Cells.clearBelow {w : Nat} (n : Nat) (m : Cells w) : Cells w :=
  m.filter fun cell => decide (n ≤ cell.1)

/-- The canonical form of a memory of `size` cells whose listed cells are all `lo` or above: cell numbers strictly
rising and below `size`, no listed value 0. -/
def Cells.wfFrom {w : Nat} (size : Nat) : Nat → Cells w → Bool
  | _, [] => true
  | lo, (a, v) :: rest =>
    decide (lo ≤ a) && decide (a < size) && decide (v ≠ 0#w) && Cells.wfFrom size (a + 1) rest

/-- The canonical form of a memory of `size` cells. -/
def Cells.wf {w : Nat} (size : Nat) (m : Cells w) : Bool := Cells.wfFrom size 0 m

/-- The canonical form of the four memories: every ring and both sides of the accumulator (`spec/20_memory.md` R60). -/
def Memory.wf (m : Memory) : Bool :=
  Cells.wf Param.ringSamples m.ring.dma && Cells.wf Param.ringSamples m.ring.str
    && Cells.wf Param.ringSamples m.ring.aux
    && Cells.wf (Param.mixMax + 1) m.accL && Cells.wf (Param.mixMax + 1) m.accR

/-! ## Rings -/

/-- The slot of a sample index, `i & 0xFFF` (`spec/20_memory.md` R61, R67). -/
def slot (i : Index) : Nat := (i &&& Param.indexMask).toNat

/-- `RING[c][a]`. -/
def ringCell (c : Chan) (a : Nat) (s : State) : Sample := (s.mem.ring.get c).read a

/-- `RingRead(c, i)` (`spec/20_memory.md` R62): the frame at sample index `i`, (left, right). -/
def ringRead (c : Chan) (i : Index) (s : State) : Sample × Sample :=
  (ringCell c (slot i) s, ringCell c (slot (i + 1#32)) s)

/-- A ring with the frame `(l, r)` stored at sample index `i`. -/
def storeFrame (i : Index) (l r : Sample) (m : Cells 16) : Cells 16 :=
  (m.write (slot i) l).write (slot (i + 1#32)) r

/-- `RingWrite(c, i, l, r)` (`spec/20_memory.md` R63). -/
def ringWrite (c : Chan) (i : Index) (l r : Sample) (s : State) : State :=
  { s with mem := { s.mem with ring := s.mem.ring.set c (storeFrame i l r (s.mem.ring.get c)) } }

/-! ## Accumulator -/

/-- `ACC_L[k]` or `ACC_R[k]`. -/
def accCell (side : Side) (k : Nat) (s : State) : AccWord :=
  match side with
  | .left => s.mem.accL.read k
  | .right => s.mem.accR.read k

/-- A cell of an accumulator memory increased by an integer (`spec/42_resampler.md` R165, R168). -/
def addCell (k : Nat) (d : Int) (m : Cells 32) : Cells 32 :=
  m.write k (BitVec.ofInt 32 ((m.read k).toInt + d))

/-- `ACC_L[k] <- ACC_L[k] + dl; ACC_R[k] <- ACC_R[k] + dr`. -/
def accAdd (k : Nat) (dl dr : Int) (s : State) : State :=
  { s with mem := { s.mem with accL := addCell k dl s.mem.accL, accR := addCell k dr s.mem.accR } }

/-- `for j in 0 .. n-1: ACC_L[j] <- 0; ACC_R[j] <- 0` (`spec/43_mixer.md` R191, R192). -/
def accClear (n : Nat) (s : State) : State :=
  { s with mem := { s.mem with accL := s.mem.accL.clearBelow n, accR := s.mem.accR.clearBelow n } }

/-! ## Registers -/

/-- `WIDX[c] <- v`. -/
def setWidx (c : Chan) (v : Index) (s : State) : State := { s with widx := s.widx.set c v }

/-- `RIDX[c] <- v`. -/
def setRidx (c : Chan) (v : Index) (s : State) : State := { s with ridx := s.ridx.set c v }

/-- `FRAC[c] <- v`. -/
def setFrac (c : Chan) (v : BitVec 16) (s : State) : State := { s with frac := s.frac.set c v }

/-- `HOLD_L[c] <- l; HOLD_R[c] <- r`. -/
def setHold (c : Chan) (l r : Hold) (s : State) : State :=
  { s with holdL := s.holdL.set c l, holdR := s.holdR.set c r }

/-- `SEQ <- q`. -/
def setSeq (q : Seq) (s : State) : State := { s with seq := q }

/-- `PRNG <- x`. -/
def setPrng (x : BitVec 32) (s : State) : State := { s with prng := x }

/-- `DPREV_side`. -/
def dprev (side : Side) (s : State) : BitVec 8 :=
  match side with
  | .left => s.dprevL
  | .right => s.dprevR

/-- `DPREV_side <- d`. -/
def setDprev (side : Side) (d : BitVec 8) (s : State) : State :=
  match side with
  | .left => { s with dprevL := d }
  | .right => { s with dprevR := d }

/-! ## Configuration registers (`spec/43_mixer.md` R199) -/

/-- A control register number with a value of the register's type: what `CfgWrite(cr, v)` takes. -/
inductive CfgItem where
  /-- CR0 to CR2. -/
  | rate (c : Chan) (v : Rate)
  /-- CR3 to CR5. -/
  | vol (c : Chan) (v : Vol)
  /-- CR6. -/
  | speed (v : Speed)
deriving DecidableEq, Repr

/-- The register's number, the position of its dirty bit (`spec/10_state.md` R23). -/
def CfgItem.cr : CfgItem → Nat
  | .rate c _ => c.num
  | .vol c _ => 3 + c.num
  | .speed _ => 6

/-- `live(cr) <- v`. -/
def writeLive (x : CfgItem) (s : State) : State :=
  match x with
  | .rate c v => { s with rate := s.rate.set c v }
  | .vol c v => { s with vol := s.vol.set c v }
  | .speed v => { s with speed := v }

/-- `shadow(cr) <- v`. -/
def writeShadow (x : CfgItem) (s : State) : State :=
  match x with
  | .rate c v => { s with shRate := s.shRate.set c v }
  | .vol c v => { s with shVol := s.shVol.set c v }
  | .speed v => { s with shSpeed := v }

/-! ## Output beats -/

/-- The kinds of a MIXOUT beat (`spec/30_encoding.md` R104); kind 3 is never emitted. -/
inductive MixKind where
  | s16Frame
  | f32Sample
  | done
deriving DecidableEq, Repr

/-- `kind[1:0]` of a MIXOUT beat (R104). -/
def MixKind.code : MixKind → BitVec 2
  | .s16Frame => 0#2
  | .f32Sample => 1#2
  | .done => 2#2

/-- The MIXOUT beat `{kind, data}` (R104). -/
def mixBeat (kind : MixKind) (data : BitVec 32) : BitVec 34 := kind.code ++ data

/-- The kinds of a LOGOUT beat (`spec/30_encoding.md` R106); kind 3 is never emitted. -/
inductive LogKind where
  | frame
  | start
  | stop
deriving DecidableEq, Repr

/-- `kind[1:0]` of a LOGOUT beat (R106). -/
def LogKind.code : LogKind → BitVec 2
  | .frame => 0#2
  | .start => 1#2
  | .stop => 2#2

/-- The LOGOUT beat `{kind, data}` (R106). -/
def logBeat (kind : LogKind) (data : BitVec 32) : BitVec 34 := kind.code ++ data

/-- The six diagnostics, a closed set (`spec/60_exceptions.md` R251). -/
inductive DiagCode where
  | logRestart
  | logRestop
  | overflow
  | underrun
  | illegalCmd
  | cfgSeq
deriving DecidableEq, Repr

/-- `code[3:0]` (R251). -/
def DiagCode.code : DiagCode → BitVec 4
  | .logRestart => 1#4
  | .logRestop => 2#4
  | .overflow => 3#4
  | .underrun => 4#4
  | .illegalCmd => 5#4
  | .cfgSeq => 6#4

/-- The DIAGOUT beat `{code, arg}` (`spec/30_encoding.md` R107). -/
def diagBeat (code : DiagCode) (arg : BitVec 4) : BitVec 8 := code.code ++ arg

/-- `emit MIXOUT(kind, data)`. -/
def emitMix (kind : MixKind) (data : BitVec 32) (s : State) : State :=
  { s with mixOut := s.mixOut ++ [mixBeat kind data] }

/-- `emit CFGRSP(data)`. -/
def emitRsp (data : BitVec 32) (s : State) : State := { s with cfgRsp := s.cfgRsp ++ [data] }

/-- `emit LOGOUT[c](kind, data)`. -/
def emitLog (c : Chan) (kind : LogKind) (data : BitVec 32) (s : State) : State :=
  { s with logOut := s.logOut.set c (s.logOut.get c ++ [logBeat kind data]) }

/-- `raise Diag(code, arg)` (`spec/60_exceptions.md` R250): one beat on DIAGOUT; no state changes, the step goes on and
nothing is saved, masked or redirected (R257). -/
def raiseDiag (code : DiagCode) (arg : BitVec 4) (s : State) : State :=
  { s with diagOut := s.diagOut ++ [diagBeat code arg] }

/-- A channel number as a diagnostic's argument (R251). -/
def chanArg (c : Chan) : BitVec 4 := BitVec.ofNat 4 c.num

/-- A flow diagnostic, OVERFLOW or UNDERRUN: raised only when `DIAG_FLOW_EN` = 1 (`spec/60_exceptions.md` R254). -/
def raiseFlow (code : DiagCode) (c : Chan) (s : State) : State :=
  if s.tuning.diagFlowEn then raiseDiag code (chanArg c) s else s

/-! ## Backlog (`spec/40_channel_buffer.md`) -/

/-- `lag = mod32(WIDX[c] - RIDX[c])`, in samples (`spec/00_scope.md` R16). -/
def lag (c : Chan) (s : State) : Nat := (s.widx.get c - s.ridx.get c).toNat

/-- `Backlog(c)`, `mod32(WIDX[c] - RIDX[c]) >> 1` (R125). -/
def backlog (c : Chan) (s : State) : Nat := lag c s >>> 1

/-- The answer of GETAVAIL, `min(lag, 4096) >> 1` (R124). -/
def availAnswer (c : Chan) (s : State) : Nat := min (lag c s) Param.ringSamples >>> 1

/-- `Resync(c)` (R126): the consumer's repair of its cursor after an overflow. -/
def resync (c : Chan) (s : State) : State :=
  if Param.ringSamples < lag c s then setRidx c (s.widx.get c - 4096#32) s else s

end Sys2Proof.Machine
end

