-- ==== Sys2Proof/Machine/Flags.lean ====
section
/-! DEFINITION. The one-bit state (`spec/10_state.md` R22, R28, R29): `LOGEN[c]`, `TXN`, `DIRTY[6:0]`, and the derived
predicate `empty(c)`. There are no condition codes: no command sets a flag as a side effect of arithmetic (R22). -/

namespace Sys2Proof.Machine

/-- `LOGEN[c] <- b` (R28). -/
def setLogen (c : Chan) (b : Bool) (s : State) : State := { s with logen := s.logen.set c b }

/-- `TXN <- b; DIRTY <- 0`: what opening and closing a transaction have in common (`spec/43_mixer.md` R204, R205). -/
def setTxn (b : Bool) (s : State) : State := { s with txn := b, dirty := 0#7 }

/-- `DIRTY[cr] <- 1` (R29). -/
def setDirty (cr : Nat) (s : State) : State := { s with dirty := s.dirty ||| (1#7 <<< cr) }

/-- `DIRTY[cr]` (R29). -/
def dirtyBit (cr : Nat) (s : State) : Bool := s.dirty.getLsbD cr

/-- `empty(c)` (R22): the backlog is 0. Consulted after `Resync` only (`spec/40_channel_buffer.md` R125). -/
def isEmpty (c : Chan) (s : State) : Bool := backlog c s == 0

/-- `CfgWrite(cr, v)` (`spec/43_mixer.md` R199): to the live register outside a transaction, to the shadow and the
dirty bit inside one. -/
def cfgWrite (x : CfgItem) (s : State) : State :=
  if s.txn then setDirty x.cr (writeShadow x s) else writeLive x s

/-- The three copies of CFGCOMMIT, each under its dirty bit (`spec/43_mixer.md` R205). -/
def copyShadows (s : State) : State :=
  { s with
    rate := .build fun c => if dirtyBit c.num s then s.shRate.get c else s.rate.get c
    vol := .build fun c => if dirtyBit (3 + c.num) s then s.shVol.get c else s.vol.get c
    speed := if dirtyBit 6 s then s.shSpeed else s.speed }

end Sys2Proof.Machine
end

