-- ==== Sys2Proof/Machine/ChannelBuffer.lean ====
section
/-! DEFINITION. The channel ring buffer (`spec/40_channel_buffer.md`): PUSHF.DMA, PUSHF.STR, PUSHF.AUX, GETAVAIL. -/

namespace Sys2Proof.Machine

/-- OVERFLOW(c), when the slot about to be written holds an unread frame (R120). -/
def overflowCheck (c : Chan) (s : State) : State :=
  if Param.ringSamples ≤ lag c s then raiseFlow .overflow c s else s

/-- The log copy of a push, when logging is active for the channel (R120). -/
def logCopy (c : Chan) (l r : Sample) (s : State) : State :=
  if s.logen.get c then emitLog c .frame (frameWord l r) s else s

/-- `PushFrame(c, l, r)` (R120). -/
def pushFrame (c : Chan) (l r : Sample) (s : State) : State :=
  logCopy c l r
    (setWidx c (s.widx.get c + 2#32) (ringWrite c (s.widx.get c) l r (overflowCheck c s)))

/-- PUSHF.DMA (R121). -/
def execPushfDma (l r : Sample) (s : State) : Host.Outcome State Fault Refusal :=
  .next (pushFrame .dma l r s)

/-- PUSHF.STR (R122). -/
def execPushfStr (l r : Sample) (s : State) : Host.Outcome State Fault Refusal :=
  .next (pushFrame .str l r s)

/-- PUSHF.AUX (R123). -/
def execPushfAux (l r : Sample) (s : State) : Host.Outcome State Fault Refusal :=
  .next (pushFrame .aux l r s)

/-- GETAVAIL (R124). -/
def execGetavail (c : Chan) (s : State) : Host.Outcome State Fault Refusal :=
  .next (emitRsp (BitVec.ofNat 32 (availAnswer c s)) s)

end Sys2Proof.Machine
end

