-- ==== Sys2Proof/Machine/Control.lean ====
section
/-! DEFINITION. The configuration commands (`spec/43_mixer.md` R199 to R208): NOP, SETRATE, SETVOL, SETSPEED, GETSPEED,
LOGSTART, LOGSTOP, CFGBEGIN, CFGCOMMIT. Each is one step of agent `K`; none needs a mode (R260). -/

namespace Sys2Proof.Machine

/-- NOP (R208): changes no state and emits nothing. -/
def execNop (s : State) : Host.Outcome State Fault Refusal := .next s

/-- SETRATE (R200): any rate is stored as it is, 0 included. -/
def execSetrate (c : Chan) (rate : Rate) (s : State) : Host.Outcome State Fault Refusal :=
  .next (cfgWrite (.rate c rate) s)

/-- SETVOL (R201): both operands clamped to 0..255 when the command executes. -/
def execSetvol (c : Chan) (left right : BitVec 13) (s : State) : Host.Outcome State Fault Refusal :=
  .next (cfgWrite (.vol c (volumePair left right)) s)

/-- SETSPEED (R202). -/
def execSetspeed (q : Speed) (s : State) : Host.Outcome State Fault Refusal :=
  .next (cfgWrite (.speed q) s)

/-- GETSPEED (R203): the live register, also while a transaction is open. -/
def execGetspeed (s : State) : Host.Outcome State Fault Refusal :=
  .next (emitRsp (s.speed.setWidth 32) s)

/-- LOGSTART (R206): a repeated start only raises LOG_RESTART; a first one emits START with the live rate. -/
def execLogstart (c : Chan) (s : State) : Host.Outcome State Fault Refusal :=
  .next
    (if s.logen.get c then raiseDiag .logRestart (chanArg c) s
     else emitLog c .start ((s.rate.get c).setWidth 32) (setLogen c true s))

/-- LOGSTOP (R207): a repeated stop only raises LOG_RESTOP; a first one emits STOP. -/
def execLogstop (c : Chan) (s : State) : Host.Outcome State Fault Refusal :=
  .next
    (if s.logen.get c then emitLog c .stop 0#32 (setLogen c false s)
     else raiseDiag .logRestop (chanArg c) s)

/-- CFGBEGIN (R204): opens a transaction; while one is open it only raises CFG_SEQ(0) (R253). -/
def execCfgbegin (s : State) : Host.Outcome State Fault Refusal :=
  .next (if s.txn then raiseDiag .cfgSeq 0#4 s else setTxn true s)

/-- CFGCOMMIT (R205): every written shadow to its live register in one step, and the transaction is closed; with none
open it only raises CFG_SEQ(1) (R253). -/
def execCfgcommit (s : State) : Host.Outcome State Fault Refusal :=
  .next (if s.txn then setTxn false (copyShadows s) else raiseDiag .cfgSeq 1#4 s)

end Sys2Proof.Machine
end

