-- ==== Sys2Proof/Machine/Quantizer.lean ====
section
/-! DEFINITION. The output converter (`spec/44_quantizer.md`): the dither generator, `QuantS16`, `ToF32`. -/

namespace Sys2Proof.Machine

/-- `Xs32(x)` (R231): the 32-bit xorshift generator with shifts 13, 17, 5. -/
def xs32 (x : BitVec 32) : BitVec 32 :=
  let x1 := x ^^^ (x <<< 13)
  let x2 := x1 ^^^ (x1 >>> 17)
  x2 ^^^ (x2 <<< 5)

/-- The dither value of a generator state, `PRNG[31:24]` (R231). -/
def ditherOf (x : BitVec 32) : BitVec 8 := x.extractLsb' 24 8

/-- `v <- x + d - DPREV_side; q <- tdiv(v, 256)` (R233): the sample before the clip. -/
def quantRaw (x : AccWord) (d prev : BitVec 8) : Int :=
  (x.toInt + (d.toNat : Int) - (prev.toNat : Int)).tdiv Param.volDiv

/-- The clip of R234. -/
def clipS16 (q : Int) : Sample := BitVec.ofInt 16 (clamp q (-32768) 32767)

/-- The result of `QuantS16(x, side)` in a state (R233). -/
def quantResult (x : AccWord) (side : Side) (s : State) : Sample :=
  clipS16 (quantRaw x (ditherOf (xs32 s.prng)) (dprev side s))

/-- The state after `QuantS16(x, side)` (R233): the generator has advanced once and the side keeps the drawn value,
whether or not the sample clipped (R234). -/
def quantState (side : Side) (s : State) : State :=
  setDprev side (ditherOf (xs32 s.prng)) (setPrng (xs32 s.prng) s)

/-- `ToF32(x)` (R236): the binary32 pattern of `clamp(x, -2^23, 2^23 - 1) / 2^23`. -/
def toF32 (x : AccWord) : BitVec 32 :=
  let y := clamp x.toInt (-8388608) 8388607
  if y = 0 then 0#32
  else
    let m := y.natAbs
    let e := Nat.log2 m
    (BitVec.ofBool (decide (y < 0)) ++ BitVec.ofNat 8 (e + 104))
      ++ BitVec.ofNat 23 (m <<< (23 - e))

end Sys2Proof.Machine
end

