-- ==== Sys2Proof/Machine/Interpolators.lean ====
section
/-! DEFINITION. The interpolators (`spec/41_interpolators.md`): `Tap`, `Lin`, `Cub`, `Interp`. They read state and write
none. -/

namespace Sys2Proof.Machine

/-- The clamped offset of a tap, in frames (R140). -/
def tapOffset (avail : Nat) (d : Int) : Int :=
  clamp d ((avail : Int) - Param.capacity) ((avail : Int) - 1)

/-- `Tap(c, avail, d)` (R140): the frame at offset `d` from the read position, clamped to the frames the ring holds. -/
def tap (c : Chan) (avail : Nat) (d : Int) (s : State) : Sample × Sample :=
  ringRead c (s.ridx.get c + BitVec.ofInt 32 (2 * tapOffset avail d)) s

/-- `Lin(s0, s1, f)` (R142). -/
def lin (s0 s1 : Int) (f : Nat) : Int := s0 + (((s1 - s0) * (f : Int)) >>> (16 : Nat))

/-- `num` of `Cub` (R143), an exact integer. -/
def cubNum (sm1 s0 s1 s2 : Int) (f : Nat) : Int :=
  let a := 3 * (s0 - s1) + s2 - sm1
  let b := 2 * sm1 - 5 * s0 + 4 * s1 - s2
  let c := s1 - sm1
  ((a * (f : Int) + (b <<< (16 : Nat))) * (f : Int) + (c <<< (32 : Nat))) * (f : Int)

/-- `Cub(sm1, s0, s1, s2, f)` (R143): the Catmull-Rom spline with one floor at the end. -/
def cub (sm1 s0 s1 s2 : Int) (f : Nat) : Int := s0 + (cubNum sm1 s0 s1 s2 f >>> (49 : Nat))

/-- One side of a frame. -/
def sideOf (side : Side) (frame : Sample × Sample) : Int :=
  match side with
  | .left => frame.1.toInt
  | .right => frame.2.toInt

/-- One side of `Interp(c, avail)` (R144): the channel's strategy applied to that side's samples. -/
def interpSide (side : Side) (c : Chan) (avail : Nat) (s : State) : Int :=
  let x := fun d => sideOf side (tap c avail d s)
  let f := (s.frac.get c).toNat
  match Param.interp c with
  | .linear => lin (x 0) (x 1) f
  | .cubic => cub (x (-1)) (x 0) (x 1) (x 2) f

/-- `Interp(c, avail)` (R144): a pair of `s18`, (left, right). -/
def interp (c : Chan) (avail : Nat) (s : State) : Hold × Hold :=
  (BitVec.ofInt 18 (interpSide .left c avail s), BitVec.ofInt 18 (interpSide .right c avail s))

end Sys2Proof.Machine
end

