-- ==== Sys2Proof/Machine/Resampler.lean ====
section
/-! DEFINITION. The resampler (`spec/42_resampler.md`): `Shift`, `StepValue`, `PullFrame`. -/

namespace Sys2Proof.Machine

/-- `Shift(avail)` (R161): the rate correction in hertz. -/
def shift (t : Tuning) (avail : Nat) : Nat :=
  if t.lowWatermark ≤ avail then 0
  else min ((t.lowWatermark - avail) * t.kpNum / t.kpDen) t.maxFreqShift

/-- `num` of R162: the rate times the speed, less the correction when `rc` = 1. Subtraction on `Nat` stops at 0, which
is R162's `max(.., 0)`. -/
def stepNum (c : Chan) (avail : Nat) (rc : Bool) (s : State) : Nat :=
  let num := max (s.rate.get c).toNat 1 * s.speed.toNat
  if rc then num - shift s.tuning avail <<< 16 else num

/-- `StepValue(c, avail, rc)` (R162), a `u32` in Q16.16; both rates are floored at 1 Hz. -/
def stepValue (c : Chan) (avail : Nat) (rc : Bool) (s : State) : Nat :=
  min (stepNum c avail rc s / max s.outRate.toNat 1) Param.stepMax

/-- `pos <- FRAC[c] + step` (R165). -/
def nextPos (c : Chan) (avail : Nat) (rc : Bool) (s : State) : Nat :=
  (s.frac.get c).toNat + stepValue c avail rc s

/-- The advance of the read position, never past the write index (R165, R167). -/
def advance (c : Chan) (avail : Nat) (rc : Bool) (s : State) : State :=
  let pos := nextPos c avail rc s
  let adv := min (pos >>> 16) avail
  setRidx c (s.ridx.get c + BitVec.ofNat 32 (2 * adv)) (setFrac c (BitVec.ofNat 16 pos) s)

/-- `ACC_L[k] <- ACC_L[k] + l * VOL_L[c]` and the same on the right (R165, R168). -/
def accumulate (c : Chan) (k : Nat) (pair : Hold × Hold) (s : State) : State :=
  accAdd k (pair.1.toInt * ((s.vol.get c).left.toNat : Int))
    (pair.2.toInt * ((s.vol.get c).right.toNat : Int)) s

/-- The held pair (R166). -/
def heldPair (c : Chan) (s : State) : Hold × Hold := (s.holdL.get c, s.holdR.get c)

/-- `PullFrame` on an empty channel (R165, R166): hold-last; the position stands still. -/
def pullHeld (c : Chan) (k : Nat) (s : State) : State :=
  accumulate c k (heldPair c s) (raiseFlow .underrun c s)

/-- `PullFrame` on a channel with `avail` > 0 unread frames (R165). -/
def pullFresh (c : Chan) (k : Nat) (rc : Bool) (avail : Nat) (s : State) : State :=
  let pair := interp c avail s
  accumulate c k pair (advance c avail rc (setHold c pair.1 pair.2 s))

/-- `PullFrame` after the repair of the cursor (R165). -/
def pullSynced (c : Chan) (k : Nat) (rc : Bool) (s : State) : State :=
  if isEmpty c s then pullHeld c k s else pullFresh c k rc (backlog c s) s

/-- `PullFrame(c, k, rc)` (R165). -/
def pullFrame (c : Chan) (k : Nat) (rc : Bool) (s : State) : State :=
  pullSynced c k rc (resync c s)

end Sys2Proof.Machine
end

