-- ==== Sys2Proof/Machine/Mixer.lean ====
section
/-! DEFINITION. The MIX commands (`spec/43_mixer.md` R190 to R198): MIX.S16, MIX.F32, whose meaning is the START step
of `MixSeq`, and the PULL, EMIT and DONE steps that the sequencer `SEQ` carries on with (R191). -/

namespace Sys2Proof.Machine

/-- `SEQ` after START (R191). -/
def startSeq (fmt : MixFormat) (rc : Bool) (n : Nat) : Seq :=
  if n = 0 then .done 0 else .pull fmt rc n .dma 0

/-- Step START (R191): the accumulator cells of the command are cleared and its operands latched into `SEQ`. It is
enabled only when `SEQ = IDLE`; DEDUCED, safe (log entry 8): while another MIX is in progress the command waits, so
nothing happens. -/
def mixStart (fmt : MixFormat) (rc : Bool) (n : Nat) (s : State) : State :=
  if s.seq = .idle then setSeq (startSeq fmt rc n) (accClear n s) else s

/-- `SEQ` after `PullFrame(c, k, rc)`: channel-major order (R191). -/
def nextPull (fmt : MixFormat) (rc : Bool) (n : Nat) (c : Chan) (k : Nat) : Seq :=
  if k + 1 < n then .pull fmt rc n c (k + 1)
  else
    match c with
    | .dma => .pull fmt rc n .str 0
    | .str => .pull fmt rc n .aux 0
    | .aux => .emit fmt n 0

/-- Step PULL (R191). -/
def pullStep (fmt : MixFormat) (rc : Bool) (n : Nat) (c : Chan) (k : Nat) (s : State) : State :=
  setSeq (nextPull fmt rc n c k) (pullFrame c k rc s)

/-- The output of frame `k` as 16-bit PCM, left side first (R191, `spec/44_quantizer.md` R232). -/
def emitS16 (k : Nat) (s : State) : State :=
  let s1 := quantState .left s
  let ql := quantResult (accCell .left k s) .left s
  let qr := quantResult (accCell .right k s) .right s1
  emitMix .s16Frame (frameWord ql qr) (quantState .right s1)

/-- The output of frame `k` as two binary32 beats, left first (R191). -/
def emitF32 (k : Nat) (s : State) : State :=
  emitMix .f32Sample (toF32 (accCell .right k s)) (emitMix .f32Sample (toF32 (accCell .left k s)) s)

/-- The output of frame `k`. -/
def emitFrame (fmt : MixFormat) (k : Nat) (s : State) : State :=
  match fmt with
  | .s16 => emitS16 k s
  | .f32 => emitF32 k s

/-- `SEQ` after the emit step of frame `k` (R191). -/
def nextEmit (fmt : MixFormat) (n k : Nat) : Seq :=
  if k + 1 < n then .emit fmt n (k + 1) else .done n

/-- Step EMIT (R191). -/
def emitStep (fmt : MixFormat) (n k : Nat) (s : State) : State :=
  setSeq (nextEmit fmt n k) (emitFrame fmt k s)

/-- Step DONE (R191): the count is returned and the command is over (R195). -/
def doneStep (n : Nat) (s : State) : State :=
  setSeq .idle (emitMix .done (BitVec.ofNat 32 n) s)

/-- The consumer's one enabled step while a MIX command is in progress (R191); at `IDLE` there is none. -/
def mixAdvance (s : State) : State :=
  match s.seq with
  | .idle => s
  | .pull fmt rc n c k => pullStep fmt rc n c k s
  | .emit fmt n k => emitStep fmt n k s
  | .done n => doneStep n s

/-- MIX.S16 (R190). -/
def execMixS16 (rc : Bool) (n : BitVec 12) (s : State) : Host.Outcome State Fault Refusal :=
  .next (mixStart .s16 rc (countOperand n) s)

/-- MIX.F32 (R193). -/
def execMixF32 (rc : Bool) (n : BitVec 12) (s : State) : Host.Outcome State Fault Refusal :=
  .next (mixStart .f32 rc (countOperand n) s)

end Sys2Proof.Machine
end

