-- ==== Sys2Proof/Machine/Dispatch.lean ====
section
/-! DEFINITION. One arm per command (`spec/45_arithmetic_and_command_classes.md` R247). -/

namespace Sys2Proof.Machine

def exec (i : Instr) (s : State) : Host.Outcome State Fault Refusal :=
  match i with
  | .pushfDma left right => Sys2Proof.Machine.execPushfDma left right s
  | .pushfStr left right => Sys2Proof.Machine.execPushfStr left right s
  | .pushfAux left right => Sys2Proof.Machine.execPushfAux left right s
  | .mixS16 rc n => Sys2Proof.Machine.execMixS16 rc n s
  | .mixF32 rc n => Sys2Proof.Machine.execMixF32 rc n s
  | .nop => Sys2Proof.Machine.execNop s
  | .setrate ch rate => Sys2Proof.Machine.execSetrate ch rate s
  | .setvol ch left right => Sys2Proof.Machine.execSetvol ch left right s
  | .setspeed q => Sys2Proof.Machine.execSetspeed q s
  | .getspeed => Sys2Proof.Machine.execGetspeed s
  | .getavail ch => Sys2Proof.Machine.execGetavail ch s
  | .logstart ch => Sys2Proof.Machine.execLogstart ch s
  | .logstop ch => Sys2Proof.Machine.execLogstop ch s
  | .cfgbegin => Sys2Proof.Machine.execCfgbegin s
  | .cfgcommit => Sys2Proof.Machine.execCfgcommit s

end Sys2Proof.Machine
end

