-- ==== Sys2Proof/Machine/Agents.lean ====
section
/-! DEFINITION. The agents (`spec/60_exceptions.md` R262): the port each drives, taking a beat from it (which is all the
block has in place of a fetch, `spec/10_state.md` R21), the ILLEGAL step, and one step of an agent. -/

namespace Sys2Proof.Machine

/-- The port an agent drives (`spec/30_encoding.md` R90). -/
def Agent.port : Agent → Port
  | .producer c => .push c
  | .consumer => .mix
  | .config => .cfg

/-- The agent that drives a port (R90). -/
def portAgent : Port → Agent
  | .push c => .producer c
  | .mix => .consumer
  | .cfg => .config

/-- The beats pending on a port, next one first. -/
def pending (p : Port) (s : State) : List Beat :=
  match p with
  | .push c => s.pushIn.get c
  | .mix => s.mixIn
  | .cfg => s.cfgIn

/-- The state with the beats pending on a port replaced. -/
def setPending (p : Port) (beats : List Beat) (s : State) : State :=
  match p with
  | .push c => { s with pushIn := s.pushIn.set c beats }
  | .mix => { s with mixIn := beats }
  | .cfg => { s with cfgIn := beats }

/-- The beat at the head of a port taken from it. -/
def takeBeat (p : Port) (s : State) : State := setPending p (pending p s).tail s

/-- The argument of ILLEGAL_CMD: 0 for `CFGPORT`, 1 for `MIXPORT` (`spec/60_exceptions.md` R251). No beat of a PUSH
port is ILLEGAL (R101), so that case is never used. -/
def illegalArg : Port → BitVec 4
  | .cfg => 0#4
  | .mix => 1#4
  | .push _ => 0#4

/-- The ILLEGAL step (`spec/30_encoding.md` R101, `spec/60_exceptions.md` R252): one diagnostic, no state change. -/
def illegalStep (p : Port) (s : State) : State := raiseDiag .illegalCmd (illegalArg p) s

/-- A beat taken from a port, executed as one step (`spec/30_encoding.md` R100). -/
def runBeat (p : Port) (w : Beat) (s : State) : Host.Outcome State Fault Refusal :=
  match decodeBeat p w with
  | .ok i => exec i s
  | .error _ => .next (illegalStep p s)

/-- The next pending beat of a port taken and executed; with nothing pending, no step is taken
(`spec/60_exceptions.md` R266). -/
def servePort (p : Port) (s : State) : Host.Outcome State Fault Refusal :=
  match pending p s with
  | [] => .next s
  | w :: _ => runBeat p w (takeBeat p s)

/-- One step of an agent (`spec/00_scope.md` R13). The consumer carries on a MIX command in progress, and takes its next
beat only when `SEQ = IDLE` (`spec/30_encoding.md` R90). -/
def agentStep (a : Agent) (s : State) : Host.Outcome State Fault Refusal :=
  match a with
  | .producer c => servePort (.push c) s
  | .consumer => if s.seq = .idle then servePort .mix s else .next (mixAdvance s)
  | .config => servePort .cfg s

/-- Whether an agent has an enabled step (`spec/20_memory.md` R70). -/
def enabled (s : State) (a : Agent) : Bool :=
  !(pending a.port s).isEmpty || (decide (a = .consumer) && decide (s.seq ≠ .idle))

/-- The order in which agents are asked once the environment's turns are used up. DESIGN CHOICE, unsafe for a claim
about that part of a run only (log entry 4): R70 fixes no order, and every order is an execution. -/
def agentOrder : List Agent := [.consumer, .config, .producer .dma, .producer .str, .producer .aux]

/-- The agent that steps next: the one whose turn it is, or, with no turn left, the first enabled one. -/
def nextAgent (s : State) : Option Agent :=
  match s.sched with
  | a :: _ => some a
  | [] => agentOrder.find? (enabled s)

/-- The turn used up. -/
def takeTurn (s : State) : State := { s with sched := s.sched.tail }

/-- One step of the block: one step of the agent that steps next. When no agent has an enabled step the block stands
still (`spec/60_exceptions.md` R266, `spec/70_reset_and_hazards.md` R295). -/
def blockStep (s : State) : Host.Outcome State Fault Refusal :=
  match nextAgent s with
  | none => .next s
  | some a => agentStep a (takeTurn s)

/-- The consumer free to take a beat, when the port is `MIXPORT` (R90). -/
def readyFor (p : Port) (s : State) : State :=
  match p with
  | .mix => setSeq .idle s
  | _ => s

/-- A beat offered at the head of a port, its agent's turn next, so that the next step takes and runs it (log
entry 8). -/
def offerBeat (p : Port) (w : Beat) (s : State) : State :=
  let s' := setPending p (w :: pending p s) (readyFor p s)
  { s' with sched := portAgent p :: s'.sched }

end Sys2Proof.Machine
end

