-- ==== Sys2Proof/Machine/Step.lean ====
section
/-! DEFINITION. The step of the block, and placing a command where the next step takes it. -/

namespace Sys2Proof.Machine

/-- One step (`spec/00_scope.md` R13): one atomic step of one agent. -/
def step (s : State) : Host.Outcome State Fault Refusal := blockStep s

/-- The word placed at the head of the port it is decoded on, with that port's agent next to step (log entries 7
and 8). -/
def State.withFetchWord (s : State) (nbits w : Nat) : State :=
  offerBeat (tablePort nbits w) (tableBeat nbits w) s

end Sys2Proof.Machine
end

