-- ==== Sys2Proof/Safety.lean ====
section
/-! DEFINITION. What counts as a safe run, and the words the statements use: the outcome of a step, the invariants of
`spec/10_state.md` R33, R38, R40 and `spec/43_mixer.md` R197, running several commands or several steps of one kind, and
reading a binary32 pattern as a number. -/

namespace Sys2Proof.Machine

/-- A safe outcome: a next state, neither a fault nor a refusal (`spec/60_exceptions.md` R267). -/
def Safe (o : Host.Outcome State Fault Refusal) : Prop := ∃ t, o = .next t

/-! ## Invariants -/

/-- (I1) of R40: every `WIDX[c]` and `RIDX[c]` is even. -/
def State.IndexEven (s : State) : Prop :=
  ∀ c, (s.widx.get c).toNat % 2 = 0 ∧ (s.ridx.get c).toNat % 2 = 0

/-- The ranges of `SEQ` (`spec/10_state.md` R38): `k` in 0..n-1 where there is a `k`, `n` at most `MIX_MAX`. -/
def Seq.Legal : Seq → Prop
  | .idle => True
  | .pull _ _ n _ k => k < n ∧ n ≤ Param.mixMax
  | .emit _ n k => k < n ∧ n ≤ Param.mixMax
  | .done n => n ≤ Param.mixMax

/-- The range of a held value (`spec/10_state.md` R33). -/
def holdInRange (h : Hold) : Prop := -40960 ≤ h.toInt ∧ h.toInt ≤ 40958

/-- R33: every held value is in -40960..40958. -/
def State.HoldsInRange (s : State) : Prop :=
  ∀ c, holdInRange (s.holdL.get c) ∧ holdInRange (s.holdR.get c)

/-- How many channels may have been added to accumulator cell `j`: during the pull of channel `c`, frame `k`, the
channels before `c` and, for the frames already pulled, `c` itself; three in every other case. -/
def Seq.addedTo (q : Seq) (j : Nat) : Nat :=
  match q with
  | .pull _ _ n c k => if j < k then c.num + 1 else if j < n then c.num else 3
  | _ => 3

/-- The accumulator bound (`spec/43_mixer.md` R197), cell by cell: at most 40960 * 255 for each channel added. -/
def State.AccBounded (s : State) : Prop :=
  ∀ side j, (accCell side j s).toInt.natAbs ≤ s.seq.addedTo j * 10444800

/-- R204, R205: no dirty bit is set outside a transaction. -/
def State.DirtyOnlyInTxn (s : State) : Prop := s.txn = false → s.dirty = 0#7

/-- What holds right after reset and after every step. -/
structure State.Inv (s : State) : Prop where
  /-- The memories are in their canonical form. -/
  mem : s.mem.wf = true
  /-- R40 (I1). -/
  even : s.IndexEven
  /-- R38. -/
  seq : s.seq.Legal
  /-- R33. -/
  hold : s.HoldsInRange
  /-- R197. -/
  acc : s.AccBounded
  /-- R204, R205. -/
  dirty : s.DirtyOnlyInTxn

/-! ## Beats -/

/-- The ILLEGAL beats (`spec/30_encoding.md` R101), in arithmetic on the word. -/
def illegalOn (p : Port) (w : Beat) : Bool :=
  match p with
  | .push _ => false
  | .mix => decide (w.toNat / 2 ^ 28 ≠ 1 ∧ w.toNat / 2 ^ 28 ≠ 2)
  | .cfg =>
    decide (10 ≤ w.toNat / 2 ^ 28
      ∨ (w.toNat / 2 ^ 26 % 4 = 3 ∧ w.toNat / 2 ^ 28 ∈ [1, 2, 5, 6, 7]))

/-- The bits a command uses, 1 for used; the others are ignored (`spec/30_encoding.md` R102). -/
def usedBits : Instr → Beat
  | .pushfDma _ _ => 0xFFFFFFFF#32
  | .pushfStr _ _ => 0xFFFFFFFF#32
  | .pushfAux _ _ => 0xFFFFFFFF#32
  | .mixS16 _ _ => 0xF0001FFF#32
  | .mixF32 _ _ => 0xF0001FFF#32
  | .nop => 0xF0000000#32
  | .setrate _ _ => 0xFFFFFFFF#32
  | .setvol _ _ _ => 0xFFFFFFFF#32
  | .setspeed _ => 0xF3FFFFFF#32
  | .getspeed => 0xF0000000#32
  | .getavail _ => 0xFC000000#32
  | .logstart _ => 0xFC000000#32
  | .logstop _ => 0xFC000000#32
  | .cfgbegin => 0xF0000000#32
  | .cfgcommit => 0xF0000000#32

/-! ## Running commands and steps -/

/-- The push command of a channel (`spec/40_channel_buffer.md` R121 to R123). -/
def pushInstr (c : Chan) (l r : Sample) : Instr :=
  match c with
  | .dma => .pushfDma l r
  | .str => .pushfStr l r
  | .aux => .pushfAux l r

/-- The MIX command of an output form (`spec/43_mixer.md` R190, R193). -/
def mixInstr (fmt : MixFormat) (rc : Bool) (n : BitVec 12) : Instr :=
  match fmt with
  | .s16 => .mixS16 rc n
  | .f32 => .mixF32 rc n

/-- Commands executed one after the other, stopping at the first that gives no next state. -/
def execAll : List Instr → State → Host.Outcome State Fault Refusal
  | [], s => .next s
  | i :: is, s =>
    match exec i s with
    | .next t => execAll is t
    | .fault r => .fault r
    | .refused r => .refused r

/-- The pushes of a list of (left, right) frames to one channel. -/
def pushes (c : Chan) (frames : List (Sample × Sample)) : List Instr :=
  frames.map fun x => pushInstr c x.1 x.2

/-- `PullFrame(c, k, rc)` for each `k` of a list, one after the other. -/
def pullAll (c : Chan) (rc : Bool) : List Nat → State → State
  | [], s => s
  | k :: ks, s => pullAll c rc ks (pullFrame c k rc s)

/-- The configuration setters (`spec/43_mixer.md` R199). -/
def isSetter : Instr → Bool
  | .setrate _ _ => true
  | .setvol _ _ _ => true
  | .setspeed _ => true
  | _ => false

/-- How many consumer steps a MIX command in progress still takes (`spec/43_mixer.md` R191, R195). -/
def Seq.stepsLeft : Seq → Nat
  | .idle => 0
  | .pull _ _ n c k => (3 - c.num) * n - k + n + 1
  | .emit _ n k => n - k + 1
  | .done _ => 1

/-- How many consumer steps a beat of `MIXPORT` takes: `4n + 2` for a MIX command (`spec/43_mixer.md` R195), one for an
ILLEGAL beat. -/
def mixBeatSteps (w : Beat) : Nat :=
  match decodeMix w with
  | .ok (.mixS16 _ n) => 4 * n.toNat + 2
  | .ok (.mixF32 _ n) => 4 * n.toNat + 2
  | _ => 1

/-- How many steps of all agents are left until every pending beat is executed and `SEQ = IDLE`
(`spec/70_reset_and_hazards.md` R295). -/
def State.workLeft (s : State) : Nat :=
  s.pushIn.dma.length + s.pushIn.str.length + s.pushIn.aux.length + s.cfgIn.length
    + (s.mixIn.map mixBeatSteps).sum + s.seq.stepsLeft

/-- The end of a run (R295): every stream consumed and `SEQ = IDLE`. -/
def State.Ended (s : State) : Prop := (∀ p, pending p s = []) ∧ s.seq = .idle

/-- A MIXOUT beat that carries an S16FRAME (`spec/30_encoding.md` R104). -/
def isS16Frame (b : BitVec 34) : Bool := b.extractLsb' 32 2 == 0#2

/-- A MIXOUT beat that carries an F32SAMPLE (R104). -/
def isF32Sample (b : BitVec 34) : Bool := b.extractLsb' 32 2 == 1#2

/-- The beats a diagnostic can be (`spec/60_exceptions.md` R251): the closed set. -/
def diagBeats : List (BitVec 8) :=
  [0x10#8, 0x11#8, 0x12#8, 0x20#8, 0x21#8, 0x22#8, 0x30#8, 0x31#8, 0x32#8, 0x40#8, 0x41#8, 0x42#8, 0x50#8, 0x51#8,
    0x60#8, 0x61#8]

/-- The state with `DIAG_FLOW_EN` set to `b`. -/
def State.withFlow (b : Bool) (s : State) : State := { s with tuning := { s.tuning with diagFlowEn := b } }

/-- `SEQ` without the output form. -/
def Seq.eraseFormat : Seq → Seq
  | .idle => .idle
  | .pull _ rc n c k => .pull .s16 rc n c k
  | .emit _ n k => .emit .s16 n k
  | .done n => .done n

/-- The state without what the two output forms may differ in (`spec/43_mixer.md` R194): the form latched in `SEQ`, the
dither state and the MIXOUT beats. -/
def State.eraseFormat (s : State) : State :=
  { s with seq := s.seq.eraseFormat, prng := 0#32, dprevL := 0#8, dprevR := 0#8, mixOut := [] }

/-- The number a binary32 pattern stands for, for zero and the normal numbers (`spec/44_quantizer.md` R236): sign bit 31,
biased exponent bits 30:23, fraction bits 22:0 with a hidden leading one. -/
def f32Value (b : BitVec 32) : ℚ :=
  let sign : ℚ := if b.getLsbD 31 then -1 else 1
  let e := (b.extractLsb' 23 8).toNat
  let m := (b.extractLsb' 0 23).toNat
  if e = 0 ∧ m = 0 then 0 else sign * (1 + (m : ℚ) / 2 ^ 23) * (2 : ℚ) ^ ((e : ℤ) - 127)

end Sys2Proof.Machine
end

