-- ==== Sys2Proof/Certificates/Slice0/Obligations.lean ====
section
/-! DEFINITION. The statements for the provers. A frame is written `t = { s with f := t.f, ... }`: every field of the
state but the ones named is as it was. -/

open Sys2Proof Sys2Proof.Machine

/-! ## Encoding -/

/-- Every command offered on its own port is decoded back from its beat, with every operand at every value
(`spec/30_encoding.md` sections 2 to 4 and 7). -/
def Obligations.DecodeOfEncodeIsTheCommand : Prop :=
  ∀ (p : Port) (i : Instr), i.wellFormedOn p = true → decodeBeat p (encode i) = .ok i

/-- R102: bits a command does not use are ignored, whatever their value, and are written as zero. -/
def Obligations.UnusedBitsAreIgnored : Prop :=
  (∀ (p : Port) (w : Beat) (i : Instr), decodeBeat p w = .ok i → encode i = w &&& usedBits i)
    ∧ ∀ (i : Instr) (w : Beat), w &&& usedBits i = encode i → decodeBeat i.port w = .ok i

/-- R100: the decoding algorithm, in arithmetic on the beat: which command each port reads from a word, and from which
bits it takes each operand. -/
def Obligations.DecodingReadsTheFieldsOfTheBeat : Prop :=
  ∀ w : Beat,
    let op := w.toNat / 2 ^ 28
    let ch := w.toNat / 2 ^ 26 % 4
    let imm := w.toNat % 2 ^ 26
    (∀ c i, decodeBeat (.push c) w = .ok i ↔
      ∃ l r, i = pushInstr c l r ∧ l.toNat = w.toNat % 2 ^ 16 ∧ r.toNat = w.toNat / 2 ^ 16)
    ∧ (∀ i, decodeBeat .mix w = .ok i ↔
      ∃ rc n, (op = 1 ∧ i = .mixS16 rc n ∨ op = 2 ∧ i = .mixF32 rc n)
        ∧ rc = decide (w.toNat / 2 ^ 12 % 2 = 1) ∧ n.toNat = w.toNat % 2 ^ 12)
    ∧ ∀ i, decodeBeat .cfg w = .ok i ↔
      (op = 0 ∧ i = .nop)
      ∨ (∃ c rate, op = 1 ∧ ch = c.num ∧ rate.toNat = imm ∧ i = .setrate c rate)
      ∨ (∃ c l r, op = 2 ∧ ch = c.num ∧ l.toNat = imm / 2 ^ 13 ∧ r.toNat = imm % 2 ^ 13 ∧ i = .setvol c l r)
      ∨ (∃ q, op = 3 ∧ q.toNat = imm ∧ i = .setspeed q)
      ∨ (op = 4 ∧ i = .getspeed)
      ∨ (∃ c, op = 5 ∧ ch = c.num ∧ i = .getavail c)
      ∨ (∃ c, op = 6 ∧ ch = c.num ∧ i = .logstart c)
      ∨ (∃ c, op = 7 ∧ ch = c.num ∧ i = .logstop c)
      ∨ (op = 8 ∧ i = .cfgbegin)
      ∨ (op = 9 ∧ i = .cfgcommit)

/-- R101: which beats are ILLEGAL, and that one changes nothing but appends one ILLEGAL_CMD diagnostic; every other beat
is a command of its port and is executed. -/
def Obligations.IllegalBeatsAreDroppedWithOneDiagnostic : Prop :=
  ∀ (p : Port) (w : Beat) (s : State),
    (illegalOn p w = true →
      runBeat p w s = .next { s with diagOut := s.diagOut ++ [if p = .mix then 0x51#8 else 0x50#8] })
    ∧ (illegalOn p w = false → ∃ i, decodeBeat p w = .ok i ∧ i.port = p ∧ runBeat p w s = exec i s)

/-- A few words of `spec/95_test_vectors.md` V-DEC decode to the commands they stand for. -/
def Obligations.WordsOfTheSpecDecode : Prop :=
  decodeBeat (.push .dma) 0xFC1803E8#32 = .ok (.pushfDma 1000#16 (-1000#16))
    ∧ decodeBeat .cfg 0x24201FFB#32 = .ok (.setvol .str 256#13 (-5#13))
    ∧ decodeBeat .cfg 0x1000BB80#32 = .ok (.setrate .dma 48000#26)
    ∧ decodeBeat .cfg 0x68000000#32 = .ok (.logstart .aux)
    ∧ decodeBeat .mix 0x1FFFF004#32 = .ok (.mixS16 true 4#12)
    ∧ decodeBeat .mix 0x20001006#32 = .ok (.mixF32 true 6#12)
    ∧ decodeBeat .cfg 0x1FFFFFFF#32 = .error .cfgChannel
    ∧ decodeBeat .cfg 0xA0000000#32 = .error .cfgOp
    ∧ decodeBeat .mix 0x00000000#32 = .error .mixOp

/-! ## Ring memory and PUSHF -/

/-- Slots (`spec/20_memory.md` sections 1 and 2): an index modulo 4096, always a cell of the ring; consecutive indices use
consecutive slots, across the index wrap too; a frame at an even index never straddles the end of the ring. -/
def Obligations.SlotsFollowTheSampleIndex : Prop :=
  ∀ i : Index, slot i = i.toNat % 4096 ∧ slot i < 4096 ∧ slot (i + 1#32) = (slot i + 1) % 4096
    ∧ (i.toNat % 2 = 0 → slot i ≤ 4094 ∧ slot (i + 1#32) = slot i + 1)

/-- R63: a ring write stores the frame whatever the two slots held; every frame of another slot pair or another ring, and
the accumulator, stay as they are. -/
def Obligations.RingWriteStoresOneFrame : Prop :=
  ∀ (c d : Chan) (i j : Index) (l r : Sample) (s : State), s.mem.wf = true → i.toNat % 2 = 0 → j.toNat % 2 = 0 →
    ringRead d j (ringWrite c i l r s)
        = (if d = c ∧ j.toNat % 4096 = i.toNat % 4096 then (l, r) else ringRead d j s)
      ∧ (∀ side k, accCell side k (ringWrite c i l r s) = accCell side k s)
      ∧ ringWrite c i l r s = { s with mem := (ringWrite c i l r s).mem }

/-- R120 to R123: a push always succeeds; it stores the frame at `WIDX[c]`, adds 2 to `WIDX[c]`, copies the beat to the
log when logging is active, and raises OVERFLOW only when flow diagnostics are enabled and the lag is 4096 or more. -/
def Obligations.PushfStoresTheFrameAndAdvances : Prop :=
  ∀ (c : Chan) (l r : Sample) (s : State), s.mem.wf = true → ∃ t, exec (pushInstr c l r) s = .next t
    ∧ (∀ d a, ringCell d a t =
        if d = c ∧ a = slot (s.widx.get c) then l
        else if d = c ∧ a = slot (s.widx.get c + 1#32) then r else ringCell d a s)
    ∧ (∀ side k, accCell side k t = accCell side k s)
    ∧ t.widx = s.widx.set c (s.widx.get c + 2#32)
    ∧ t.logOut = (if s.logen.get c then s.logOut.set c (s.logOut.get c ++ [(0#2 ++ (r ++ l) : BitVec 34)])
        else s.logOut)
    ∧ t.diagOut = (if s.tuning.diagFlowEn = true ∧ 4096 ≤ (s.widx.get c - s.ridx.get c).toNat then
        s.diagOut ++ [0x30#8 + BitVec.ofNat 8 c.num] else s.diagOut)
    ∧ t = { s with mem := t.mem, widx := t.widx, logOut := t.logOut, diagOut := t.diagOut }

/-- R127: after more than 2048 pushes with no pull of the channel in between, the repaired cursor finds exactly 2048
unread frames, and they are the last 2048 pushed, in order. -/
def Obligations.OverflowKeepsTheNewestFrames : Prop :=
  ∀ (c : Chan) (frames : List (Sample × Sample)) (s : State), s.mem.wf = true → (s.widx.get c).toNat % 2 = 0 →
    lag c s + 2 * frames.length < 2 ^ 32 → 2048 < frames.length →
    ∃ t, execAll (pushes c frames) s = .next t ∧ backlog c (resync c t) = 2048
      ∧ ∀ j, j < 2048 → frames[frames.length - 2048 + j]?
          = some (ringRead c ((resync c t).ridx.get c + BitVec.ofNat 32 (2 * j)) (resync c t))

/-- R210: while logging is active, the log of the channel receives exactly the pushed frames, in push order, those later
lost to an overflow included. -/
def Obligations.LogCarriesEveryPushedFrame : Prop :=
  ∀ (c : Chan) (frames : List (Sample × Sample)) (s : State), s.logen.get c = true →
    ∃ t, execAll (pushes c frames) s = .next t
      ∧ t.logOut = s.logOut.set c (s.logOut.get c ++ frames.map fun x => (0#2 ++ (x.2 ++ x.1) : BitVec 34))
      ∧ t.widx = s.widx.set c (s.widx.get c + BitVec.ofNat 32 (2 * frames.length))

/-! ## Configuration -/

/-- R208, R203, R124: NOP changes nothing; GETSPEED answers the live speed and GETAVAIL the clamped backlog, at most 2048,
on CFGRSP, and neither changes anything else. -/
def Obligations.ReadCommandsAnswerAndChangeNothingElse : Prop :=
  ∀ (c : Chan) (s : State), exec .nop s = .next s
    ∧ exec .getspeed s = .next { s with cfgRsp := s.cfgRsp ++ [BitVec.ofNat 32 s.speed.toNat] }
    ∧ exec (.getavail c) s = .next { s with
        cfgRsp := s.cfgRsp ++ [BitVec.ofNat 32 (min (s.widx.get c - s.ridx.get c).toNat 4096 / 2)] }
    ∧ min (s.widx.get c - s.ridx.get c).toNat 4096 / 2 ≤ 2048

/-- R199, by the three commands that use it: SETRATE, SETVOL (both operands clamped to 0..255) and SETSPEED write the live register outside a
transaction, and the shadow register and its dirty bit inside one; nothing else changes. -/
def Obligations.SettersWriteTheLiveRegisterOrItsShadow : Prop :=
  ∀ (c : Chan) (rate : Rate) (l r : BitVec 13) (q : Speed) (s : State),
    (s.txn = false → exec (.setrate c rate) s = .next { s with rate := s.rate.set c rate })
    ∧ (s.txn = true → exec (.setrate c rate) s = .next { s with
        shRate := s.shRate.set c rate, dirty := s.dirty ||| BitVec.ofNat 7 (2 ^ c.num) })
    ∧ (∃ vl vr : BitVec 8, (vl.toNat : Int) = min (max l.toInt 0) 255 ∧ (vr.toNat : Int) = min (max r.toInt 0) 255
        ∧ (s.txn = false → exec (.setvol c l r) s = .next { s with vol := s.vol.set c ⟨vl, vr⟩ })
        ∧ (s.txn = true → exec (.setvol c l r) s = .next { s with
            shVol := s.shVol.set c ⟨vl, vr⟩, dirty := s.dirty ||| BitVec.ofNat 7 (2 ^ (3 + c.num)) }))
    ∧ (s.txn = false → exec (.setspeed q) s = .next { s with speed := q })
    ∧ (s.txn = true → exec (.setspeed q) s = .next { s with
        shSpeed := q, dirty := s.dirty ||| BitVec.ofNat 7 (2 ^ 6) })

/-- R204, R253: CFGBEGIN opens a transaction with no dirty bit; while one is open it changes nothing but raises
CFG_SEQ(0). -/
def Obligations.CfgbeginOpensATransaction : Prop :=
  ∀ s : State, (s.txn = false → exec .cfgbegin s = .next { s with txn := true, dirty := 0#7 })
    ∧ (s.txn = true → exec .cfgbegin s = .next { s with diagOut := s.diagOut ++ [0x60#8] })

/-- R205: CFGCOMMIT copies every shadow whose dirty bit is set, in one step, and closes the transaction; with none open it
changes nothing but raises CFG_SEQ(1). -/
def Obligations.CfgcommitCopiesTheDirtyShadows : Prop :=
  ∀ s : State,
    (s.txn = true → ∃ t, exec .cfgcommit s = .next t
      ∧ (∀ c, t.rate.get c = if s.dirty.getLsbD c.num then s.shRate.get c else s.rate.get c)
      ∧ (∀ c, t.vol.get c = if s.dirty.getLsbD (3 + c.num) then s.shVol.get c else s.vol.get c)
      ∧ t.speed = (if s.dirty.getLsbD 6 then s.shSpeed else s.speed) ∧ t.txn = false ∧ t.dirty = 0#7
      ∧ t = { s with rate := t.rate, vol := t.vol, speed := t.speed, txn := t.txn, dirty := t.dirty })
    ∧ (s.txn = false → exec .cfgcommit s = .next { s with diagOut := s.diagOut ++ [0x61#8] })

/-- `spec/43_mixer.md` section 3, `spec/20_memory.md` section 3: setters inside a transaction, however many and in any order, leave
the live registers alone, and the commit gives them in one step the values that the same setters give one by one outside
a transaction. -/
def Obligations.TransactionEqualsItsSettersAtOnce : Prop :=
  ∀ (xs : List Instr) (s : State), (∀ x ∈ xs, isSetter x = true) → s.txn = false →
    ∃ u v t, execAll xs s = .next u ∧ execAll (.cfgbegin :: xs) s = .next v
      ∧ execAll (.cfgbegin :: (xs ++ [.cfgcommit])) s = .next t
      ∧ v.rate = s.rate ∧ v.vol = s.vol ∧ v.speed = s.speed ∧ v.txn = true
      ∧ t.rate = u.rate ∧ t.vol = u.vol ∧ t.speed = u.speed ∧ t.txn = false ∧ t.dirty = 0#7

/-- R206, R207: the first LOGSTART activates the log and emits START with the live rate, the first LOGSTOP deactivates it
and emits STOP; a repeated one only raises its diagnostic. -/
def Obligations.LogTogglesStartAndStop : Prop :=
  ∀ (c : Chan) (s : State),
    (s.logen.get c = false → exec (.logstart c) s = .next { s with
        logen := s.logen.set c true
        logOut := s.logOut.set c
          (s.logOut.get c ++ [(1#2 ++ BitVec.ofNat 32 (s.rate.get c).toNat : BitVec 34)]) })
    ∧ (s.logen.get c = true → exec (.logstart c) s = .next { s with
        diagOut := s.diagOut ++ [0x10#8 + BitVec.ofNat 8 c.num] })
    ∧ (s.logen.get c = true → exec (.logstop c) s = .next { s with
        logen := s.logen.set c false
        logOut := s.logOut.set c (s.logOut.get c ++ [(2#2 ++ 0#32 : BitVec 34)]) })
    ∧ (s.logen.get c = false → exec (.logstop c) s = .next { s with
        diagOut := s.diagOut ++ [0x20#8 + BitVec.ofNat 8 c.num] })

/-- R209: start twice, stop twice, and start, stop, start, by the beats emitted and the state they leave. -/
def Obligations.LogTogglesAreIdempotent : Prop :=
  ∀ (c : Chan) (s : State),
    let start : BitVec 34 := 1#2 ++ BitVec.ofNat 32 (s.rate.get c).toNat
    let stop : BitVec 34 := 2#2 ++ 0#32
    (s.logen.get c = false → ∃ t, execAll [.logstart c, .logstart c] s = .next t ∧ t.logen.get c = true
      ∧ t.logOut.get c = s.logOut.get c ++ [start]
      ∧ t.diagOut = s.diagOut ++ [0x10#8 + BitVec.ofNat 8 c.num])
    ∧ (s.logen.get c = true → ∃ t, execAll [.logstop c, .logstop c] s = .next t ∧ t.logen.get c = false
      ∧ t.logOut.get c = s.logOut.get c ++ [stop]
      ∧ t.diagOut = s.diagOut ++ [0x20#8 + BitVec.ofNat 8 c.num])
    ∧ (s.logen.get c = false → ∃ t, execAll [.logstart c, .logstop c, .logstart c] s = .next t
      ∧ t.logen.get c = true ∧ t.logOut.get c = s.logOut.get c ++ [start, stop, start] ∧ t.diagOut = s.diagOut)

/-! ## The consumer's read cursor -/

/-- R126, R125: the repair moves the cursor to the oldest frame the ring still holds exactly when the lag exceeds 4096
samples; after it the lag is at most 4096 and the backlog at most 2048; nothing else changes. -/
def Obligations.ResyncRepairsTheCursor : Prop :=
  ∀ (c : Chan) (s : State), resync c s = { s with ridx := (resync c s).ridx }
    ∧ (lag c s ≤ 4096 → (resync c s).ridx = s.ridx)
    ∧ (4096 < lag c s → (resync c s).ridx = s.ridx.set c (s.widx.get c - 4096#32))
    ∧ lag c (resync c s) ≤ 4096 ∧ backlog c (resync c s) ≤ 2048

/-- `spec/10_state.md` section 5, the end of (I3): right after a `PullFrame` step of a channel its lag is at most 4096,
from every state. -/
def Obligations.PullFrameLeavesTheLagInRange : Prop :=
  ∀ (c : Chan) (k : Nat) (rc : Bool) (s : State), lag c (pullFrame c k rc s) ≤ 4096

/-! ## Interpolators -/

/-- R141: where the clamp of a tap acts. -/
def Obligations.TapsAreClampedAtTheEdgesOnly : Prop :=
  ∀ avail : Nat, 1 ≤ avail → avail ≤ 2048 →
    tapOffset avail 0 = 0
    ∧ tapOffset avail (-1) = (if avail = 2048 then 0 else -1)
    ∧ tapOffset avail 1 = (if avail = 1 then 0 else 1)
    ∧ tapOffset avail 2 = (if avail = 1 then 0 else if avail = 2 then 1 else 2)

/-- R142: `Lin` is the weighted average of the two samples rounded toward minus infinity; it lies between them, is the
first one exactly at `f` = 0, and stays below a larger second one. -/
def Obligations.LinIsTheFloorOfTheWeightedAverage : Prop :=
  ∀ (s0 s1 : Int) (f : Nat), f < 65536 →
    lin s0 s1 f * 65536 ≤ s0 * (65536 - (f : Int)) + s1 * (f : Int)
    ∧ s0 * (65536 - (f : Int)) + s1 * (f : Int) < (lin s0 s1 f + 1) * 65536
    ∧ min s0 s1 ≤ lin s0 s1 f ∧ lin s0 s1 f ≤ max s0 s1
    ∧ lin s0 s1 0 = s0 ∧ (s0 < s1 → lin s0 s1 f < s1)

/-- R143: `Cub` is the Catmull-Rom spline through the four samples at `t = f/65536`, rounded toward minus infinity once;
it is `s0` exactly at `f` = 0, and the common value of four equal samples. -/
def Obligations.CubIsTheFloorOfTheCatmullRomSpline : Prop :=
  ∀ (sm1 s0 s1 s2 : Int) (f : Nat), f < 65536 →
    let t : ℚ := (f : ℚ) / 65536
    let exact : ℚ := s0 + t * ((s1 - sm1 : Int) + t * ((2 * sm1 - 5 * s0 + 4 * s1 - s2 : Int)
      + t * (3 * (s0 - s1) + s2 - sm1 : Int))) / 2
    cub sm1 s0 s1 s2 f = ⌊exact⌋ ∧ cub sm1 s0 s1 s2 0 = s0 ∧ cub s0 s0 s0 s0 f = s0

/-- R146: from 16-bit samples `Lin` stays in the 16-bit range and `Cub` in -40960..40958. -/
def Obligations.InterpolatorsStayInRange : Prop :=
  ∀ (a b c d : Sample) (f : BitVec 16),
    -32768 ≤ lin a.toInt b.toInt f.toNat ∧ lin a.toInt b.toInt f.toNat ≤ 32767
    ∧ -40960 ≤ cub a.toInt b.toInt c.toInt d.toInt f.toNat ∧ cub a.toInt b.toInt c.toInt d.toInt f.toNat ≤ 40958

/-- R144: the pair an interpolation gives is, in each side and with no loss in its 18 bits, the strategy of the channel
applied to that side's taps: linear in two taps for the auxiliary channel, cubic in four for the other two. -/
def Obligations.InterpAppliesTheChannelsStrategy : Prop :=
  ∀ (c : Chan) (avail : Nat) (s : State),
    let f := (s.frac.get c).toNat
    let x := fun d => tap c avail d s
    ((interp c avail s).1.toInt, (interp c avail s).2.toInt) =
      if c = .aux then
        (lin (x 0).1.toInt (x 1).1.toInt f, lin (x 0).2.toInt (x 1).2.toInt f)
      else
        (cub (x (-1)).1.toInt (x 0).1.toInt (x 1).1.toInt (x 2).1.toInt f,
          cub (x (-1)).2.toInt (x 0).2.toInt (x 1).2.toInt (x 2).2.toInt f)

/-- R147: at an integer position an interpolation gives exactly the frame at `RIDX[c]`, for both strategies and whatever
the neighbouring frames are. -/
def Obligations.InterpAtAnIntegerPositionIsTheFrame : Prop :=
  ∀ (c : Chan) (avail : Nat) (s : State), 1 ≤ avail → avail ≤ 2048 → s.frac.get c = 0#16 →
    (interp c avail s).1.toInt = (ringRead c (s.ridx.get c) s).1.toInt
      ∧ (interp c avail s).2.toInt = (ringRead c (s.ridx.get c) s).2.toInt

/-! ## Resampler -/

/-- R161, R162: the correction and the step value, as integers. -/
def Obligations.StepValueFollowsRateSpeedAndCorrection : Prop :=
  ∀ (c : Chan) (avail : Nat) (rc : Bool) (s : State),
    let t := s.tuning
    let corr : Int := if t.lowWatermark ≤ avail then 0
      else min (((t.lowWatermark : Int) - avail) * t.kpNum / t.kpDen) t.maxFreqShift
    let num : Int := max ((s.rate.get c).toNat : Int) 1 * s.speed.toNat - (if rc then corr * 65536 else 0)
    (shift t avail : Int) = corr
      ∧ (stepValue c avail rc s : Int) = min (max num 0 / max (s.outRate.toNat : Int) 1) 4294967295

/-- R170: without correction, doubling the speed doubles the step up to one unit of rounding (below the saturation of
R162); with it, the step differs from the uncorrected one by at most `fdiv(MAX_FREQ_SHIFT << 16, out) + 1`. -/
def Obligations.DoublingTheSpeedDoublesTheStep : Prop :=
  ∀ (c : Chan) (avail : Nat) (rc : Bool) (s : State) (q : Speed),
    (q.toNat = 2 * s.speed.toNat → (rc = false ∨ s.tuning.lowWatermark ≤ avail) →
      stepValue c avail rc { s with speed := q } < 4294967295 →
      stepValue c avail rc { s with speed := q } = 2 * stepValue c avail rc s
        ∨ stepValue c avail rc { s with speed := q } = 2 * stepValue c avail rc s + 1)
    ∧ stepValue c avail true s ≤ stepValue c avail false s
    ∧ stepValue c avail false s
        ≤ stepValue c avail true s + s.tuning.maxFreqShift * 65536 / max s.outRate.toNat 1 + 1

/-- R165, the case of an empty channel (R166): the held pair, scaled by the volumes, is added to the accumulator cells of
the frame; the position and the held pair stay; UNDERRUN is raised only when enabled. -/
def Obligations.PullStepOfAnEmptyChannelHoldsTheLastPair : Prop :=
  ∀ (s : State) (fmt : MixFormat) (rc : Bool) (n : Nat) (c : Chan) (k : Nat), s.mem.wf = true →
    s.seq = .pull fmt rc n c k → lag c s < 2 → ∃ t, agentStep .consumer s = .next t
      ∧ (∀ j, accCell .left j t = if j = k then
          BitVec.ofInt 32 ((accCell .left k s).toInt + (s.holdL.get c).toInt * (s.vol.get c).left.toNat)
          else accCell .left j s)
      ∧ (∀ j, accCell .right j t = if j = k then
          BitVec.ofInt 32 ((accCell .right k s).toInt + (s.holdR.get c).toInt * (s.vol.get c).right.toNat)
          else accCell .right j s)
      ∧ (∀ d a, ringCell d a t = ringCell d a s)
      ∧ t.diagOut = (if s.tuning.diagFlowEn then s.diagOut ++ [0x40#8 + BitVec.ofNat 8 c.num] else s.diagOut)
      ∧ t = { s with mem := t.mem, diagOut := t.diagOut, seq := nextPull fmt rc n c k }

/-- R165, the case of a channel with unread frames (R167, R168): interpolate at the current position, keep the pair, then
advance by the step value, never past the write index; the pair, scaled by the volumes, is added to the accumulator cells
of the frame. -/
def Obligations.PullStepInterpolatesThenAdvances : Prop :=
  ∀ (s : State) (fmt : MixFormat) (rc : Bool) (n : Nat) (c : Chan) (k : Nat), s.mem.wf = true →
    s.seq = .pull fmt rc n c k → 2 ≤ lag c s →
    let u := resync c s
    let avail := (u.widx.get c - u.ridx.get c).toNat / 2
    let pair := interp c avail u
    let pos := (s.frac.get c).toNat + stepValue c avail rc s
    let adv := min (pos / 65536) avail
    ∃ t, agentStep .consumer s = .next t
      ∧ (∀ j, accCell .left j t = if j = k then
          BitVec.ofInt 32 ((accCell .left k s).toInt + pair.1.toInt * (s.vol.get c).left.toNat)
          else accCell .left j s)
      ∧ (∀ j, accCell .right j t = if j = k then
          BitVec.ofInt 32 ((accCell .right k s).toInt + pair.2.toInt * (s.vol.get c).right.toNat)
          else accCell .right j s)
      ∧ (∀ d a, ringCell d a t = ringCell d a s)
      ∧ t.holdL = s.holdL.set c pair.1 ∧ t.holdR = s.holdR.set c pair.2
      ∧ t.frac = s.frac.set c (BitVec.ofNat 16 (pos % 65536))
      ∧ t.ridx = s.ridx.set c (u.ridx.get c + BitVec.ofNat 32 (2 * adv))
      ∧ t = { s with
          mem := t.mem, holdL := t.holdL, holdR := t.holdR, frac := t.frac, ridx := t.ridx
          seq := nextPull fmt rc n c k }

/-- R171: identity resample. At a step of exactly 1.0 and an integer position, pulling the unread frames one by one gives
each of them exactly, in order, and consumes one frame a step. -/
def Obligations.IdentityResampleReturnsTheFramesInOrder : Prop :=
  ∀ (c : Chan) (rc : Bool) (ks : List Nat) (s : State), lag c s ≤ 4096 →
    max (s.rate.get c).toNat 1 = max s.outRate.toNat 1 → s.speed = 0x10000#26 →
    (rc = false ∨ ∀ avail, backlog c s + 1 ≤ avail + ks.length → avail ≤ backlog c s → shift s.tuning avail = 0) →
    s.frac.get c = 0#16 → ks ≠ [] → ks.length ≤ backlog c s →
    let t := pullAll c rc ks s
    let i := s.ridx.get c + BitVec.ofNat 32 (2 * (ks.length - 1))
    (t.holdL.get c).toInt = (ringRead c i s).1.toInt ∧ (t.holdR.get c).toInt = (ringRead c i s).2.toInt
      ∧ t.frac.get c = 0#16 ∧ t.ridx.get c = s.ridx.get c + BitVec.ofNat 32 (2 * ks.length)
      ∧ backlog c t = backlog c s - ks.length

/-- R173, R211: volume 0 on both sides silences the channel, its read position moving as at any other volume; at volume
255 the contribution is 255 times the pair. -/
def Obligations.VolumeScalesTheContributionOnly : Prop :=
  ∀ (c : Chan) (k : Nat) (rc : Bool) (s : State) (v : Vol), s.mem.wf = true →
    let q := pullFrame c k rc { s with vol := s.vol.set c v }
    let t := pullFrame c k rc s
    (v = ⟨0#8, 0#8⟩ → ∀ side j, accCell side j q = accCell side j s)
    ∧ (v = ⟨255#8, 255#8⟩ →
        accCell .left k q = BitVec.ofInt 32 ((accCell .left k s).toInt + 255 * (q.holdL.get c).toInt)
        ∧ accCell .right k q = BitVec.ofInt 32 ((accCell .right k s).toInt + 255 * (q.holdR.get c).toInt))
    ∧ q.ridx = t.ridx ∧ q.frac = t.frac ∧ q.holdL = t.holdL ∧ q.holdR = t.holdR

/-! ## Output converter -/

/-- `spec/44_quantizer.md` section 2: the generator's first four states from the default seed, and its first from 1; 0 is a
fixed point, and a non-zero state leads to a non-zero state. -/
def Obligations.DitherGeneratorNeverDiesOut : Prop :=
  xs32 0x2A032A03#32 = 0xA72ED9E2#32 ∧ xs32 0xA72ED9E2#32 = 0xFE465A8B#32 ∧ xs32 0xFE465A8B#32 = 0x97F32000#32
    ∧ xs32 0x97F32000#32 = 0x8D9866D9#32 ∧ xs32 1#32 = 0x00042021#32 ∧ xs32 0#32 = 0#32
    ∧ ∀ x : BitVec 32, x ≠ 0#32 → xs32 x ≠ 0#32

/-- R232 to R234: an emit step of MIX.S16 dithers, truncates toward zero and clips each accumulator cell, the left side
drawing from the generator first; it emits one S16FRAME and moves nothing but the dither state and `SEQ`. -/
def Obligations.EmitStepOfMixS16DithersTruncatesAndClips : Prop :=
  ∀ (s : State) (n k : Nat), s.seq = .emit .s16 n k →
    let p1 := xs32 s.prng
    let p2 := xs32 p1
    let vl : Int := (accCell .left k s).toInt + (p1.toNat / 2 ^ 24 : Nat) - s.dprevL.toNat
    let vr : Int := (accCell .right k s).toInt + (p2.toNat / 2 ^ 24 : Nat) - s.dprevR.toNat
    let trunc : Int → Int := fun v => if 0 ≤ v then v / 256 else -((-v) / 256)
    ∃ (ql qr : Sample) (t : State), agentStep .consumer s = .next t
      ∧ ql.toInt = min (max (trunc vl) (-32768)) 32767 ∧ qr.toInt = min (max (trunc vr) (-32768)) 32767
      ∧ t = { s with
          mixOut := s.mixOut ++ [(0#2 ++ (qr ++ ql) : BitVec 34)]
          prng := p2
          dprevL := BitVec.ofNat 8 (p1.toNat / 2 ^ 24)
          dprevR := BitVec.ofNat 8 (p2.toNat / 2 ^ 24)
          seq := if k + 1 < n then .emit .s16 n (k + 1) else .done n }

/-- An emit step of MIX.F32 (`spec/43_mixer.md` section 1) emits the two converted samples, left first, and moves nothing but
`SEQ`: the dither state is untouched. -/
def Obligations.EmitStepOfMixF32EmitsTheTwoSamples : Prop :=
  ∀ (s : State) (n k : Nat), s.seq = .emit .f32 n k →
    agentStep .consumer s = .next { s with
      mixOut := s.mixOut ++ [(1#2 ++ toF32 (accCell .left k s) : BitVec 34),
        (1#2 ++ toF32 (accCell .right k s) : BitVec 34)]
      seq := if k + 1 < n then .emit .f32 n (k + 1) else .done n }

/-- R236, R237: the binary32 pattern stands for exactly the accumulator saturated to -2^23..2^23 - 1 and divided by 2^23;
so it lies in [-1.0, 1.0), and the only zero is +0.0. -/
def Obligations.ToF32IsExactAndSaturates : Prop :=
  ∀ x : AccWord,
    f32Value (toF32 x) = ((min (max x.toInt (-8388608)) 8388607 : Int) : ℚ) / 2 ^ 23
    ∧ -1 ≤ f32Value (toF32 x) ∧ f32Value (toF32 x) < 1 ∧ (x.toInt = 0 → toF32 x = 0#32)

/-- R235 (a), (c) and R238: silence stays silent in every dither state; before the clip the output is less than two LSB
from the accumulator; below full scale the two output paths differ by less than two LSB. -/
def Obligations.IntegerOutputStaysNearTheAccumulator : Prop :=
  ∀ (x : AccWord) (side : Side) (s : State),
    quantResult 0#32 side s = 0#16
    ∧ |256 * quantRaw x (ditherOf (xs32 s.prng)) (dprev side s) - x.toInt| < 512
    ∧ (|x.toInt| < 2 ^ 23 - 512 →
        |((quantResult x side s).toInt : ℚ) / 32768 - f32Value (toF32 x)| < 2 / 32768)

/-! ## The MIX commands -/

/-- The START step (`spec/43_mixer.md` section 1): with no MIX in progress, both MIX commands clear the accumulator cells they
will use and latch their operands; nothing else changes. -/
def Obligations.MixStartClearsTheAccumulatorAndLatches : Prop :=
  ∀ (fmt : MixFormat) (rc : Bool) (n : BitVec 12) (s : State), s.seq = .idle →
    ∃ t, exec (mixInstr fmt rc n) s = .next t
      ∧ t.seq = (if n.toNat = 0 then .done 0 else .pull fmt rc n.toNat .dma 0)
      ∧ (∀ side j, accCell side j t = if j < n.toNat then 0#32 else accCell side j s)
      ∧ (∀ c a, ringCell c a t = ringCell c a s)
      ∧ t = { s with mem := t.mem, seq := t.seq }

/-- `spec/30_encoding.md` section 1: `MIXPORT` gives no beat away while a MIX is in progress. That a MIX command executed then
does nothing is the model's choice (log entry 8). -/
def Obligations.MixportWaitsWhileAMixIsInProgress : Prop :=
  ∀ (fmt : MixFormat) (rc : Bool) (n : BitVec 12) (s : State), s.seq ≠ .idle →
    exec (mixInstr fmt rc n) s = .next s ∧ ∃ t, agentStep .consumer s = .next t ∧ t.mixIn = s.mixIn

/-- R196: a MIX of count 0 takes two steps, emits DONE 0 alone, and changes no other state. -/
def Obligations.MixOfCountZeroOnlyEmitsDone : Prop :=
  ∀ (fmt : MixFormat) (rc : Bool) (w : Beat) (rest : List Beat) (turns : List Agent) (s : State),
    decodeBeat .mix w = .ok (mixInstr fmt rc 0#12) → s.seq = .idle → s.mixIn = w :: rest →
    s.sched = .consumer :: .consumer :: turns →
    core.run 2 s = .next { s with
      mixOut := s.mixOut ++ [(2#2 ++ 0#32 : BitVec 34)], mixIn := rest, sched := turns }

/-- R195: under every schedule, a legal MIX beat at the head of `MIXPORT` is over after `4n + 2` consumer steps, whatever
the other agents do in between: `SEQ` is `IDLE` again, exactly that beat has been taken, and exactly the command's frames
and one DONE beat with the count have been emitted. -/
def Obligations.EveryMixCompletesAndDeliversItsFrames : Prop :=
  ∀ (fmt : MixFormat) (rc : Bool) (n : BitVec 12) (w : Beat) (rest : List Beat) (sch turns : List Agent) (s : State),
    s.seq = .idle → s.mixIn = w :: rest → decodeBeat .mix w = .ok (mixInstr fmt rc n) → s.sched = sch ++ turns →
    sch.count .consumer = 4 * n.toNat + 2 →
    ∃ (t : State) (out : List (BitVec 34)), core.run sch.length s = .next t ∧ t.seq = .idle ∧ t.mixIn = rest
      ∧ t.mixOut = s.mixOut ++ out ++ [(2#2 ++ BitVec.ofNat 32 n.toNat : BitVec 34)]
      ∧ (fmt = .s16 → out.length = n.toNat ∧ ∀ b ∈ out, isS16Frame b = true)
      ∧ (fmt = .f32 → out.length = 2 * n.toNat ∧ ∀ b ∈ out, isF32Sample b = true)

/-- R194: MIX.S16 and MIX.F32 pull identically. From the same state and under the same interleaving, after any number of
steps the two runs agree in everything but the latched form, the dither state and the MIXOUT beats. -/
def Obligations.BothMixCommandsPullIdentically : Prop :=
  ∀ (rc : Bool) (n : BitVec 12) (k : Nat) (s a b : State),
    exec (.mixS16 rc n) s = .next a → exec (.mixF32 rc n) s = .next b →
    ∃ a' b', core.run k a = .next a' ∧ core.run k b = .next b' ∧ a'.eraseFormat = b'.eraseFormat

/-! ## The block -/

/-- A step of the agent whose turn it is takes the beat at the head of its port and runs the decoded command on the state
without that beat and that turn; an ILLEGAL beat is taken the same way. -/
def Obligations.StepRunsTheDecodedCommand : Prop :=
  ∀ (s : State) (a : Agent) (w : Beat) (rest : List Beat), nextAgent s = some a → (a = .consumer → s.seq = .idle) →
    pending a.port s = w :: rest →
    (∀ i, decodeBeat a.port w = .ok i → step s = exec i (setPending a.port rest (takeTurn s)))
    ∧ (∀ e, decodeBeat a.port w = .error e →
        step s = .next (illegalStep a.port (setPending a.port rest (takeTurn s))))

/-- While a MIX is in progress, a step of the consumer carries it on: `SEQ` stays in its ranges and one step less is left
(`spec/43_mixer.md` section 1). -/
def Obligations.StepOfTheConsumerCarriesOnTheMix : Prop :=
  ∀ s : State, nextAgent s = some .consumer → s.seq ≠ .idle → s.seq.Legal →
    step s = .next (mixAdvance (takeTurn s)) ∧ (mixAdvance (takeTurn s)).seq.Legal
      ∧ (mixAdvance (takeTurn s)).seq.stepsLeft + 1 = s.seq.stepsLeft

/-- R267: every step has a next state; none faults and none is refused. -/
def Obligations.EveryStepHasANextState : Prop := ∀ s : State, Safe (step s)

/-- `spec/20_memory.md` section 3: no step of one agent disables a step of another. -/
def Obligations.NoStepDisablesAnotherAgent : Prop :=
  ∀ (s t : State) (a b : Agent), a ≠ b → enabled s b = true → agentStep a s = .next t → enabled t b = true

/-- `spec/10_state.md` section 5: each piece of state has one writing agent. A producer writes its ring and its write index
(and takes its beats, and emits on its log and on DIAGOUT); the consumer writes the read side, the accumulator, `SEQ` and the
dither state; the configuration agent writes the control registers and the transaction. -/
def Obligations.EachPieceOfStateHasOneWriter : Prop :=
  ∀ s t : State,
    (∀ c, agentStep (.producer c) s = .next t →
      (∀ d, d ≠ c → t.mem.ring.get d = s.mem.ring.get d ∧ t.widx.get d = s.widx.get d
        ∧ t.logOut.get d = s.logOut.get d ∧ t.pushIn.get d = s.pushIn.get d)
      ∧ t.mem.accL = s.mem.accL ∧ t.mem.accR = s.mem.accR
      ∧ t = { s with mem := t.mem, widx := t.widx, logOut := t.logOut, diagOut := t.diagOut, pushIn := t.pushIn })
    ∧ (agentStep .consumer s = .next t →
      t.mem.ring = s.mem.ring
      ∧ t = { s with
          mem := t.mem, ridx := t.ridx, frac := t.frac, holdL := t.holdL, holdR := t.holdR, seq := t.seq
          dprevL := t.dprevL, dprevR := t.dprevR, prng := t.prng, mixOut := t.mixOut, diagOut := t.diagOut
          mixIn := t.mixIn })
    ∧ (agentStep .config s = .next t →
      t = { s with
          rate := t.rate, vol := t.vol, speed := t.speed, logen := t.logen, txn := t.txn, dirty := t.dirty
          shRate := t.shRate, shVol := t.shVol, shSpeed := t.shSpeed, cfgRsp := t.cfgRsp, logOut := t.logOut
          diagOut := t.diagOut, cfgIn := t.cfgIn })

/-- R198: the consumer never reads the transaction: whatever `TXN`, `DIRTY` and the shadows hold, its step does the same
to everything else and leaves them alone. -/
def Obligations.ConsumerIgnoresTheTransaction : Prop :=
  ∀ (s t : State) (txn : Bool) (dirty : BitVec 7) (shRate : PerChan Rate) (shVol : PerChan Vol) (shSpeed : Speed),
    agentStep .consumer s = .next t →
    agentStep .consumer { s with txn := txn, dirty := dirty, shRate := shRate, shVol := shVol, shSpeed := shSpeed }
      = .next { t with txn := txn, dirty := dirty, shRate := shRate, shVol := shVol, shSpeed := shSpeed }

/-- `spec/60_exceptions.md` section 1: no rule depends on whether a flow diagnostic is raised: over any number of steps, the
run with the other value of `DIAG_FLOW_EN` differs in the parameter and in DIAGOUT alone. -/
def Obligations.FlowDiagnosticsDecideNothing : Prop :=
  ∀ (b : Bool) (k : Nat) (s : State), ∃ t t', core.run k s = .next t ∧ core.run k (s.withFlow b) = .next t'
    ∧ { t' with diagOut := [] } = { t.withFlow b with diagOut := [] }

/-- R256, with the append-only streams of `spec/10_state.md` section 5 and the closed set of R251: a step appends at most one
diagnostic, one of the sixteen, and only appends to the other streams; MIXOUT and LOGOUT never carry kind 3. -/
def Obligations.StepsOnlyAppendAndRaiseAtMostOneDiagnostic : Prop :=
  ∀ s t : State, step s = .next t →
    (∃ ds, t.diagOut = s.diagOut ++ ds ∧ ds.length ≤ 1 ∧ ∀ b ∈ ds, b ∈ diagBeats)
    ∧ (∃ ms, t.mixOut = s.mixOut ++ ms ∧ ∀ b ∈ ms, b.extractLsb' 32 2 ≠ 3#2)
    ∧ (∃ rs, t.cfgRsp = s.cfgRsp ++ rs ∧ rs.length ≤ 1)
    ∧ (∀ c, ∃ ls, t.logOut.get c = s.logOut.get c ++ ls ∧ ls.length ≤ 1 ∧ ∀ b ∈ ls, b.extractLsb' 32 2 ≠ 3#2)

/-- R9: the parameters are constant from reset on: no step changes `OUT_RATE` or a parameter a step reads. -/
def Obligations.ParametersNeverChange : Prop :=
  ∀ s t : State, step s = .next t → t.outRate = s.outRate ∧ t.tuning = s.tuning

/-- R42: the state after reset, under any parameters. -/
def Obligations.ResetGivesTheStatedValues : Prop :=
  ∀ cfg : Config, let s := State.resetWith cfg
    (∀ c a, ringCell c a s = 0#16) ∧ (∀ side k, accCell side k s = 0#32)
    ∧ (∀ c, s.widx.get c = 0#32 ∧ s.ridx.get c = 0#32 ∧ s.frac.get c = 0#16 ∧ s.holdL.get c = 0#18
        ∧ s.holdR.get c = 0#18 ∧ s.rate.get c = cfg.defaultRate.get c ∧ s.vol.get c = ⟨255#8, 255#8⟩
        ∧ s.logen.get c = false ∧ s.shRate.get c = 0#26 ∧ s.shVol.get c = ⟨0#8, 0#8⟩ ∧ s.logOut.get c = [])
    ∧ s.speed = 0x10000#26 ∧ s.outRate = cfg.outRate ∧ s.txn = false ∧ s.dirty = 0#7 ∧ s.shSpeed = 0#26
    ∧ s.dprevL = 0#8 ∧ s.dprevR = 0#8 ∧ s.prng = cfg.ditherSeed ∧ s.seq = .idle
    ∧ s.mixOut = [] ∧ s.cfgRsp = [] ∧ s.diagOut = []

/-- The invariant holds after reset, under any parameters. -/
def Obligations.ResetSatisfiesTheInvariant : Prop := ∀ cfg : Config, (State.resetWith cfg).Inv

/-- Every step of every agent keeps the invariant, from every state that has it: the memories stay in canonical form, the
indices even, `SEQ` in its ranges, the held values in -40960..40958, every accumulator cell within 40960 * 255 for each
channel added, and no dirty bit outside a transaction. -/
def Obligations.EveryStepKeepsTheInvariant : Prop := ∀ s t : State, s.Inv → step s = .next t → t.Inv

/-- R197: under the invariant no accumulator cell exceeds 31334400 in magnitude, so no `s32` cell overflows. -/
def Obligations.AccumulatorNeverOverflows : Prop :=
  ∀ (s : State) (side : Side) (j : Nat), s.Inv → (accCell side j s).toInt.natAbs ≤ 31334400

/-- `spec/70_reset_and_hazards.md` section 5: with the environment's turns used up, every pending command is executed and the
run ends after exactly the steps that are left, and then the block stands still. That the agents then step in a fixed
order is the model's choice (log entry 4). -/
def Obligations.EveryRunEndsWithAllCommandsExecuted : Prop :=
  ∀ s : State, s.seq.Legal → s.sched = [] →
    ∃ t, core.run s.workLeft s = .next t ∧ t.Ended ∧ step t = .next t
end

