-- ==== Sys2Proof/Laws/State.lean ====
section
/-! SUPPORT. One lemma per field of State per named update, each true by unfolding the update once, so that no later proof
unfolds a record update. -/

namespace Sys2Proof.Machine

variable (s : State)

/-! ### ringWrite -/

@[simp] theorem ringWrite_mem (c : Chan) (i : Index) (l r : Sample) : (ringWrite c i l r s).mem = { s.mem with ring := s.mem.ring.set c (storeFrame i l r (s.mem.ring.get c)) } :=
  rfl
@[simp] theorem ringWrite_widx (c : Chan) (i : Index) (l r : Sample) : (ringWrite c i l r s).widx = s.widx := rfl
@[simp] theorem ringWrite_ridx (c : Chan) (i : Index) (l r : Sample) : (ringWrite c i l r s).ridx = s.ridx := rfl
@[simp] theorem ringWrite_frac (c : Chan) (i : Index) (l r : Sample) : (ringWrite c i l r s).frac = s.frac := rfl
@[simp] theorem ringWrite_holdL (c : Chan) (i : Index) (l r : Sample) : (ringWrite c i l r s).holdL = s.holdL := rfl
@[simp] theorem ringWrite_holdR (c : Chan) (i : Index) (l r : Sample) : (ringWrite c i l r s).holdR = s.holdR := rfl
@[simp] theorem ringWrite_seq (c : Chan) (i : Index) (l r : Sample) : (ringWrite c i l r s).seq = s.seq := rfl
@[simp] theorem ringWrite_dprevL (c : Chan) (i : Index) (l r : Sample) : (ringWrite c i l r s).dprevL = s.dprevL :=
  rfl
@[simp] theorem ringWrite_dprevR (c : Chan) (i : Index) (l r : Sample) : (ringWrite c i l r s).dprevR = s.dprevR :=
  rfl
@[simp] theorem ringWrite_prng (c : Chan) (i : Index) (l r : Sample) : (ringWrite c i l r s).prng = s.prng := rfl
@[simp] theorem ringWrite_rate (c : Chan) (i : Index) (l r : Sample) : (ringWrite c i l r s).rate = s.rate := rfl
@[simp] theorem ringWrite_vol (c : Chan) (i : Index) (l r : Sample) : (ringWrite c i l r s).vol = s.vol := rfl
@[simp] theorem ringWrite_speed (c : Chan) (i : Index) (l r : Sample) : (ringWrite c i l r s).speed = s.speed := rfl
@[simp] theorem ringWrite_outRate (c : Chan) (i : Index) (l r : Sample) : (ringWrite c i l r s).outRate = s.outRate :=
  rfl
@[simp] theorem ringWrite_logen (c : Chan) (i : Index) (l r : Sample) : (ringWrite c i l r s).logen = s.logen := rfl
@[simp] theorem ringWrite_txn (c : Chan) (i : Index) (l r : Sample) : (ringWrite c i l r s).txn = s.txn := rfl
@[simp] theorem ringWrite_dirty (c : Chan) (i : Index) (l r : Sample) : (ringWrite c i l r s).dirty = s.dirty := rfl
@[simp] theorem ringWrite_shRate (c : Chan) (i : Index) (l r : Sample) : (ringWrite c i l r s).shRate = s.shRate :=
  rfl
@[simp] theorem ringWrite_shVol (c : Chan) (i : Index) (l r : Sample) : (ringWrite c i l r s).shVol = s.shVol := rfl
@[simp] theorem ringWrite_shSpeed (c : Chan) (i : Index) (l r : Sample) : (ringWrite c i l r s).shSpeed = s.shSpeed :=
  rfl
@[simp] theorem ringWrite_tuning (c : Chan) (i : Index) (l r : Sample) : (ringWrite c i l r s).tuning = s.tuning :=
  rfl
@[simp] theorem ringWrite_mixOut (c : Chan) (i : Index) (l r : Sample) : (ringWrite c i l r s).mixOut = s.mixOut :=
  rfl
@[simp] theorem ringWrite_cfgRsp (c : Chan) (i : Index) (l r : Sample) : (ringWrite c i l r s).cfgRsp = s.cfgRsp :=
  rfl
@[simp] theorem ringWrite_logOut (c : Chan) (i : Index) (l r : Sample) : (ringWrite c i l r s).logOut = s.logOut :=
  rfl
@[simp] theorem ringWrite_diagOut (c : Chan) (i : Index) (l r : Sample) : (ringWrite c i l r s).diagOut = s.diagOut :=
  rfl
@[simp] theorem ringWrite_pushIn (c : Chan) (i : Index) (l r : Sample) : (ringWrite c i l r s).pushIn = s.pushIn :=
  rfl
@[simp] theorem ringWrite_mixIn (c : Chan) (i : Index) (l r : Sample) : (ringWrite c i l r s).mixIn = s.mixIn := rfl
@[simp] theorem ringWrite_cfgIn (c : Chan) (i : Index) (l r : Sample) : (ringWrite c i l r s).cfgIn = s.cfgIn := rfl
@[simp] theorem ringWrite_sched (c : Chan) (i : Index) (l r : Sample) : (ringWrite c i l r s).sched = s.sched := rfl

/-! ### accAdd -/

@[simp] theorem accAdd_mem (k : Nat) (dl dr : Int) : (accAdd k dl dr s).mem = { s.mem with accL := addCell k dl s.mem.accL, accR := addCell k dr s.mem.accR } :=
  rfl
@[simp] theorem accAdd_widx (k : Nat) (dl dr : Int) : (accAdd k dl dr s).widx = s.widx := rfl
@[simp] theorem accAdd_ridx (k : Nat) (dl dr : Int) : (accAdd k dl dr s).ridx = s.ridx := rfl
@[simp] theorem accAdd_frac (k : Nat) (dl dr : Int) : (accAdd k dl dr s).frac = s.frac := rfl
@[simp] theorem accAdd_holdL (k : Nat) (dl dr : Int) : (accAdd k dl dr s).holdL = s.holdL := rfl
@[simp] theorem accAdd_holdR (k : Nat) (dl dr : Int) : (accAdd k dl dr s).holdR = s.holdR := rfl
@[simp] theorem accAdd_seq (k : Nat) (dl dr : Int) : (accAdd k dl dr s).seq = s.seq := rfl
@[simp] theorem accAdd_dprevL (k : Nat) (dl dr : Int) : (accAdd k dl dr s).dprevL = s.dprevL := rfl
@[simp] theorem accAdd_dprevR (k : Nat) (dl dr : Int) : (accAdd k dl dr s).dprevR = s.dprevR := rfl
@[simp] theorem accAdd_prng (k : Nat) (dl dr : Int) : (accAdd k dl dr s).prng = s.prng := rfl
@[simp] theorem accAdd_rate (k : Nat) (dl dr : Int) : (accAdd k dl dr s).rate = s.rate := rfl
@[simp] theorem accAdd_vol (k : Nat) (dl dr : Int) : (accAdd k dl dr s).vol = s.vol := rfl
@[simp] theorem accAdd_speed (k : Nat) (dl dr : Int) : (accAdd k dl dr s).speed = s.speed := rfl
@[simp] theorem accAdd_outRate (k : Nat) (dl dr : Int) : (accAdd k dl dr s).outRate = s.outRate := rfl
@[simp] theorem accAdd_logen (k : Nat) (dl dr : Int) : (accAdd k dl dr s).logen = s.logen := rfl
@[simp] theorem accAdd_txn (k : Nat) (dl dr : Int) : (accAdd k dl dr s).txn = s.txn := rfl
@[simp] theorem accAdd_dirty (k : Nat) (dl dr : Int) : (accAdd k dl dr s).dirty = s.dirty := rfl
@[simp] theorem accAdd_shRate (k : Nat) (dl dr : Int) : (accAdd k dl dr s).shRate = s.shRate := rfl
@[simp] theorem accAdd_shVol (k : Nat) (dl dr : Int) : (accAdd k dl dr s).shVol = s.shVol := rfl
@[simp] theorem accAdd_shSpeed (k : Nat) (dl dr : Int) : (accAdd k dl dr s).shSpeed = s.shSpeed := rfl
@[simp] theorem accAdd_tuning (k : Nat) (dl dr : Int) : (accAdd k dl dr s).tuning = s.tuning := rfl
@[simp] theorem accAdd_mixOut (k : Nat) (dl dr : Int) : (accAdd k dl dr s).mixOut = s.mixOut := rfl
@[simp] theorem accAdd_cfgRsp (k : Nat) (dl dr : Int) : (accAdd k dl dr s).cfgRsp = s.cfgRsp := rfl
@[simp] theorem accAdd_logOut (k : Nat) (dl dr : Int) : (accAdd k dl dr s).logOut = s.logOut := rfl
@[simp] theorem accAdd_diagOut (k : Nat) (dl dr : Int) : (accAdd k dl dr s).diagOut = s.diagOut := rfl
@[simp] theorem accAdd_pushIn (k : Nat) (dl dr : Int) : (accAdd k dl dr s).pushIn = s.pushIn := rfl
@[simp] theorem accAdd_mixIn (k : Nat) (dl dr : Int) : (accAdd k dl dr s).mixIn = s.mixIn := rfl
@[simp] theorem accAdd_cfgIn (k : Nat) (dl dr : Int) : (accAdd k dl dr s).cfgIn = s.cfgIn := rfl
@[simp] theorem accAdd_sched (k : Nat) (dl dr : Int) : (accAdd k dl dr s).sched = s.sched := rfl

/-! ### accClear -/

@[simp] theorem accClear_mem (n : Nat) : (accClear n s).mem = { s.mem with accL := s.mem.accL.clearBelow n, accR := s.mem.accR.clearBelow n } :=
  rfl
@[simp] theorem accClear_widx (n : Nat) : (accClear n s).widx = s.widx := rfl
@[simp] theorem accClear_ridx (n : Nat) : (accClear n s).ridx = s.ridx := rfl
@[simp] theorem accClear_frac (n : Nat) : (accClear n s).frac = s.frac := rfl
@[simp] theorem accClear_holdL (n : Nat) : (accClear n s).holdL = s.holdL := rfl
@[simp] theorem accClear_holdR (n : Nat) : (accClear n s).holdR = s.holdR := rfl
@[simp] theorem accClear_seq (n : Nat) : (accClear n s).seq = s.seq := rfl
@[simp] theorem accClear_dprevL (n : Nat) : (accClear n s).dprevL = s.dprevL := rfl
@[simp] theorem accClear_dprevR (n : Nat) : (accClear n s).dprevR = s.dprevR := rfl
@[simp] theorem accClear_prng (n : Nat) : (accClear n s).prng = s.prng := rfl
@[simp] theorem accClear_rate (n : Nat) : (accClear n s).rate = s.rate := rfl
@[simp] theorem accClear_vol (n : Nat) : (accClear n s).vol = s.vol := rfl
@[simp] theorem accClear_speed (n : Nat) : (accClear n s).speed = s.speed := rfl
@[simp] theorem accClear_outRate (n : Nat) : (accClear n s).outRate = s.outRate := rfl
@[simp] theorem accClear_logen (n : Nat) : (accClear n s).logen = s.logen := rfl
@[simp] theorem accClear_txn (n : Nat) : (accClear n s).txn = s.txn := rfl
@[simp] theorem accClear_dirty (n : Nat) : (accClear n s).dirty = s.dirty := rfl
@[simp] theorem accClear_shRate (n : Nat) : (accClear n s).shRate = s.shRate := rfl
@[simp] theorem accClear_shVol (n : Nat) : (accClear n s).shVol = s.shVol := rfl
@[simp] theorem accClear_shSpeed (n : Nat) : (accClear n s).shSpeed = s.shSpeed := rfl
@[simp] theorem accClear_tuning (n : Nat) : (accClear n s).tuning = s.tuning := rfl
@[simp] theorem accClear_mixOut (n : Nat) : (accClear n s).mixOut = s.mixOut := rfl
@[simp] theorem accClear_cfgRsp (n : Nat) : (accClear n s).cfgRsp = s.cfgRsp := rfl
@[simp] theorem accClear_logOut (n : Nat) : (accClear n s).logOut = s.logOut := rfl
@[simp] theorem accClear_diagOut (n : Nat) : (accClear n s).diagOut = s.diagOut := rfl
@[simp] theorem accClear_pushIn (n : Nat) : (accClear n s).pushIn = s.pushIn := rfl
@[simp] theorem accClear_mixIn (n : Nat) : (accClear n s).mixIn = s.mixIn := rfl
@[simp] theorem accClear_cfgIn (n : Nat) : (accClear n s).cfgIn = s.cfgIn := rfl
@[simp] theorem accClear_sched (n : Nat) : (accClear n s).sched = s.sched := rfl

/-! ### setWidx -/

@[simp] theorem setWidx_mem (c : Chan) (v : Index) : (setWidx c v s).mem = s.mem := rfl
@[simp] theorem setWidx_widx (c : Chan) (v : Index) : (setWidx c v s).widx = s.widx.set c v := rfl
@[simp] theorem setWidx_ridx (c : Chan) (v : Index) : (setWidx c v s).ridx = s.ridx := rfl
@[simp] theorem setWidx_frac (c : Chan) (v : Index) : (setWidx c v s).frac = s.frac := rfl
@[simp] theorem setWidx_holdL (c : Chan) (v : Index) : (setWidx c v s).holdL = s.holdL := rfl
@[simp] theorem setWidx_holdR (c : Chan) (v : Index) : (setWidx c v s).holdR = s.holdR := rfl
@[simp] theorem setWidx_seq (c : Chan) (v : Index) : (setWidx c v s).seq = s.seq := rfl
@[simp] theorem setWidx_dprevL (c : Chan) (v : Index) : (setWidx c v s).dprevL = s.dprevL := rfl
@[simp] theorem setWidx_dprevR (c : Chan) (v : Index) : (setWidx c v s).dprevR = s.dprevR := rfl
@[simp] theorem setWidx_prng (c : Chan) (v : Index) : (setWidx c v s).prng = s.prng := rfl
@[simp] theorem setWidx_rate (c : Chan) (v : Index) : (setWidx c v s).rate = s.rate := rfl
@[simp] theorem setWidx_vol (c : Chan) (v : Index) : (setWidx c v s).vol = s.vol := rfl
@[simp] theorem setWidx_speed (c : Chan) (v : Index) : (setWidx c v s).speed = s.speed := rfl
@[simp] theorem setWidx_outRate (c : Chan) (v : Index) : (setWidx c v s).outRate = s.outRate := rfl
@[simp] theorem setWidx_logen (c : Chan) (v : Index) : (setWidx c v s).logen = s.logen := rfl
@[simp] theorem setWidx_txn (c : Chan) (v : Index) : (setWidx c v s).txn = s.txn := rfl
@[simp] theorem setWidx_dirty (c : Chan) (v : Index) : (setWidx c v s).dirty = s.dirty := rfl
@[simp] theorem setWidx_shRate (c : Chan) (v : Index) : (setWidx c v s).shRate = s.shRate := rfl
@[simp] theorem setWidx_shVol (c : Chan) (v : Index) : (setWidx c v s).shVol = s.shVol := rfl
@[simp] theorem setWidx_shSpeed (c : Chan) (v : Index) : (setWidx c v s).shSpeed = s.shSpeed := rfl
@[simp] theorem setWidx_tuning (c : Chan) (v : Index) : (setWidx c v s).tuning = s.tuning := rfl
@[simp] theorem setWidx_mixOut (c : Chan) (v : Index) : (setWidx c v s).mixOut = s.mixOut := rfl
@[simp] theorem setWidx_cfgRsp (c : Chan) (v : Index) : (setWidx c v s).cfgRsp = s.cfgRsp := rfl
@[simp] theorem setWidx_logOut (c : Chan) (v : Index) : (setWidx c v s).logOut = s.logOut := rfl
@[simp] theorem setWidx_diagOut (c : Chan) (v : Index) : (setWidx c v s).diagOut = s.diagOut := rfl
@[simp] theorem setWidx_pushIn (c : Chan) (v : Index) : (setWidx c v s).pushIn = s.pushIn := rfl
@[simp] theorem setWidx_mixIn (c : Chan) (v : Index) : (setWidx c v s).mixIn = s.mixIn := rfl
@[simp] theorem setWidx_cfgIn (c : Chan) (v : Index) : (setWidx c v s).cfgIn = s.cfgIn := rfl
@[simp] theorem setWidx_sched (c : Chan) (v : Index) : (setWidx c v s).sched = s.sched := rfl

/-! ### setRidx -/

@[simp] theorem setRidx_mem (c : Chan) (v : Index) : (setRidx c v s).mem = s.mem := rfl
@[simp] theorem setRidx_widx (c : Chan) (v : Index) : (setRidx c v s).widx = s.widx := rfl
@[simp] theorem setRidx_ridx (c : Chan) (v : Index) : (setRidx c v s).ridx = s.ridx.set c v := rfl
@[simp] theorem setRidx_frac (c : Chan) (v : Index) : (setRidx c v s).frac = s.frac := rfl
@[simp] theorem setRidx_holdL (c : Chan) (v : Index) : (setRidx c v s).holdL = s.holdL := rfl
@[simp] theorem setRidx_holdR (c : Chan) (v : Index) : (setRidx c v s).holdR = s.holdR := rfl
@[simp] theorem setRidx_seq (c : Chan) (v : Index) : (setRidx c v s).seq = s.seq := rfl
@[simp] theorem setRidx_dprevL (c : Chan) (v : Index) : (setRidx c v s).dprevL = s.dprevL := rfl
@[simp] theorem setRidx_dprevR (c : Chan) (v : Index) : (setRidx c v s).dprevR = s.dprevR := rfl
@[simp] theorem setRidx_prng (c : Chan) (v : Index) : (setRidx c v s).prng = s.prng := rfl
@[simp] theorem setRidx_rate (c : Chan) (v : Index) : (setRidx c v s).rate = s.rate := rfl
@[simp] theorem setRidx_vol (c : Chan) (v : Index) : (setRidx c v s).vol = s.vol := rfl
@[simp] theorem setRidx_speed (c : Chan) (v : Index) : (setRidx c v s).speed = s.speed := rfl
@[simp] theorem setRidx_outRate (c : Chan) (v : Index) : (setRidx c v s).outRate = s.outRate := rfl
@[simp] theorem setRidx_logen (c : Chan) (v : Index) : (setRidx c v s).logen = s.logen := rfl
@[simp] theorem setRidx_txn (c : Chan) (v : Index) : (setRidx c v s).txn = s.txn := rfl
@[simp] theorem setRidx_dirty (c : Chan) (v : Index) : (setRidx c v s).dirty = s.dirty := rfl
@[simp] theorem setRidx_shRate (c : Chan) (v : Index) : (setRidx c v s).shRate = s.shRate := rfl
@[simp] theorem setRidx_shVol (c : Chan) (v : Index) : (setRidx c v s).shVol = s.shVol := rfl
@[simp] theorem setRidx_shSpeed (c : Chan) (v : Index) : (setRidx c v s).shSpeed = s.shSpeed := rfl
@[simp] theorem setRidx_tuning (c : Chan) (v : Index) : (setRidx c v s).tuning = s.tuning := rfl
@[simp] theorem setRidx_mixOut (c : Chan) (v : Index) : (setRidx c v s).mixOut = s.mixOut := rfl
@[simp] theorem setRidx_cfgRsp (c : Chan) (v : Index) : (setRidx c v s).cfgRsp = s.cfgRsp := rfl
@[simp] theorem setRidx_logOut (c : Chan) (v : Index) : (setRidx c v s).logOut = s.logOut := rfl
@[simp] theorem setRidx_diagOut (c : Chan) (v : Index) : (setRidx c v s).diagOut = s.diagOut := rfl
@[simp] theorem setRidx_pushIn (c : Chan) (v : Index) : (setRidx c v s).pushIn = s.pushIn := rfl
@[simp] theorem setRidx_mixIn (c : Chan) (v : Index) : (setRidx c v s).mixIn = s.mixIn := rfl
@[simp] theorem setRidx_cfgIn (c : Chan) (v : Index) : (setRidx c v s).cfgIn = s.cfgIn := rfl
@[simp] theorem setRidx_sched (c : Chan) (v : Index) : (setRidx c v s).sched = s.sched := rfl

/-! ### setFrac -/

@[simp] theorem setFrac_mem (c : Chan) (v : BitVec 16) : (setFrac c v s).mem = s.mem := rfl
@[simp] theorem setFrac_widx (c : Chan) (v : BitVec 16) : (setFrac c v s).widx = s.widx := rfl
@[simp] theorem setFrac_ridx (c : Chan) (v : BitVec 16) : (setFrac c v s).ridx = s.ridx := rfl
@[simp] theorem setFrac_frac (c : Chan) (v : BitVec 16) : (setFrac c v s).frac = s.frac.set c v := rfl
@[simp] theorem setFrac_holdL (c : Chan) (v : BitVec 16) : (setFrac c v s).holdL = s.holdL := rfl
@[simp] theorem setFrac_holdR (c : Chan) (v : BitVec 16) : (setFrac c v s).holdR = s.holdR := rfl
@[simp] theorem setFrac_seq (c : Chan) (v : BitVec 16) : (setFrac c v s).seq = s.seq := rfl
@[simp] theorem setFrac_dprevL (c : Chan) (v : BitVec 16) : (setFrac c v s).dprevL = s.dprevL := rfl
@[simp] theorem setFrac_dprevR (c : Chan) (v : BitVec 16) : (setFrac c v s).dprevR = s.dprevR := rfl
@[simp] theorem setFrac_prng (c : Chan) (v : BitVec 16) : (setFrac c v s).prng = s.prng := rfl
@[simp] theorem setFrac_rate (c : Chan) (v : BitVec 16) : (setFrac c v s).rate = s.rate := rfl
@[simp] theorem setFrac_vol (c : Chan) (v : BitVec 16) : (setFrac c v s).vol = s.vol := rfl
@[simp] theorem setFrac_speed (c : Chan) (v : BitVec 16) : (setFrac c v s).speed = s.speed := rfl
@[simp] theorem setFrac_outRate (c : Chan) (v : BitVec 16) : (setFrac c v s).outRate = s.outRate := rfl
@[simp] theorem setFrac_logen (c : Chan) (v : BitVec 16) : (setFrac c v s).logen = s.logen := rfl
@[simp] theorem setFrac_txn (c : Chan) (v : BitVec 16) : (setFrac c v s).txn = s.txn := rfl
@[simp] theorem setFrac_dirty (c : Chan) (v : BitVec 16) : (setFrac c v s).dirty = s.dirty := rfl
@[simp] theorem setFrac_shRate (c : Chan) (v : BitVec 16) : (setFrac c v s).shRate = s.shRate := rfl
@[simp] theorem setFrac_shVol (c : Chan) (v : BitVec 16) : (setFrac c v s).shVol = s.shVol := rfl
@[simp] theorem setFrac_shSpeed (c : Chan) (v : BitVec 16) : (setFrac c v s).shSpeed = s.shSpeed := rfl
@[simp] theorem setFrac_tuning (c : Chan) (v : BitVec 16) : (setFrac c v s).tuning = s.tuning := rfl
@[simp] theorem setFrac_mixOut (c : Chan) (v : BitVec 16) : (setFrac c v s).mixOut = s.mixOut := rfl
@[simp] theorem setFrac_cfgRsp (c : Chan) (v : BitVec 16) : (setFrac c v s).cfgRsp = s.cfgRsp := rfl
@[simp] theorem setFrac_logOut (c : Chan) (v : BitVec 16) : (setFrac c v s).logOut = s.logOut := rfl
@[simp] theorem setFrac_diagOut (c : Chan) (v : BitVec 16) : (setFrac c v s).diagOut = s.diagOut := rfl
@[simp] theorem setFrac_pushIn (c : Chan) (v : BitVec 16) : (setFrac c v s).pushIn = s.pushIn := rfl
@[simp] theorem setFrac_mixIn (c : Chan) (v : BitVec 16) : (setFrac c v s).mixIn = s.mixIn := rfl
@[simp] theorem setFrac_cfgIn (c : Chan) (v : BitVec 16) : (setFrac c v s).cfgIn = s.cfgIn := rfl
@[simp] theorem setFrac_sched (c : Chan) (v : BitVec 16) : (setFrac c v s).sched = s.sched := rfl

/-! ### setHold -/

@[simp] theorem setHold_mem (c : Chan) (l r : Hold) : (setHold c l r s).mem = s.mem := rfl
@[simp] theorem setHold_widx (c : Chan) (l r : Hold) : (setHold c l r s).widx = s.widx := rfl
@[simp] theorem setHold_ridx (c : Chan) (l r : Hold) : (setHold c l r s).ridx = s.ridx := rfl
@[simp] theorem setHold_frac (c : Chan) (l r : Hold) : (setHold c l r s).frac = s.frac := rfl
@[simp] theorem setHold_holdL (c : Chan) (l r : Hold) : (setHold c l r s).holdL = s.holdL.set c l := rfl
@[simp] theorem setHold_holdR (c : Chan) (l r : Hold) : (setHold c l r s).holdR = s.holdR.set c r := rfl
@[simp] theorem setHold_seq (c : Chan) (l r : Hold) : (setHold c l r s).seq = s.seq := rfl
@[simp] theorem setHold_dprevL (c : Chan) (l r : Hold) : (setHold c l r s).dprevL = s.dprevL := rfl
@[simp] theorem setHold_dprevR (c : Chan) (l r : Hold) : (setHold c l r s).dprevR = s.dprevR := rfl
@[simp] theorem setHold_prng (c : Chan) (l r : Hold) : (setHold c l r s).prng = s.prng := rfl
@[simp] theorem setHold_rate (c : Chan) (l r : Hold) : (setHold c l r s).rate = s.rate := rfl
@[simp] theorem setHold_vol (c : Chan) (l r : Hold) : (setHold c l r s).vol = s.vol := rfl
@[simp] theorem setHold_speed (c : Chan) (l r : Hold) : (setHold c l r s).speed = s.speed := rfl
@[simp] theorem setHold_outRate (c : Chan) (l r : Hold) : (setHold c l r s).outRate = s.outRate := rfl
@[simp] theorem setHold_logen (c : Chan) (l r : Hold) : (setHold c l r s).logen = s.logen := rfl
@[simp] theorem setHold_txn (c : Chan) (l r : Hold) : (setHold c l r s).txn = s.txn := rfl
@[simp] theorem setHold_dirty (c : Chan) (l r : Hold) : (setHold c l r s).dirty = s.dirty := rfl
@[simp] theorem setHold_shRate (c : Chan) (l r : Hold) : (setHold c l r s).shRate = s.shRate := rfl
@[simp] theorem setHold_shVol (c : Chan) (l r : Hold) : (setHold c l r s).shVol = s.shVol := rfl
@[simp] theorem setHold_shSpeed (c : Chan) (l r : Hold) : (setHold c l r s).shSpeed = s.shSpeed := rfl
@[simp] theorem setHold_tuning (c : Chan) (l r : Hold) : (setHold c l r s).tuning = s.tuning := rfl
@[simp] theorem setHold_mixOut (c : Chan) (l r : Hold) : (setHold c l r s).mixOut = s.mixOut := rfl
@[simp] theorem setHold_cfgRsp (c : Chan) (l r : Hold) : (setHold c l r s).cfgRsp = s.cfgRsp := rfl
@[simp] theorem setHold_logOut (c : Chan) (l r : Hold) : (setHold c l r s).logOut = s.logOut := rfl
@[simp] theorem setHold_diagOut (c : Chan) (l r : Hold) : (setHold c l r s).diagOut = s.diagOut := rfl
@[simp] theorem setHold_pushIn (c : Chan) (l r : Hold) : (setHold c l r s).pushIn = s.pushIn := rfl
@[simp] theorem setHold_mixIn (c : Chan) (l r : Hold) : (setHold c l r s).mixIn = s.mixIn := rfl
@[simp] theorem setHold_cfgIn (c : Chan) (l r : Hold) : (setHold c l r s).cfgIn = s.cfgIn := rfl
@[simp] theorem setHold_sched (c : Chan) (l r : Hold) : (setHold c l r s).sched = s.sched := rfl

/-! ### setSeq -/

@[simp] theorem setSeq_mem (q : Seq) : (setSeq q s).mem = s.mem := rfl
@[simp] theorem setSeq_widx (q : Seq) : (setSeq q s).widx = s.widx := rfl
@[simp] theorem setSeq_ridx (q : Seq) : (setSeq q s).ridx = s.ridx := rfl
@[simp] theorem setSeq_frac (q : Seq) : (setSeq q s).frac = s.frac := rfl
@[simp] theorem setSeq_holdL (q : Seq) : (setSeq q s).holdL = s.holdL := rfl
@[simp] theorem setSeq_holdR (q : Seq) : (setSeq q s).holdR = s.holdR := rfl
@[simp] theorem setSeq_seq (q : Seq) : (setSeq q s).seq = q := rfl
@[simp] theorem setSeq_dprevL (q : Seq) : (setSeq q s).dprevL = s.dprevL := rfl
@[simp] theorem setSeq_dprevR (q : Seq) : (setSeq q s).dprevR = s.dprevR := rfl
@[simp] theorem setSeq_prng (q : Seq) : (setSeq q s).prng = s.prng := rfl
@[simp] theorem setSeq_rate (q : Seq) : (setSeq q s).rate = s.rate := rfl
@[simp] theorem setSeq_vol (q : Seq) : (setSeq q s).vol = s.vol := rfl
@[simp] theorem setSeq_speed (q : Seq) : (setSeq q s).speed = s.speed := rfl
@[simp] theorem setSeq_outRate (q : Seq) : (setSeq q s).outRate = s.outRate := rfl
@[simp] theorem setSeq_logen (q : Seq) : (setSeq q s).logen = s.logen := rfl
@[simp] theorem setSeq_txn (q : Seq) : (setSeq q s).txn = s.txn := rfl
@[simp] theorem setSeq_dirty (q : Seq) : (setSeq q s).dirty = s.dirty := rfl
@[simp] theorem setSeq_shRate (q : Seq) : (setSeq q s).shRate = s.shRate := rfl
@[simp] theorem setSeq_shVol (q : Seq) : (setSeq q s).shVol = s.shVol := rfl
@[simp] theorem setSeq_shSpeed (q : Seq) : (setSeq q s).shSpeed = s.shSpeed := rfl
@[simp] theorem setSeq_tuning (q : Seq) : (setSeq q s).tuning = s.tuning := rfl
@[simp] theorem setSeq_mixOut (q : Seq) : (setSeq q s).mixOut = s.mixOut := rfl
@[simp] theorem setSeq_cfgRsp (q : Seq) : (setSeq q s).cfgRsp = s.cfgRsp := rfl
@[simp] theorem setSeq_logOut (q : Seq) : (setSeq q s).logOut = s.logOut := rfl
@[simp] theorem setSeq_diagOut (q : Seq) : (setSeq q s).diagOut = s.diagOut := rfl
@[simp] theorem setSeq_pushIn (q : Seq) : (setSeq q s).pushIn = s.pushIn := rfl
@[simp] theorem setSeq_mixIn (q : Seq) : (setSeq q s).mixIn = s.mixIn := rfl
@[simp] theorem setSeq_cfgIn (q : Seq) : (setSeq q s).cfgIn = s.cfgIn := rfl
@[simp] theorem setSeq_sched (q : Seq) : (setSeq q s).sched = s.sched := rfl

/-! ### setPrng -/

@[simp] theorem setPrng_mem (x : BitVec 32) : (setPrng x s).mem = s.mem := rfl
@[simp] theorem setPrng_widx (x : BitVec 32) : (setPrng x s).widx = s.widx := rfl
@[simp] theorem setPrng_ridx (x : BitVec 32) : (setPrng x s).ridx = s.ridx := rfl
@[simp] theorem setPrng_frac (x : BitVec 32) : (setPrng x s).frac = s.frac := rfl
@[simp] theorem setPrng_holdL (x : BitVec 32) : (setPrng x s).holdL = s.holdL := rfl
@[simp] theorem setPrng_holdR (x : BitVec 32) : (setPrng x s).holdR = s.holdR := rfl
@[simp] theorem setPrng_seq (x : BitVec 32) : (setPrng x s).seq = s.seq := rfl
@[simp] theorem setPrng_dprevL (x : BitVec 32) : (setPrng x s).dprevL = s.dprevL := rfl
@[simp] theorem setPrng_dprevR (x : BitVec 32) : (setPrng x s).dprevR = s.dprevR := rfl
@[simp] theorem setPrng_prng (x : BitVec 32) : (setPrng x s).prng = x := rfl
@[simp] theorem setPrng_rate (x : BitVec 32) : (setPrng x s).rate = s.rate := rfl
@[simp] theorem setPrng_vol (x : BitVec 32) : (setPrng x s).vol = s.vol := rfl
@[simp] theorem setPrng_speed (x : BitVec 32) : (setPrng x s).speed = s.speed := rfl
@[simp] theorem setPrng_outRate (x : BitVec 32) : (setPrng x s).outRate = s.outRate := rfl
@[simp] theorem setPrng_logen (x : BitVec 32) : (setPrng x s).logen = s.logen := rfl
@[simp] theorem setPrng_txn (x : BitVec 32) : (setPrng x s).txn = s.txn := rfl
@[simp] theorem setPrng_dirty (x : BitVec 32) : (setPrng x s).dirty = s.dirty := rfl
@[simp] theorem setPrng_shRate (x : BitVec 32) : (setPrng x s).shRate = s.shRate := rfl
@[simp] theorem setPrng_shVol (x : BitVec 32) : (setPrng x s).shVol = s.shVol := rfl
@[simp] theorem setPrng_shSpeed (x : BitVec 32) : (setPrng x s).shSpeed = s.shSpeed := rfl
@[simp] theorem setPrng_tuning (x : BitVec 32) : (setPrng x s).tuning = s.tuning := rfl
@[simp] theorem setPrng_mixOut (x : BitVec 32) : (setPrng x s).mixOut = s.mixOut := rfl
@[simp] theorem setPrng_cfgRsp (x : BitVec 32) : (setPrng x s).cfgRsp = s.cfgRsp := rfl
@[simp] theorem setPrng_logOut (x : BitVec 32) : (setPrng x s).logOut = s.logOut := rfl
@[simp] theorem setPrng_diagOut (x : BitVec 32) : (setPrng x s).diagOut = s.diagOut := rfl
@[simp] theorem setPrng_pushIn (x : BitVec 32) : (setPrng x s).pushIn = s.pushIn := rfl
@[simp] theorem setPrng_mixIn (x : BitVec 32) : (setPrng x s).mixIn = s.mixIn := rfl
@[simp] theorem setPrng_cfgIn (x : BitVec 32) : (setPrng x s).cfgIn = s.cfgIn := rfl
@[simp] theorem setPrng_sched (x : BitVec 32) : (setPrng x s).sched = s.sched := rfl

/-! ### setDprev -/

@[simp] theorem setDprev_mem (side : Side) (d : BitVec 8) : (setDprev side d s).mem = s.mem := by cases side <;> rfl
@[simp] theorem setDprev_widx (side : Side) (d : BitVec 8) : (setDprev side d s).widx = s.widx :=
  by cases side <;> rfl
@[simp] theorem setDprev_ridx (side : Side) (d : BitVec 8) : (setDprev side d s).ridx = s.ridx :=
  by cases side <;> rfl
@[simp] theorem setDprev_frac (side : Side) (d : BitVec 8) : (setDprev side d s).frac = s.frac :=
  by cases side <;> rfl
@[simp] theorem setDprev_holdL (side : Side) (d : BitVec 8) : (setDprev side d s).holdL = s.holdL :=
  by cases side <;> rfl
@[simp] theorem setDprev_holdR (side : Side) (d : BitVec 8) : (setDprev side d s).holdR = s.holdR :=
  by cases side <;> rfl
@[simp] theorem setDprev_seq (side : Side) (d : BitVec 8) : (setDprev side d s).seq = s.seq := by cases side <;> rfl
@[simp] theorem setDprev_prng (side : Side) (d : BitVec 8) : (setDprev side d s).prng = s.prng :=
  by cases side <;> rfl
@[simp] theorem setDprev_rate (side : Side) (d : BitVec 8) : (setDprev side d s).rate = s.rate :=
  by cases side <;> rfl
@[simp] theorem setDprev_vol (side : Side) (d : BitVec 8) : (setDprev side d s).vol = s.vol := by cases side <;> rfl
@[simp] theorem setDprev_speed (side : Side) (d : BitVec 8) : (setDprev side d s).speed = s.speed :=
  by cases side <;> rfl
@[simp] theorem setDprev_outRate (side : Side) (d : BitVec 8) : (setDprev side d s).outRate = s.outRate :=
  by cases side <;> rfl
@[simp] theorem setDprev_logen (side : Side) (d : BitVec 8) : (setDprev side d s).logen = s.logen :=
  by cases side <;> rfl
@[simp] theorem setDprev_txn (side : Side) (d : BitVec 8) : (setDprev side d s).txn = s.txn := by cases side <;> rfl
@[simp] theorem setDprev_dirty (side : Side) (d : BitVec 8) : (setDprev side d s).dirty = s.dirty :=
  by cases side <;> rfl
@[simp] theorem setDprev_shRate (side : Side) (d : BitVec 8) : (setDprev side d s).shRate = s.shRate :=
  by cases side <;> rfl
@[simp] theorem setDprev_shVol (side : Side) (d : BitVec 8) : (setDprev side d s).shVol = s.shVol :=
  by cases side <;> rfl
@[simp] theorem setDprev_shSpeed (side : Side) (d : BitVec 8) : (setDprev side d s).shSpeed = s.shSpeed :=
  by cases side <;> rfl
@[simp] theorem setDprev_tuning (side : Side) (d : BitVec 8) : (setDprev side d s).tuning = s.tuning :=
  by cases side <;> rfl
@[simp] theorem setDprev_mixOut (side : Side) (d : BitVec 8) : (setDprev side d s).mixOut = s.mixOut :=
  by cases side <;> rfl
@[simp] theorem setDprev_cfgRsp (side : Side) (d : BitVec 8) : (setDprev side d s).cfgRsp = s.cfgRsp :=
  by cases side <;> rfl
@[simp] theorem setDprev_logOut (side : Side) (d : BitVec 8) : (setDprev side d s).logOut = s.logOut :=
  by cases side <;> rfl
@[simp] theorem setDprev_diagOut (side : Side) (d : BitVec 8) : (setDprev side d s).diagOut = s.diagOut :=
  by cases side <;> rfl
@[simp] theorem setDprev_pushIn (side : Side) (d : BitVec 8) : (setDprev side d s).pushIn = s.pushIn :=
  by cases side <;> rfl
@[simp] theorem setDprev_mixIn (side : Side) (d : BitVec 8) : (setDprev side d s).mixIn = s.mixIn :=
  by cases side <;> rfl
@[simp] theorem setDprev_cfgIn (side : Side) (d : BitVec 8) : (setDprev side d s).cfgIn = s.cfgIn :=
  by cases side <;> rfl
@[simp] theorem setDprev_sched (side : Side) (d : BitVec 8) : (setDprev side d s).sched = s.sched :=
  by cases side <;> rfl

/-! ### writeLive -/

@[simp] theorem writeLive_mem (x : CfgItem) : (writeLive x s).mem = s.mem := by cases x <;> rfl
@[simp] theorem writeLive_widx (x : CfgItem) : (writeLive x s).widx = s.widx := by cases x <;> rfl
@[simp] theorem writeLive_ridx (x : CfgItem) : (writeLive x s).ridx = s.ridx := by cases x <;> rfl
@[simp] theorem writeLive_frac (x : CfgItem) : (writeLive x s).frac = s.frac := by cases x <;> rfl
@[simp] theorem writeLive_holdL (x : CfgItem) : (writeLive x s).holdL = s.holdL := by cases x <;> rfl
@[simp] theorem writeLive_holdR (x : CfgItem) : (writeLive x s).holdR = s.holdR := by cases x <;> rfl
@[simp] theorem writeLive_seq (x : CfgItem) : (writeLive x s).seq = s.seq := by cases x <;> rfl
@[simp] theorem writeLive_dprevL (x : CfgItem) : (writeLive x s).dprevL = s.dprevL := by cases x <;> rfl
@[simp] theorem writeLive_dprevR (x : CfgItem) : (writeLive x s).dprevR = s.dprevR := by cases x <;> rfl
@[simp] theorem writeLive_prng (x : CfgItem) : (writeLive x s).prng = s.prng := by cases x <;> rfl
@[simp] theorem writeLive_outRate (x : CfgItem) : (writeLive x s).outRate = s.outRate := by cases x <;> rfl
@[simp] theorem writeLive_logen (x : CfgItem) : (writeLive x s).logen = s.logen := by cases x <;> rfl
@[simp] theorem writeLive_txn (x : CfgItem) : (writeLive x s).txn = s.txn := by cases x <;> rfl
@[simp] theorem writeLive_dirty (x : CfgItem) : (writeLive x s).dirty = s.dirty := by cases x <;> rfl
@[simp] theorem writeLive_shRate (x : CfgItem) : (writeLive x s).shRate = s.shRate := by cases x <;> rfl
@[simp] theorem writeLive_shVol (x : CfgItem) : (writeLive x s).shVol = s.shVol := by cases x <;> rfl
@[simp] theorem writeLive_shSpeed (x : CfgItem) : (writeLive x s).shSpeed = s.shSpeed := by cases x <;> rfl
@[simp] theorem writeLive_tuning (x : CfgItem) : (writeLive x s).tuning = s.tuning := by cases x <;> rfl
@[simp] theorem writeLive_mixOut (x : CfgItem) : (writeLive x s).mixOut = s.mixOut := by cases x <;> rfl
@[simp] theorem writeLive_cfgRsp (x : CfgItem) : (writeLive x s).cfgRsp = s.cfgRsp := by cases x <;> rfl
@[simp] theorem writeLive_logOut (x : CfgItem) : (writeLive x s).logOut = s.logOut := by cases x <;> rfl
@[simp] theorem writeLive_diagOut (x : CfgItem) : (writeLive x s).diagOut = s.diagOut := by cases x <;> rfl
@[simp] theorem writeLive_pushIn (x : CfgItem) : (writeLive x s).pushIn = s.pushIn := by cases x <;> rfl
@[simp] theorem writeLive_mixIn (x : CfgItem) : (writeLive x s).mixIn = s.mixIn := by cases x <;> rfl
@[simp] theorem writeLive_cfgIn (x : CfgItem) : (writeLive x s).cfgIn = s.cfgIn := by cases x <;> rfl
@[simp] theorem writeLive_sched (x : CfgItem) : (writeLive x s).sched = s.sched := by cases x <;> rfl

/-! ### writeShadow -/

@[simp] theorem writeShadow_mem (x : CfgItem) : (writeShadow x s).mem = s.mem := by cases x <;> rfl
@[simp] theorem writeShadow_widx (x : CfgItem) : (writeShadow x s).widx = s.widx := by cases x <;> rfl
@[simp] theorem writeShadow_ridx (x : CfgItem) : (writeShadow x s).ridx = s.ridx := by cases x <;> rfl
@[simp] theorem writeShadow_frac (x : CfgItem) : (writeShadow x s).frac = s.frac := by cases x <;> rfl
@[simp] theorem writeShadow_holdL (x : CfgItem) : (writeShadow x s).holdL = s.holdL := by cases x <;> rfl
@[simp] theorem writeShadow_holdR (x : CfgItem) : (writeShadow x s).holdR = s.holdR := by cases x <;> rfl
@[simp] theorem writeShadow_seq (x : CfgItem) : (writeShadow x s).seq = s.seq := by cases x <;> rfl
@[simp] theorem writeShadow_dprevL (x : CfgItem) : (writeShadow x s).dprevL = s.dprevL := by cases x <;> rfl
@[simp] theorem writeShadow_dprevR (x : CfgItem) : (writeShadow x s).dprevR = s.dprevR := by cases x <;> rfl
@[simp] theorem writeShadow_prng (x : CfgItem) : (writeShadow x s).prng = s.prng := by cases x <;> rfl
@[simp] theorem writeShadow_rate (x : CfgItem) : (writeShadow x s).rate = s.rate := by cases x <;> rfl
@[simp] theorem writeShadow_vol (x : CfgItem) : (writeShadow x s).vol = s.vol := by cases x <;> rfl
@[simp] theorem writeShadow_speed (x : CfgItem) : (writeShadow x s).speed = s.speed := by cases x <;> rfl
@[simp] theorem writeShadow_outRate (x : CfgItem) : (writeShadow x s).outRate = s.outRate := by cases x <;> rfl
@[simp] theorem writeShadow_logen (x : CfgItem) : (writeShadow x s).logen = s.logen := by cases x <;> rfl
@[simp] theorem writeShadow_txn (x : CfgItem) : (writeShadow x s).txn = s.txn := by cases x <;> rfl
@[simp] theorem writeShadow_dirty (x : CfgItem) : (writeShadow x s).dirty = s.dirty := by cases x <;> rfl
@[simp] theorem writeShadow_tuning (x : CfgItem) : (writeShadow x s).tuning = s.tuning := by cases x <;> rfl
@[simp] theorem writeShadow_mixOut (x : CfgItem) : (writeShadow x s).mixOut = s.mixOut := by cases x <;> rfl
@[simp] theorem writeShadow_cfgRsp (x : CfgItem) : (writeShadow x s).cfgRsp = s.cfgRsp := by cases x <;> rfl
@[simp] theorem writeShadow_logOut (x : CfgItem) : (writeShadow x s).logOut = s.logOut := by cases x <;> rfl
@[simp] theorem writeShadow_diagOut (x : CfgItem) : (writeShadow x s).diagOut = s.diagOut := by cases x <;> rfl
@[simp] theorem writeShadow_pushIn (x : CfgItem) : (writeShadow x s).pushIn = s.pushIn := by cases x <;> rfl
@[simp] theorem writeShadow_mixIn (x : CfgItem) : (writeShadow x s).mixIn = s.mixIn := by cases x <;> rfl
@[simp] theorem writeShadow_cfgIn (x : CfgItem) : (writeShadow x s).cfgIn = s.cfgIn := by cases x <;> rfl
@[simp] theorem writeShadow_sched (x : CfgItem) : (writeShadow x s).sched = s.sched := by cases x <;> rfl

/-! ### emitMix -/

@[simp] theorem emitMix_mem (kind : MixKind) (d : BitVec 32) : (emitMix kind d s).mem = s.mem := rfl
@[simp] theorem emitMix_widx (kind : MixKind) (d : BitVec 32) : (emitMix kind d s).widx = s.widx := rfl
@[simp] theorem emitMix_ridx (kind : MixKind) (d : BitVec 32) : (emitMix kind d s).ridx = s.ridx := rfl
@[simp] theorem emitMix_frac (kind : MixKind) (d : BitVec 32) : (emitMix kind d s).frac = s.frac := rfl
@[simp] theorem emitMix_holdL (kind : MixKind) (d : BitVec 32) : (emitMix kind d s).holdL = s.holdL := rfl
@[simp] theorem emitMix_holdR (kind : MixKind) (d : BitVec 32) : (emitMix kind d s).holdR = s.holdR := rfl
@[simp] theorem emitMix_seq (kind : MixKind) (d : BitVec 32) : (emitMix kind d s).seq = s.seq := rfl
@[simp] theorem emitMix_dprevL (kind : MixKind) (d : BitVec 32) : (emitMix kind d s).dprevL = s.dprevL := rfl
@[simp] theorem emitMix_dprevR (kind : MixKind) (d : BitVec 32) : (emitMix kind d s).dprevR = s.dprevR := rfl
@[simp] theorem emitMix_prng (kind : MixKind) (d : BitVec 32) : (emitMix kind d s).prng = s.prng := rfl
@[simp] theorem emitMix_rate (kind : MixKind) (d : BitVec 32) : (emitMix kind d s).rate = s.rate := rfl
@[simp] theorem emitMix_vol (kind : MixKind) (d : BitVec 32) : (emitMix kind d s).vol = s.vol := rfl
@[simp] theorem emitMix_speed (kind : MixKind) (d : BitVec 32) : (emitMix kind d s).speed = s.speed := rfl
@[simp] theorem emitMix_outRate (kind : MixKind) (d : BitVec 32) : (emitMix kind d s).outRate = s.outRate := rfl
@[simp] theorem emitMix_logen (kind : MixKind) (d : BitVec 32) : (emitMix kind d s).logen = s.logen := rfl
@[simp] theorem emitMix_txn (kind : MixKind) (d : BitVec 32) : (emitMix kind d s).txn = s.txn := rfl
@[simp] theorem emitMix_dirty (kind : MixKind) (d : BitVec 32) : (emitMix kind d s).dirty = s.dirty := rfl
@[simp] theorem emitMix_shRate (kind : MixKind) (d : BitVec 32) : (emitMix kind d s).shRate = s.shRate := rfl
@[simp] theorem emitMix_shVol (kind : MixKind) (d : BitVec 32) : (emitMix kind d s).shVol = s.shVol := rfl
@[simp] theorem emitMix_shSpeed (kind : MixKind) (d : BitVec 32) : (emitMix kind d s).shSpeed = s.shSpeed := rfl
@[simp] theorem emitMix_tuning (kind : MixKind) (d : BitVec 32) : (emitMix kind d s).tuning = s.tuning := rfl
@[simp] theorem emitMix_mixOut (kind : MixKind) (d : BitVec 32) : (emitMix kind d s).mixOut = s.mixOut ++ [mixBeat kind d] :=
  rfl
@[simp] theorem emitMix_cfgRsp (kind : MixKind) (d : BitVec 32) : (emitMix kind d s).cfgRsp = s.cfgRsp := rfl
@[simp] theorem emitMix_logOut (kind : MixKind) (d : BitVec 32) : (emitMix kind d s).logOut = s.logOut := rfl
@[simp] theorem emitMix_diagOut (kind : MixKind) (d : BitVec 32) : (emitMix kind d s).diagOut = s.diagOut := rfl
@[simp] theorem emitMix_pushIn (kind : MixKind) (d : BitVec 32) : (emitMix kind d s).pushIn = s.pushIn := rfl
@[simp] theorem emitMix_mixIn (kind : MixKind) (d : BitVec 32) : (emitMix kind d s).mixIn = s.mixIn := rfl
@[simp] theorem emitMix_cfgIn (kind : MixKind) (d : BitVec 32) : (emitMix kind d s).cfgIn = s.cfgIn := rfl
@[simp] theorem emitMix_sched (kind : MixKind) (d : BitVec 32) : (emitMix kind d s).sched = s.sched := rfl

/-! ### emitRsp -/

@[simp] theorem emitRsp_mem (d : BitVec 32) : (emitRsp d s).mem = s.mem := rfl
@[simp] theorem emitRsp_widx (d : BitVec 32) : (emitRsp d s).widx = s.widx := rfl
@[simp] theorem emitRsp_ridx (d : BitVec 32) : (emitRsp d s).ridx = s.ridx := rfl
@[simp] theorem emitRsp_frac (d : BitVec 32) : (emitRsp d s).frac = s.frac := rfl
@[simp] theorem emitRsp_holdL (d : BitVec 32) : (emitRsp d s).holdL = s.holdL := rfl
@[simp] theorem emitRsp_holdR (d : BitVec 32) : (emitRsp d s).holdR = s.holdR := rfl
@[simp] theorem emitRsp_seq (d : BitVec 32) : (emitRsp d s).seq = s.seq := rfl
@[simp] theorem emitRsp_dprevL (d : BitVec 32) : (emitRsp d s).dprevL = s.dprevL := rfl
@[simp] theorem emitRsp_dprevR (d : BitVec 32) : (emitRsp d s).dprevR = s.dprevR := rfl
@[simp] theorem emitRsp_prng (d : BitVec 32) : (emitRsp d s).prng = s.prng := rfl
@[simp] theorem emitRsp_rate (d : BitVec 32) : (emitRsp d s).rate = s.rate := rfl
@[simp] theorem emitRsp_vol (d : BitVec 32) : (emitRsp d s).vol = s.vol := rfl
@[simp] theorem emitRsp_speed (d : BitVec 32) : (emitRsp d s).speed = s.speed := rfl
@[simp] theorem emitRsp_outRate (d : BitVec 32) : (emitRsp d s).outRate = s.outRate := rfl
@[simp] theorem emitRsp_logen (d : BitVec 32) : (emitRsp d s).logen = s.logen := rfl
@[simp] theorem emitRsp_txn (d : BitVec 32) : (emitRsp d s).txn = s.txn := rfl
@[simp] theorem emitRsp_dirty (d : BitVec 32) : (emitRsp d s).dirty = s.dirty := rfl
@[simp] theorem emitRsp_shRate (d : BitVec 32) : (emitRsp d s).shRate = s.shRate := rfl
@[simp] theorem emitRsp_shVol (d : BitVec 32) : (emitRsp d s).shVol = s.shVol := rfl
@[simp] theorem emitRsp_shSpeed (d : BitVec 32) : (emitRsp d s).shSpeed = s.shSpeed := rfl
@[simp] theorem emitRsp_tuning (d : BitVec 32) : (emitRsp d s).tuning = s.tuning := rfl
@[simp] theorem emitRsp_mixOut (d : BitVec 32) : (emitRsp d s).mixOut = s.mixOut := rfl
@[simp] theorem emitRsp_cfgRsp (d : BitVec 32) : (emitRsp d s).cfgRsp = s.cfgRsp ++ [d] := rfl
@[simp] theorem emitRsp_logOut (d : BitVec 32) : (emitRsp d s).logOut = s.logOut := rfl
@[simp] theorem emitRsp_diagOut (d : BitVec 32) : (emitRsp d s).diagOut = s.diagOut := rfl
@[simp] theorem emitRsp_pushIn (d : BitVec 32) : (emitRsp d s).pushIn = s.pushIn := rfl
@[simp] theorem emitRsp_mixIn (d : BitVec 32) : (emitRsp d s).mixIn = s.mixIn := rfl
@[simp] theorem emitRsp_cfgIn (d : BitVec 32) : (emitRsp d s).cfgIn = s.cfgIn := rfl
@[simp] theorem emitRsp_sched (d : BitVec 32) : (emitRsp d s).sched = s.sched := rfl

/-! ### emitLog -/

@[simp] theorem emitLog_mem (c : Chan) (kind : LogKind) (d : BitVec 32) : (emitLog c kind d s).mem = s.mem := rfl
@[simp] theorem emitLog_widx (c : Chan) (kind : LogKind) (d : BitVec 32) : (emitLog c kind d s).widx = s.widx := rfl
@[simp] theorem emitLog_ridx (c : Chan) (kind : LogKind) (d : BitVec 32) : (emitLog c kind d s).ridx = s.ridx := rfl
@[simp] theorem emitLog_frac (c : Chan) (kind : LogKind) (d : BitVec 32) : (emitLog c kind d s).frac = s.frac := rfl
@[simp] theorem emitLog_holdL (c : Chan) (kind : LogKind) (d : BitVec 32) : (emitLog c kind d s).holdL = s.holdL :=
  rfl
@[simp] theorem emitLog_holdR (c : Chan) (kind : LogKind) (d : BitVec 32) : (emitLog c kind d s).holdR = s.holdR :=
  rfl
@[simp] theorem emitLog_seq (c : Chan) (kind : LogKind) (d : BitVec 32) : (emitLog c kind d s).seq = s.seq := rfl
@[simp] theorem emitLog_dprevL (c : Chan) (kind : LogKind) (d : BitVec 32) : (emitLog c kind d s).dprevL = s.dprevL :=
  rfl
@[simp] theorem emitLog_dprevR (c : Chan) (kind : LogKind) (d : BitVec 32) : (emitLog c kind d s).dprevR = s.dprevR :=
  rfl
@[simp] theorem emitLog_prng (c : Chan) (kind : LogKind) (d : BitVec 32) : (emitLog c kind d s).prng = s.prng := rfl
@[simp] theorem emitLog_rate (c : Chan) (kind : LogKind) (d : BitVec 32) : (emitLog c kind d s).rate = s.rate := rfl
@[simp] theorem emitLog_vol (c : Chan) (kind : LogKind) (d : BitVec 32) : (emitLog c kind d s).vol = s.vol := rfl
@[simp] theorem emitLog_speed (c : Chan) (kind : LogKind) (d : BitVec 32) : (emitLog c kind d s).speed = s.speed :=
  rfl
@[simp] theorem emitLog_outRate (c : Chan) (kind : LogKind) (d : BitVec 32) : (emitLog c kind d s).outRate = s.outRate :=
  rfl
@[simp] theorem emitLog_logen (c : Chan) (kind : LogKind) (d : BitVec 32) : (emitLog c kind d s).logen = s.logen :=
  rfl
@[simp] theorem emitLog_txn (c : Chan) (kind : LogKind) (d : BitVec 32) : (emitLog c kind d s).txn = s.txn := rfl
@[simp] theorem emitLog_dirty (c : Chan) (kind : LogKind) (d : BitVec 32) : (emitLog c kind d s).dirty = s.dirty :=
  rfl
@[simp] theorem emitLog_shRate (c : Chan) (kind : LogKind) (d : BitVec 32) : (emitLog c kind d s).shRate = s.shRate :=
  rfl
@[simp] theorem emitLog_shVol (c : Chan) (kind : LogKind) (d : BitVec 32) : (emitLog c kind d s).shVol = s.shVol :=
  rfl
@[simp] theorem emitLog_shSpeed (c : Chan) (kind : LogKind) (d : BitVec 32) : (emitLog c kind d s).shSpeed = s.shSpeed :=
  rfl
@[simp] theorem emitLog_tuning (c : Chan) (kind : LogKind) (d : BitVec 32) : (emitLog c kind d s).tuning = s.tuning :=
  rfl
@[simp] theorem emitLog_mixOut (c : Chan) (kind : LogKind) (d : BitVec 32) : (emitLog c kind d s).mixOut = s.mixOut :=
  rfl
@[simp] theorem emitLog_cfgRsp (c : Chan) (kind : LogKind) (d : BitVec 32) : (emitLog c kind d s).cfgRsp = s.cfgRsp :=
  rfl
@[simp] theorem emitLog_logOut (c : Chan) (kind : LogKind) (d : BitVec 32) : (emitLog c kind d s).logOut = s.logOut.set c (s.logOut.get c ++ [logBeat kind d]) :=
  rfl
@[simp] theorem emitLog_diagOut (c : Chan) (kind : LogKind) (d : BitVec 32) : (emitLog c kind d s).diagOut = s.diagOut :=
  rfl
@[simp] theorem emitLog_pushIn (c : Chan) (kind : LogKind) (d : BitVec 32) : (emitLog c kind d s).pushIn = s.pushIn :=
  rfl
@[simp] theorem emitLog_mixIn (c : Chan) (kind : LogKind) (d : BitVec 32) : (emitLog c kind d s).mixIn = s.mixIn :=
  rfl
@[simp] theorem emitLog_cfgIn (c : Chan) (kind : LogKind) (d : BitVec 32) : (emitLog c kind d s).cfgIn = s.cfgIn :=
  rfl
@[simp] theorem emitLog_sched (c : Chan) (kind : LogKind) (d : BitVec 32) : (emitLog c kind d s).sched = s.sched :=
  rfl

/-! ### raiseDiag -/

@[simp] theorem raiseDiag_mem (code : DiagCode) (arg : BitVec 4) : (raiseDiag code arg s).mem = s.mem := rfl
@[simp] theorem raiseDiag_widx (code : DiagCode) (arg : BitVec 4) : (raiseDiag code arg s).widx = s.widx := rfl
@[simp] theorem raiseDiag_ridx (code : DiagCode) (arg : BitVec 4) : (raiseDiag code arg s).ridx = s.ridx := rfl
@[simp] theorem raiseDiag_frac (code : DiagCode) (arg : BitVec 4) : (raiseDiag code arg s).frac = s.frac := rfl
@[simp] theorem raiseDiag_holdL (code : DiagCode) (arg : BitVec 4) : (raiseDiag code arg s).holdL = s.holdL := rfl
@[simp] theorem raiseDiag_holdR (code : DiagCode) (arg : BitVec 4) : (raiseDiag code arg s).holdR = s.holdR := rfl
@[simp] theorem raiseDiag_seq (code : DiagCode) (arg : BitVec 4) : (raiseDiag code arg s).seq = s.seq := rfl
@[simp] theorem raiseDiag_dprevL (code : DiagCode) (arg : BitVec 4) : (raiseDiag code arg s).dprevL = s.dprevL := rfl
@[simp] theorem raiseDiag_dprevR (code : DiagCode) (arg : BitVec 4) : (raiseDiag code arg s).dprevR = s.dprevR := rfl
@[simp] theorem raiseDiag_prng (code : DiagCode) (arg : BitVec 4) : (raiseDiag code arg s).prng = s.prng := rfl
@[simp] theorem raiseDiag_rate (code : DiagCode) (arg : BitVec 4) : (raiseDiag code arg s).rate = s.rate := rfl
@[simp] theorem raiseDiag_vol (code : DiagCode) (arg : BitVec 4) : (raiseDiag code arg s).vol = s.vol := rfl
@[simp] theorem raiseDiag_speed (code : DiagCode) (arg : BitVec 4) : (raiseDiag code arg s).speed = s.speed := rfl
@[simp] theorem raiseDiag_outRate (code : DiagCode) (arg : BitVec 4) : (raiseDiag code arg s).outRate = s.outRate :=
  rfl
@[simp] theorem raiseDiag_logen (code : DiagCode) (arg : BitVec 4) : (raiseDiag code arg s).logen = s.logen := rfl
@[simp] theorem raiseDiag_txn (code : DiagCode) (arg : BitVec 4) : (raiseDiag code arg s).txn = s.txn := rfl
@[simp] theorem raiseDiag_dirty (code : DiagCode) (arg : BitVec 4) : (raiseDiag code arg s).dirty = s.dirty := rfl
@[simp] theorem raiseDiag_shRate (code : DiagCode) (arg : BitVec 4) : (raiseDiag code arg s).shRate = s.shRate := rfl
@[simp] theorem raiseDiag_shVol (code : DiagCode) (arg : BitVec 4) : (raiseDiag code arg s).shVol = s.shVol := rfl
@[simp] theorem raiseDiag_shSpeed (code : DiagCode) (arg : BitVec 4) : (raiseDiag code arg s).shSpeed = s.shSpeed :=
  rfl
@[simp] theorem raiseDiag_tuning (code : DiagCode) (arg : BitVec 4) : (raiseDiag code arg s).tuning = s.tuning := rfl
@[simp] theorem raiseDiag_mixOut (code : DiagCode) (arg : BitVec 4) : (raiseDiag code arg s).mixOut = s.mixOut := rfl
@[simp] theorem raiseDiag_cfgRsp (code : DiagCode) (arg : BitVec 4) : (raiseDiag code arg s).cfgRsp = s.cfgRsp := rfl
@[simp] theorem raiseDiag_logOut (code : DiagCode) (arg : BitVec 4) : (raiseDiag code arg s).logOut = s.logOut := rfl
@[simp] theorem raiseDiag_diagOut (code : DiagCode) (arg : BitVec 4) : (raiseDiag code arg s).diagOut = s.diagOut ++ [diagBeat code arg] :=
  rfl
@[simp] theorem raiseDiag_pushIn (code : DiagCode) (arg : BitVec 4) : (raiseDiag code arg s).pushIn = s.pushIn := rfl
@[simp] theorem raiseDiag_mixIn (code : DiagCode) (arg : BitVec 4) : (raiseDiag code arg s).mixIn = s.mixIn := rfl
@[simp] theorem raiseDiag_cfgIn (code : DiagCode) (arg : BitVec 4) : (raiseDiag code arg s).cfgIn = s.cfgIn := rfl
@[simp] theorem raiseDiag_sched (code : DiagCode) (arg : BitVec 4) : (raiseDiag code arg s).sched = s.sched := rfl

/-! ### setLogen -/

@[simp] theorem setLogen_mem (c : Chan) (b : Bool) : (setLogen c b s).mem = s.mem := rfl
@[simp] theorem setLogen_widx (c : Chan) (b : Bool) : (setLogen c b s).widx = s.widx := rfl
@[simp] theorem setLogen_ridx (c : Chan) (b : Bool) : (setLogen c b s).ridx = s.ridx := rfl
@[simp] theorem setLogen_frac (c : Chan) (b : Bool) : (setLogen c b s).frac = s.frac := rfl
@[simp] theorem setLogen_holdL (c : Chan) (b : Bool) : (setLogen c b s).holdL = s.holdL := rfl
@[simp] theorem setLogen_holdR (c : Chan) (b : Bool) : (setLogen c b s).holdR = s.holdR := rfl
@[simp] theorem setLogen_seq (c : Chan) (b : Bool) : (setLogen c b s).seq = s.seq := rfl
@[simp] theorem setLogen_dprevL (c : Chan) (b : Bool) : (setLogen c b s).dprevL = s.dprevL := rfl
@[simp] theorem setLogen_dprevR (c : Chan) (b : Bool) : (setLogen c b s).dprevR = s.dprevR := rfl
@[simp] theorem setLogen_prng (c : Chan) (b : Bool) : (setLogen c b s).prng = s.prng := rfl
@[simp] theorem setLogen_rate (c : Chan) (b : Bool) : (setLogen c b s).rate = s.rate := rfl
@[simp] theorem setLogen_vol (c : Chan) (b : Bool) : (setLogen c b s).vol = s.vol := rfl
@[simp] theorem setLogen_speed (c : Chan) (b : Bool) : (setLogen c b s).speed = s.speed := rfl
@[simp] theorem setLogen_outRate (c : Chan) (b : Bool) : (setLogen c b s).outRate = s.outRate := rfl
@[simp] theorem setLogen_logen (c : Chan) (b : Bool) : (setLogen c b s).logen = s.logen.set c b := rfl
@[simp] theorem setLogen_txn (c : Chan) (b : Bool) : (setLogen c b s).txn = s.txn := rfl
@[simp] theorem setLogen_dirty (c : Chan) (b : Bool) : (setLogen c b s).dirty = s.dirty := rfl
@[simp] theorem setLogen_shRate (c : Chan) (b : Bool) : (setLogen c b s).shRate = s.shRate := rfl
@[simp] theorem setLogen_shVol (c : Chan) (b : Bool) : (setLogen c b s).shVol = s.shVol := rfl
@[simp] theorem setLogen_shSpeed (c : Chan) (b : Bool) : (setLogen c b s).shSpeed = s.shSpeed := rfl
@[simp] theorem setLogen_tuning (c : Chan) (b : Bool) : (setLogen c b s).tuning = s.tuning := rfl
@[simp] theorem setLogen_mixOut (c : Chan) (b : Bool) : (setLogen c b s).mixOut = s.mixOut := rfl
@[simp] theorem setLogen_cfgRsp (c : Chan) (b : Bool) : (setLogen c b s).cfgRsp = s.cfgRsp := rfl
@[simp] theorem setLogen_logOut (c : Chan) (b : Bool) : (setLogen c b s).logOut = s.logOut := rfl
@[simp] theorem setLogen_diagOut (c : Chan) (b : Bool) : (setLogen c b s).diagOut = s.diagOut := rfl
@[simp] theorem setLogen_pushIn (c : Chan) (b : Bool) : (setLogen c b s).pushIn = s.pushIn := rfl
@[simp] theorem setLogen_mixIn (c : Chan) (b : Bool) : (setLogen c b s).mixIn = s.mixIn := rfl
@[simp] theorem setLogen_cfgIn (c : Chan) (b : Bool) : (setLogen c b s).cfgIn = s.cfgIn := rfl
@[simp] theorem setLogen_sched (c : Chan) (b : Bool) : (setLogen c b s).sched = s.sched := rfl

/-! ### setTxn -/

@[simp] theorem setTxn_mem (b : Bool) : (setTxn b s).mem = s.mem := rfl
@[simp] theorem setTxn_widx (b : Bool) : (setTxn b s).widx = s.widx := rfl
@[simp] theorem setTxn_ridx (b : Bool) : (setTxn b s).ridx = s.ridx := rfl
@[simp] theorem setTxn_frac (b : Bool) : (setTxn b s).frac = s.frac := rfl
@[simp] theorem setTxn_holdL (b : Bool) : (setTxn b s).holdL = s.holdL := rfl
@[simp] theorem setTxn_holdR (b : Bool) : (setTxn b s).holdR = s.holdR := rfl
@[simp] theorem setTxn_seq (b : Bool) : (setTxn b s).seq = s.seq := rfl
@[simp] theorem setTxn_dprevL (b : Bool) : (setTxn b s).dprevL = s.dprevL := rfl
@[simp] theorem setTxn_dprevR (b : Bool) : (setTxn b s).dprevR = s.dprevR := rfl
@[simp] theorem setTxn_prng (b : Bool) : (setTxn b s).prng = s.prng := rfl
@[simp] theorem setTxn_rate (b : Bool) : (setTxn b s).rate = s.rate := rfl
@[simp] theorem setTxn_vol (b : Bool) : (setTxn b s).vol = s.vol := rfl
@[simp] theorem setTxn_speed (b : Bool) : (setTxn b s).speed = s.speed := rfl
@[simp] theorem setTxn_outRate (b : Bool) : (setTxn b s).outRate = s.outRate := rfl
@[simp] theorem setTxn_logen (b : Bool) : (setTxn b s).logen = s.logen := rfl
@[simp] theorem setTxn_txn (b : Bool) : (setTxn b s).txn = b := rfl
@[simp] theorem setTxn_dirty (b : Bool) : (setTxn b s).dirty = 0#7 := rfl
@[simp] theorem setTxn_shRate (b : Bool) : (setTxn b s).shRate = s.shRate := rfl
@[simp] theorem setTxn_shVol (b : Bool) : (setTxn b s).shVol = s.shVol := rfl
@[simp] theorem setTxn_shSpeed (b : Bool) : (setTxn b s).shSpeed = s.shSpeed := rfl
@[simp] theorem setTxn_tuning (b : Bool) : (setTxn b s).tuning = s.tuning := rfl
@[simp] theorem setTxn_mixOut (b : Bool) : (setTxn b s).mixOut = s.mixOut := rfl
@[simp] theorem setTxn_cfgRsp (b : Bool) : (setTxn b s).cfgRsp = s.cfgRsp := rfl
@[simp] theorem setTxn_logOut (b : Bool) : (setTxn b s).logOut = s.logOut := rfl
@[simp] theorem setTxn_diagOut (b : Bool) : (setTxn b s).diagOut = s.diagOut := rfl
@[simp] theorem setTxn_pushIn (b : Bool) : (setTxn b s).pushIn = s.pushIn := rfl
@[simp] theorem setTxn_mixIn (b : Bool) : (setTxn b s).mixIn = s.mixIn := rfl
@[simp] theorem setTxn_cfgIn (b : Bool) : (setTxn b s).cfgIn = s.cfgIn := rfl
@[simp] theorem setTxn_sched (b : Bool) : (setTxn b s).sched = s.sched := rfl

/-! ### setDirty -/

@[simp] theorem setDirty_mem (cr : Nat) : (setDirty cr s).mem = s.mem := rfl
@[simp] theorem setDirty_widx (cr : Nat) : (setDirty cr s).widx = s.widx := rfl
@[simp] theorem setDirty_ridx (cr : Nat) : (setDirty cr s).ridx = s.ridx := rfl
@[simp] theorem setDirty_frac (cr : Nat) : (setDirty cr s).frac = s.frac := rfl
@[simp] theorem setDirty_holdL (cr : Nat) : (setDirty cr s).holdL = s.holdL := rfl
@[simp] theorem setDirty_holdR (cr : Nat) : (setDirty cr s).holdR = s.holdR := rfl
@[simp] theorem setDirty_seq (cr : Nat) : (setDirty cr s).seq = s.seq := rfl
@[simp] theorem setDirty_dprevL (cr : Nat) : (setDirty cr s).dprevL = s.dprevL := rfl
@[simp] theorem setDirty_dprevR (cr : Nat) : (setDirty cr s).dprevR = s.dprevR := rfl
@[simp] theorem setDirty_prng (cr : Nat) : (setDirty cr s).prng = s.prng := rfl
@[simp] theorem setDirty_rate (cr : Nat) : (setDirty cr s).rate = s.rate := rfl
@[simp] theorem setDirty_vol (cr : Nat) : (setDirty cr s).vol = s.vol := rfl
@[simp] theorem setDirty_speed (cr : Nat) : (setDirty cr s).speed = s.speed := rfl
@[simp] theorem setDirty_outRate (cr : Nat) : (setDirty cr s).outRate = s.outRate := rfl
@[simp] theorem setDirty_logen (cr : Nat) : (setDirty cr s).logen = s.logen := rfl
@[simp] theorem setDirty_txn (cr : Nat) : (setDirty cr s).txn = s.txn := rfl
@[simp] theorem setDirty_dirty (cr : Nat) : (setDirty cr s).dirty = s.dirty ||| (1#7 <<< cr) := rfl
@[simp] theorem setDirty_shRate (cr : Nat) : (setDirty cr s).shRate = s.shRate := rfl
@[simp] theorem setDirty_shVol (cr : Nat) : (setDirty cr s).shVol = s.shVol := rfl
@[simp] theorem setDirty_shSpeed (cr : Nat) : (setDirty cr s).shSpeed = s.shSpeed := rfl
@[simp] theorem setDirty_tuning (cr : Nat) : (setDirty cr s).tuning = s.tuning := rfl
@[simp] theorem setDirty_mixOut (cr : Nat) : (setDirty cr s).mixOut = s.mixOut := rfl
@[simp] theorem setDirty_cfgRsp (cr : Nat) : (setDirty cr s).cfgRsp = s.cfgRsp := rfl
@[simp] theorem setDirty_logOut (cr : Nat) : (setDirty cr s).logOut = s.logOut := rfl
@[simp] theorem setDirty_diagOut (cr : Nat) : (setDirty cr s).diagOut = s.diagOut := rfl
@[simp] theorem setDirty_pushIn (cr : Nat) : (setDirty cr s).pushIn = s.pushIn := rfl
@[simp] theorem setDirty_mixIn (cr : Nat) : (setDirty cr s).mixIn = s.mixIn := rfl
@[simp] theorem setDirty_cfgIn (cr : Nat) : (setDirty cr s).cfgIn = s.cfgIn := rfl
@[simp] theorem setDirty_sched (cr : Nat) : (setDirty cr s).sched = s.sched := rfl

/-! ### copyShadows -/

@[simp] theorem copyShadows_mem : (copyShadows s).mem = s.mem := rfl
@[simp] theorem copyShadows_widx : (copyShadows s).widx = s.widx := rfl
@[simp] theorem copyShadows_ridx : (copyShadows s).ridx = s.ridx := rfl
@[simp] theorem copyShadows_frac : (copyShadows s).frac = s.frac := rfl
@[simp] theorem copyShadows_holdL : (copyShadows s).holdL = s.holdL := rfl
@[simp] theorem copyShadows_holdR : (copyShadows s).holdR = s.holdR := rfl
@[simp] theorem copyShadows_seq : (copyShadows s).seq = s.seq := rfl
@[simp] theorem copyShadows_dprevL : (copyShadows s).dprevL = s.dprevL := rfl
@[simp] theorem copyShadows_dprevR : (copyShadows s).dprevR = s.dprevR := rfl
@[simp] theorem copyShadows_prng : (copyShadows s).prng = s.prng := rfl
@[simp] theorem copyShadows_outRate : (copyShadows s).outRate = s.outRate := rfl
@[simp] theorem copyShadows_logen : (copyShadows s).logen = s.logen := rfl
@[simp] theorem copyShadows_txn : (copyShadows s).txn = s.txn := rfl
@[simp] theorem copyShadows_dirty : (copyShadows s).dirty = s.dirty := rfl
@[simp] theorem copyShadows_shRate : (copyShadows s).shRate = s.shRate := rfl
@[simp] theorem copyShadows_shVol : (copyShadows s).shVol = s.shVol := rfl
@[simp] theorem copyShadows_shSpeed : (copyShadows s).shSpeed = s.shSpeed := rfl
@[simp] theorem copyShadows_tuning : (copyShadows s).tuning = s.tuning := rfl
@[simp] theorem copyShadows_mixOut : (copyShadows s).mixOut = s.mixOut := rfl
@[simp] theorem copyShadows_cfgRsp : (copyShadows s).cfgRsp = s.cfgRsp := rfl
@[simp] theorem copyShadows_logOut : (copyShadows s).logOut = s.logOut := rfl
@[simp] theorem copyShadows_diagOut : (copyShadows s).diagOut = s.diagOut := rfl
@[simp] theorem copyShadows_pushIn : (copyShadows s).pushIn = s.pushIn := rfl
@[simp] theorem copyShadows_mixIn : (copyShadows s).mixIn = s.mixIn := rfl
@[simp] theorem copyShadows_cfgIn : (copyShadows s).cfgIn = s.cfgIn := rfl
@[simp] theorem copyShadows_sched : (copyShadows s).sched = s.sched := rfl

/-! ### setPending -/

@[simp] theorem setPending_mem (p : Port) (beats : List Beat) : (setPending p beats s).mem = s.mem :=
  by cases p <;> rfl
@[simp] theorem setPending_widx (p : Port) (beats : List Beat) : (setPending p beats s).widx = s.widx :=
  by cases p <;> rfl
@[simp] theorem setPending_ridx (p : Port) (beats : List Beat) : (setPending p beats s).ridx = s.ridx :=
  by cases p <;> rfl
@[simp] theorem setPending_frac (p : Port) (beats : List Beat) : (setPending p beats s).frac = s.frac :=
  by cases p <;> rfl
@[simp] theorem setPending_holdL (p : Port) (beats : List Beat) : (setPending p beats s).holdL = s.holdL :=
  by cases p <;> rfl
@[simp] theorem setPending_holdR (p : Port) (beats : List Beat) : (setPending p beats s).holdR = s.holdR :=
  by cases p <;> rfl
@[simp] theorem setPending_seq (p : Port) (beats : List Beat) : (setPending p beats s).seq = s.seq :=
  by cases p <;> rfl
@[simp] theorem setPending_dprevL (p : Port) (beats : List Beat) : (setPending p beats s).dprevL = s.dprevL :=
  by cases p <;> rfl
@[simp] theorem setPending_dprevR (p : Port) (beats : List Beat) : (setPending p beats s).dprevR = s.dprevR :=
  by cases p <;> rfl
@[simp] theorem setPending_prng (p : Port) (beats : List Beat) : (setPending p beats s).prng = s.prng :=
  by cases p <;> rfl
@[simp] theorem setPending_rate (p : Port) (beats : List Beat) : (setPending p beats s).rate = s.rate :=
  by cases p <;> rfl
@[simp] theorem setPending_vol (p : Port) (beats : List Beat) : (setPending p beats s).vol = s.vol :=
  by cases p <;> rfl
@[simp] theorem setPending_speed (p : Port) (beats : List Beat) : (setPending p beats s).speed = s.speed :=
  by cases p <;> rfl
@[simp] theorem setPending_outRate (p : Port) (beats : List Beat) : (setPending p beats s).outRate = s.outRate :=
  by cases p <;> rfl
@[simp] theorem setPending_logen (p : Port) (beats : List Beat) : (setPending p beats s).logen = s.logen :=
  by cases p <;> rfl
@[simp] theorem setPending_txn (p : Port) (beats : List Beat) : (setPending p beats s).txn = s.txn :=
  by cases p <;> rfl
@[simp] theorem setPending_dirty (p : Port) (beats : List Beat) : (setPending p beats s).dirty = s.dirty :=
  by cases p <;> rfl
@[simp] theorem setPending_shRate (p : Port) (beats : List Beat) : (setPending p beats s).shRate = s.shRate :=
  by cases p <;> rfl
@[simp] theorem setPending_shVol (p : Port) (beats : List Beat) : (setPending p beats s).shVol = s.shVol :=
  by cases p <;> rfl
@[simp] theorem setPending_shSpeed (p : Port) (beats : List Beat) : (setPending p beats s).shSpeed = s.shSpeed :=
  by cases p <;> rfl
@[simp] theorem setPending_tuning (p : Port) (beats : List Beat) : (setPending p beats s).tuning = s.tuning :=
  by cases p <;> rfl
@[simp] theorem setPending_mixOut (p : Port) (beats : List Beat) : (setPending p beats s).mixOut = s.mixOut :=
  by cases p <;> rfl
@[simp] theorem setPending_cfgRsp (p : Port) (beats : List Beat) : (setPending p beats s).cfgRsp = s.cfgRsp :=
  by cases p <;> rfl
@[simp] theorem setPending_logOut (p : Port) (beats : List Beat) : (setPending p beats s).logOut = s.logOut :=
  by cases p <;> rfl
@[simp] theorem setPending_diagOut (p : Port) (beats : List Beat) : (setPending p beats s).diagOut = s.diagOut :=
  by cases p <;> rfl
@[simp] theorem setPending_sched (p : Port) (beats : List Beat) : (setPending p beats s).sched = s.sched :=
  by cases p <;> rfl

/-! ### takeTurn -/

@[simp] theorem takeTurn_mem : (takeTurn s).mem = s.mem := rfl
@[simp] theorem takeTurn_widx : (takeTurn s).widx = s.widx := rfl
@[simp] theorem takeTurn_ridx : (takeTurn s).ridx = s.ridx := rfl
@[simp] theorem takeTurn_frac : (takeTurn s).frac = s.frac := rfl
@[simp] theorem takeTurn_holdL : (takeTurn s).holdL = s.holdL := rfl
@[simp] theorem takeTurn_holdR : (takeTurn s).holdR = s.holdR := rfl
@[simp] theorem takeTurn_seq : (takeTurn s).seq = s.seq := rfl
@[simp] theorem takeTurn_dprevL : (takeTurn s).dprevL = s.dprevL := rfl
@[simp] theorem takeTurn_dprevR : (takeTurn s).dprevR = s.dprevR := rfl
@[simp] theorem takeTurn_prng : (takeTurn s).prng = s.prng := rfl
@[simp] theorem takeTurn_rate : (takeTurn s).rate = s.rate := rfl
@[simp] theorem takeTurn_vol : (takeTurn s).vol = s.vol := rfl
@[simp] theorem takeTurn_speed : (takeTurn s).speed = s.speed := rfl
@[simp] theorem takeTurn_outRate : (takeTurn s).outRate = s.outRate := rfl
@[simp] theorem takeTurn_logen : (takeTurn s).logen = s.logen := rfl
@[simp] theorem takeTurn_txn : (takeTurn s).txn = s.txn := rfl
@[simp] theorem takeTurn_dirty : (takeTurn s).dirty = s.dirty := rfl
@[simp] theorem takeTurn_shRate : (takeTurn s).shRate = s.shRate := rfl
@[simp] theorem takeTurn_shVol : (takeTurn s).shVol = s.shVol := rfl
@[simp] theorem takeTurn_shSpeed : (takeTurn s).shSpeed = s.shSpeed := rfl
@[simp] theorem takeTurn_tuning : (takeTurn s).tuning = s.tuning := rfl
@[simp] theorem takeTurn_mixOut : (takeTurn s).mixOut = s.mixOut := rfl
@[simp] theorem takeTurn_cfgRsp : (takeTurn s).cfgRsp = s.cfgRsp := rfl
@[simp] theorem takeTurn_logOut : (takeTurn s).logOut = s.logOut := rfl
@[simp] theorem takeTurn_diagOut : (takeTurn s).diagOut = s.diagOut := rfl
@[simp] theorem takeTurn_pushIn : (takeTurn s).pushIn = s.pushIn := rfl
@[simp] theorem takeTurn_mixIn : (takeTurn s).mixIn = s.mixIn := rfl
@[simp] theorem takeTurn_cfgIn : (takeTurn s).cfgIn = s.cfgIn := rfl
@[simp] theorem takeTurn_sched : (takeTurn s).sched = s.sched.tail := rfl

end Sys2Proof.Machine
end

