-- ==== Sys2Proof/Laws/Frames.lean ====
section
/-! SUPPORT. The frames of the shared operations that are built from the named updates: the fields each leaves as they
are. -/

namespace Sys2Proof.Machine

variable (s : State)

/-! ### resync -/

@[simp] theorem resync_mem (c : Chan) : (resync c s).mem = s.mem := by unfold resync; split <;> rfl
@[simp] theorem resync_widx (c : Chan) : (resync c s).widx = s.widx := by unfold resync; split <;> rfl
@[simp] theorem resync_frac (c : Chan) : (resync c s).frac = s.frac := by unfold resync; split <;> rfl
@[simp] theorem resync_holdL (c : Chan) : (resync c s).holdL = s.holdL := by unfold resync; split <;> rfl
@[simp] theorem resync_holdR (c : Chan) : (resync c s).holdR = s.holdR := by unfold resync; split <;> rfl
@[simp] theorem resync_seq (c : Chan) : (resync c s).seq = s.seq := by unfold resync; split <;> rfl
@[simp] theorem resync_dprevL (c : Chan) : (resync c s).dprevL = s.dprevL := by unfold resync; split <;> rfl
@[simp] theorem resync_dprevR (c : Chan) : (resync c s).dprevR = s.dprevR := by unfold resync; split <;> rfl
@[simp] theorem resync_prng (c : Chan) : (resync c s).prng = s.prng := by unfold resync; split <;> rfl
@[simp] theorem resync_rate (c : Chan) : (resync c s).rate = s.rate := by unfold resync; split <;> rfl
@[simp] theorem resync_vol (c : Chan) : (resync c s).vol = s.vol := by unfold resync; split <;> rfl
@[simp] theorem resync_speed (c : Chan) : (resync c s).speed = s.speed := by unfold resync; split <;> rfl
@[simp] theorem resync_outRate (c : Chan) : (resync c s).outRate = s.outRate := by unfold resync; split <;> rfl
@[simp] theorem resync_logen (c : Chan) : (resync c s).logen = s.logen := by unfold resync; split <;> rfl
@[simp] theorem resync_txn (c : Chan) : (resync c s).txn = s.txn := by unfold resync; split <;> rfl
@[simp] theorem resync_dirty (c : Chan) : (resync c s).dirty = s.dirty := by unfold resync; split <;> rfl
@[simp] theorem resync_shRate (c : Chan) : (resync c s).shRate = s.shRate := by unfold resync; split <;> rfl
@[simp] theorem resync_shVol (c : Chan) : (resync c s).shVol = s.shVol := by unfold resync; split <;> rfl
@[simp] theorem resync_shSpeed (c : Chan) : (resync c s).shSpeed = s.shSpeed := by unfold resync; split <;> rfl
@[simp] theorem resync_tuning (c : Chan) : (resync c s).tuning = s.tuning := by unfold resync; split <;> rfl
@[simp] theorem resync_mixOut (c : Chan) : (resync c s).mixOut = s.mixOut := by unfold resync; split <;> rfl
@[simp] theorem resync_cfgRsp (c : Chan) : (resync c s).cfgRsp = s.cfgRsp := by unfold resync; split <;> rfl
@[simp] theorem resync_logOut (c : Chan) : (resync c s).logOut = s.logOut := by unfold resync; split <;> rfl
@[simp] theorem resync_diagOut (c : Chan) : (resync c s).diagOut = s.diagOut := by unfold resync; split <;> rfl
@[simp] theorem resync_pushIn (c : Chan) : (resync c s).pushIn = s.pushIn := by unfold resync; split <;> rfl
@[simp] theorem resync_mixIn (c : Chan) : (resync c s).mixIn = s.mixIn := by unfold resync; split <;> rfl
@[simp] theorem resync_cfgIn (c : Chan) : (resync c s).cfgIn = s.cfgIn := by unfold resync; split <;> rfl
@[simp] theorem resync_sched (c : Chan) : (resync c s).sched = s.sched := by unfold resync; split <;> rfl

/-! ### raiseFlow -/

@[simp] theorem raiseFlow_mem (code : DiagCode) (c : Chan) : (raiseFlow code c s).mem = s.mem :=
  by unfold raiseFlow; split <;> rfl
@[simp] theorem raiseFlow_widx (code : DiagCode) (c : Chan) : (raiseFlow code c s).widx = s.widx :=
  by unfold raiseFlow; split <;> rfl
@[simp] theorem raiseFlow_ridx (code : DiagCode) (c : Chan) : (raiseFlow code c s).ridx = s.ridx :=
  by unfold raiseFlow; split <;> rfl
@[simp] theorem raiseFlow_frac (code : DiagCode) (c : Chan) : (raiseFlow code c s).frac = s.frac :=
  by unfold raiseFlow; split <;> rfl
@[simp] theorem raiseFlow_holdL (code : DiagCode) (c : Chan) : (raiseFlow code c s).holdL = s.holdL :=
  by unfold raiseFlow; split <;> rfl
@[simp] theorem raiseFlow_holdR (code : DiagCode) (c : Chan) : (raiseFlow code c s).holdR = s.holdR :=
  by unfold raiseFlow; split <;> rfl
@[simp] theorem raiseFlow_seq (code : DiagCode) (c : Chan) : (raiseFlow code c s).seq = s.seq :=
  by unfold raiseFlow; split <;> rfl
@[simp] theorem raiseFlow_dprevL (code : DiagCode) (c : Chan) : (raiseFlow code c s).dprevL = s.dprevL :=
  by unfold raiseFlow; split <;> rfl
@[simp] theorem raiseFlow_dprevR (code : DiagCode) (c : Chan) : (raiseFlow code c s).dprevR = s.dprevR :=
  by unfold raiseFlow; split <;> rfl
@[simp] theorem raiseFlow_prng (code : DiagCode) (c : Chan) : (raiseFlow code c s).prng = s.prng :=
  by unfold raiseFlow; split <;> rfl
@[simp] theorem raiseFlow_rate (code : DiagCode) (c : Chan) : (raiseFlow code c s).rate = s.rate :=
  by unfold raiseFlow; split <;> rfl
@[simp] theorem raiseFlow_vol (code : DiagCode) (c : Chan) : (raiseFlow code c s).vol = s.vol :=
  by unfold raiseFlow; split <;> rfl
@[simp] theorem raiseFlow_speed (code : DiagCode) (c : Chan) : (raiseFlow code c s).speed = s.speed :=
  by unfold raiseFlow; split <;> rfl
@[simp] theorem raiseFlow_outRate (code : DiagCode) (c : Chan) : (raiseFlow code c s).outRate = s.outRate :=
  by unfold raiseFlow; split <;> rfl
@[simp] theorem raiseFlow_logen (code : DiagCode) (c : Chan) : (raiseFlow code c s).logen = s.logen :=
  by unfold raiseFlow; split <;> rfl
@[simp] theorem raiseFlow_txn (code : DiagCode) (c : Chan) : (raiseFlow code c s).txn = s.txn :=
  by unfold raiseFlow; split <;> rfl
@[simp] theorem raiseFlow_dirty (code : DiagCode) (c : Chan) : (raiseFlow code c s).dirty = s.dirty :=
  by unfold raiseFlow; split <;> rfl
@[simp] theorem raiseFlow_shRate (code : DiagCode) (c : Chan) : (raiseFlow code c s).shRate = s.shRate :=
  by unfold raiseFlow; split <;> rfl
@[simp] theorem raiseFlow_shVol (code : DiagCode) (c : Chan) : (raiseFlow code c s).shVol = s.shVol :=
  by unfold raiseFlow; split <;> rfl
@[simp] theorem raiseFlow_shSpeed (code : DiagCode) (c : Chan) : (raiseFlow code c s).shSpeed = s.shSpeed :=
  by unfold raiseFlow; split <;> rfl
@[simp] theorem raiseFlow_tuning (code : DiagCode) (c : Chan) : (raiseFlow code c s).tuning = s.tuning :=
  by unfold raiseFlow; split <;> rfl
@[simp] theorem raiseFlow_mixOut (code : DiagCode) (c : Chan) : (raiseFlow code c s).mixOut = s.mixOut :=
  by unfold raiseFlow; split <;> rfl
@[simp] theorem raiseFlow_cfgRsp (code : DiagCode) (c : Chan) : (raiseFlow code c s).cfgRsp = s.cfgRsp :=
  by unfold raiseFlow; split <;> rfl
@[simp] theorem raiseFlow_logOut (code : DiagCode) (c : Chan) : (raiseFlow code c s).logOut = s.logOut :=
  by unfold raiseFlow; split <;> rfl
@[simp] theorem raiseFlow_pushIn (code : DiagCode) (c : Chan) : (raiseFlow code c s).pushIn = s.pushIn :=
  by unfold raiseFlow; split <;> rfl
@[simp] theorem raiseFlow_mixIn (code : DiagCode) (c : Chan) : (raiseFlow code c s).mixIn = s.mixIn :=
  by unfold raiseFlow; split <;> rfl
@[simp] theorem raiseFlow_cfgIn (code : DiagCode) (c : Chan) : (raiseFlow code c s).cfgIn = s.cfgIn :=
  by unfold raiseFlow; split <;> rfl
@[simp] theorem raiseFlow_sched (code : DiagCode) (c : Chan) : (raiseFlow code c s).sched = s.sched :=
  by unfold raiseFlow; split <;> rfl

/-! ### cfgWrite -/

@[simp] theorem cfgWrite_mem (x : CfgItem) : (cfgWrite x s).mem = s.mem := by unfold cfgWrite; split <;> simp
@[simp] theorem cfgWrite_widx (x : CfgItem) : (cfgWrite x s).widx = s.widx := by unfold cfgWrite; split <;> simp
@[simp] theorem cfgWrite_ridx (x : CfgItem) : (cfgWrite x s).ridx = s.ridx := by unfold cfgWrite; split <;> simp
@[simp] theorem cfgWrite_frac (x : CfgItem) : (cfgWrite x s).frac = s.frac := by unfold cfgWrite; split <;> simp
@[simp] theorem cfgWrite_holdL (x : CfgItem) : (cfgWrite x s).holdL = s.holdL := by unfold cfgWrite; split <;> simp
@[simp] theorem cfgWrite_holdR (x : CfgItem) : (cfgWrite x s).holdR = s.holdR := by unfold cfgWrite; split <;> simp
@[simp] theorem cfgWrite_seq (x : CfgItem) : (cfgWrite x s).seq = s.seq := by unfold cfgWrite; split <;> simp
@[simp] theorem cfgWrite_dprevL (x : CfgItem) : (cfgWrite x s).dprevL = s.dprevL := by unfold cfgWrite; split <;> simp
@[simp] theorem cfgWrite_dprevR (x : CfgItem) : (cfgWrite x s).dprevR = s.dprevR := by unfold cfgWrite; split <;> simp
@[simp] theorem cfgWrite_prng (x : CfgItem) : (cfgWrite x s).prng = s.prng := by unfold cfgWrite; split <;> simp
@[simp] theorem cfgWrite_outRate (x : CfgItem) : (cfgWrite x s).outRate = s.outRate :=
  by unfold cfgWrite; split <;> simp
@[simp] theorem cfgWrite_logen (x : CfgItem) : (cfgWrite x s).logen = s.logen := by unfold cfgWrite; split <;> simp
@[simp] theorem cfgWrite_txn (x : CfgItem) : (cfgWrite x s).txn = s.txn := by unfold cfgWrite; split <;> simp
@[simp] theorem cfgWrite_tuning (x : CfgItem) : (cfgWrite x s).tuning = s.tuning := by unfold cfgWrite; split <;> simp
@[simp] theorem cfgWrite_mixOut (x : CfgItem) : (cfgWrite x s).mixOut = s.mixOut := by unfold cfgWrite; split <;> simp
@[simp] theorem cfgWrite_cfgRsp (x : CfgItem) : (cfgWrite x s).cfgRsp = s.cfgRsp := by unfold cfgWrite; split <;> simp
@[simp] theorem cfgWrite_logOut (x : CfgItem) : (cfgWrite x s).logOut = s.logOut := by unfold cfgWrite; split <;> simp
@[simp] theorem cfgWrite_diagOut (x : CfgItem) : (cfgWrite x s).diagOut = s.diagOut :=
  by unfold cfgWrite; split <;> simp
@[simp] theorem cfgWrite_pushIn (x : CfgItem) : (cfgWrite x s).pushIn = s.pushIn := by unfold cfgWrite; split <;> simp
@[simp] theorem cfgWrite_mixIn (x : CfgItem) : (cfgWrite x s).mixIn = s.mixIn := by unfold cfgWrite; split <;> simp
@[simp] theorem cfgWrite_cfgIn (x : CfgItem) : (cfgWrite x s).cfgIn = s.cfgIn := by unfold cfgWrite; split <;> simp
@[simp] theorem cfgWrite_sched (x : CfgItem) : (cfgWrite x s).sched = s.sched := by unfold cfgWrite; split <;> simp

/-! ### overflowCheck -/

@[simp] theorem overflowCheck_mem (c : Chan) : (overflowCheck c s).mem = s.mem :=
  by unfold overflowCheck; split <;> simp
@[simp] theorem overflowCheck_widx (c : Chan) : (overflowCheck c s).widx = s.widx :=
  by unfold overflowCheck; split <;> simp
@[simp] theorem overflowCheck_ridx (c : Chan) : (overflowCheck c s).ridx = s.ridx :=
  by unfold overflowCheck; split <;> simp
@[simp] theorem overflowCheck_frac (c : Chan) : (overflowCheck c s).frac = s.frac :=
  by unfold overflowCheck; split <;> simp
@[simp] theorem overflowCheck_holdL (c : Chan) : (overflowCheck c s).holdL = s.holdL :=
  by unfold overflowCheck; split <;> simp
@[simp] theorem overflowCheck_holdR (c : Chan) : (overflowCheck c s).holdR = s.holdR :=
  by unfold overflowCheck; split <;> simp
@[simp] theorem overflowCheck_seq (c : Chan) : (overflowCheck c s).seq = s.seq :=
  by unfold overflowCheck; split <;> simp
@[simp] theorem overflowCheck_dprevL (c : Chan) : (overflowCheck c s).dprevL = s.dprevL :=
  by unfold overflowCheck; split <;> simp
@[simp] theorem overflowCheck_dprevR (c : Chan) : (overflowCheck c s).dprevR = s.dprevR :=
  by unfold overflowCheck; split <;> simp
@[simp] theorem overflowCheck_prng (c : Chan) : (overflowCheck c s).prng = s.prng :=
  by unfold overflowCheck; split <;> simp
@[simp] theorem overflowCheck_rate (c : Chan) : (overflowCheck c s).rate = s.rate :=
  by unfold overflowCheck; split <;> simp
@[simp] theorem overflowCheck_vol (c : Chan) : (overflowCheck c s).vol = s.vol :=
  by unfold overflowCheck; split <;> simp
@[simp] theorem overflowCheck_speed (c : Chan) : (overflowCheck c s).speed = s.speed :=
  by unfold overflowCheck; split <;> simp
@[simp] theorem overflowCheck_outRate (c : Chan) : (overflowCheck c s).outRate = s.outRate :=
  by unfold overflowCheck; split <;> simp
@[simp] theorem overflowCheck_logen (c : Chan) : (overflowCheck c s).logen = s.logen :=
  by unfold overflowCheck; split <;> simp
@[simp] theorem overflowCheck_txn (c : Chan) : (overflowCheck c s).txn = s.txn :=
  by unfold overflowCheck; split <;> simp
@[simp] theorem overflowCheck_dirty (c : Chan) : (overflowCheck c s).dirty = s.dirty :=
  by unfold overflowCheck; split <;> simp
@[simp] theorem overflowCheck_shRate (c : Chan) : (overflowCheck c s).shRate = s.shRate :=
  by unfold overflowCheck; split <;> simp
@[simp] theorem overflowCheck_shVol (c : Chan) : (overflowCheck c s).shVol = s.shVol :=
  by unfold overflowCheck; split <;> simp
@[simp] theorem overflowCheck_shSpeed (c : Chan) : (overflowCheck c s).shSpeed = s.shSpeed :=
  by unfold overflowCheck; split <;> simp
@[simp] theorem overflowCheck_tuning (c : Chan) : (overflowCheck c s).tuning = s.tuning :=
  by unfold overflowCheck; split <;> simp
@[simp] theorem overflowCheck_mixOut (c : Chan) : (overflowCheck c s).mixOut = s.mixOut :=
  by unfold overflowCheck; split <;> simp
@[simp] theorem overflowCheck_cfgRsp (c : Chan) : (overflowCheck c s).cfgRsp = s.cfgRsp :=
  by unfold overflowCheck; split <;> simp
@[simp] theorem overflowCheck_logOut (c : Chan) : (overflowCheck c s).logOut = s.logOut :=
  by unfold overflowCheck; split <;> simp
@[simp] theorem overflowCheck_pushIn (c : Chan) : (overflowCheck c s).pushIn = s.pushIn :=
  by unfold overflowCheck; split <;> simp
@[simp] theorem overflowCheck_mixIn (c : Chan) : (overflowCheck c s).mixIn = s.mixIn :=
  by unfold overflowCheck; split <;> simp
@[simp] theorem overflowCheck_cfgIn (c : Chan) : (overflowCheck c s).cfgIn = s.cfgIn :=
  by unfold overflowCheck; split <;> simp
@[simp] theorem overflowCheck_sched (c : Chan) : (overflowCheck c s).sched = s.sched :=
  by unfold overflowCheck; split <;> simp

/-! ### logCopy -/

@[simp] theorem logCopy_mem (c : Chan) (l r : Sample) : (logCopy c l r s).mem = s.mem :=
  by unfold logCopy; split <;> rfl
@[simp] theorem logCopy_widx (c : Chan) (l r : Sample) : (logCopy c l r s).widx = s.widx :=
  by unfold logCopy; split <;> rfl
@[simp] theorem logCopy_ridx (c : Chan) (l r : Sample) : (logCopy c l r s).ridx = s.ridx :=
  by unfold logCopy; split <;> rfl
@[simp] theorem logCopy_frac (c : Chan) (l r : Sample) : (logCopy c l r s).frac = s.frac :=
  by unfold logCopy; split <;> rfl
@[simp] theorem logCopy_holdL (c : Chan) (l r : Sample) : (logCopy c l r s).holdL = s.holdL :=
  by unfold logCopy; split <;> rfl
@[simp] theorem logCopy_holdR (c : Chan) (l r : Sample) : (logCopy c l r s).holdR = s.holdR :=
  by unfold logCopy; split <;> rfl
@[simp] theorem logCopy_seq (c : Chan) (l r : Sample) : (logCopy c l r s).seq = s.seq :=
  by unfold logCopy; split <;> rfl
@[simp] theorem logCopy_dprevL (c : Chan) (l r : Sample) : (logCopy c l r s).dprevL = s.dprevL :=
  by unfold logCopy; split <;> rfl
@[simp] theorem logCopy_dprevR (c : Chan) (l r : Sample) : (logCopy c l r s).dprevR = s.dprevR :=
  by unfold logCopy; split <;> rfl
@[simp] theorem logCopy_prng (c : Chan) (l r : Sample) : (logCopy c l r s).prng = s.prng :=
  by unfold logCopy; split <;> rfl
@[simp] theorem logCopy_rate (c : Chan) (l r : Sample) : (logCopy c l r s).rate = s.rate :=
  by unfold logCopy; split <;> rfl
@[simp] theorem logCopy_vol (c : Chan) (l r : Sample) : (logCopy c l r s).vol = s.vol :=
  by unfold logCopy; split <;> rfl
@[simp] theorem logCopy_speed (c : Chan) (l r : Sample) : (logCopy c l r s).speed = s.speed :=
  by unfold logCopy; split <;> rfl
@[simp] theorem logCopy_outRate (c : Chan) (l r : Sample) : (logCopy c l r s).outRate = s.outRate :=
  by unfold logCopy; split <;> rfl
@[simp] theorem logCopy_logen (c : Chan) (l r : Sample) : (logCopy c l r s).logen = s.logen :=
  by unfold logCopy; split <;> rfl
@[simp] theorem logCopy_txn (c : Chan) (l r : Sample) : (logCopy c l r s).txn = s.txn :=
  by unfold logCopy; split <;> rfl
@[simp] theorem logCopy_dirty (c : Chan) (l r : Sample) : (logCopy c l r s).dirty = s.dirty :=
  by unfold logCopy; split <;> rfl
@[simp] theorem logCopy_shRate (c : Chan) (l r : Sample) : (logCopy c l r s).shRate = s.shRate :=
  by unfold logCopy; split <;> rfl
@[simp] theorem logCopy_shVol (c : Chan) (l r : Sample) : (logCopy c l r s).shVol = s.shVol :=
  by unfold logCopy; split <;> rfl
@[simp] theorem logCopy_shSpeed (c : Chan) (l r : Sample) : (logCopy c l r s).shSpeed = s.shSpeed :=
  by unfold logCopy; split <;> rfl
@[simp] theorem logCopy_tuning (c : Chan) (l r : Sample) : (logCopy c l r s).tuning = s.tuning :=
  by unfold logCopy; split <;> rfl
@[simp] theorem logCopy_mixOut (c : Chan) (l r : Sample) : (logCopy c l r s).mixOut = s.mixOut :=
  by unfold logCopy; split <;> rfl
@[simp] theorem logCopy_cfgRsp (c : Chan) (l r : Sample) : (logCopy c l r s).cfgRsp = s.cfgRsp :=
  by unfold logCopy; split <;> rfl
@[simp] theorem logCopy_diagOut (c : Chan) (l r : Sample) : (logCopy c l r s).diagOut = s.diagOut :=
  by unfold logCopy; split <;> rfl
@[simp] theorem logCopy_pushIn (c : Chan) (l r : Sample) : (logCopy c l r s).pushIn = s.pushIn :=
  by unfold logCopy; split <;> rfl
@[simp] theorem logCopy_mixIn (c : Chan) (l r : Sample) : (logCopy c l r s).mixIn = s.mixIn :=
  by unfold logCopy; split <;> rfl
@[simp] theorem logCopy_cfgIn (c : Chan) (l r : Sample) : (logCopy c l r s).cfgIn = s.cfgIn :=
  by unfold logCopy; split <;> rfl
@[simp] theorem logCopy_sched (c : Chan) (l r : Sample) : (logCopy c l r s).sched = s.sched :=
  by unfold logCopy; split <;> rfl

/-! ### pushFrame -/

@[simp] theorem pushFrame_ridx (c : Chan) (l r : Sample) : (pushFrame c l r s).ridx = s.ridx := by simp [pushFrame]
@[simp] theorem pushFrame_frac (c : Chan) (l r : Sample) : (pushFrame c l r s).frac = s.frac := by simp [pushFrame]
@[simp] theorem pushFrame_holdL (c : Chan) (l r : Sample) : (pushFrame c l r s).holdL = s.holdL := by simp [pushFrame]
@[simp] theorem pushFrame_holdR (c : Chan) (l r : Sample) : (pushFrame c l r s).holdR = s.holdR := by simp [pushFrame]
@[simp] theorem pushFrame_seq (c : Chan) (l r : Sample) : (pushFrame c l r s).seq = s.seq := by simp [pushFrame]
@[simp] theorem pushFrame_dprevL (c : Chan) (l r : Sample) : (pushFrame c l r s).dprevL = s.dprevL :=
  by simp [pushFrame]
@[simp] theorem pushFrame_dprevR (c : Chan) (l r : Sample) : (pushFrame c l r s).dprevR = s.dprevR :=
  by simp [pushFrame]
@[simp] theorem pushFrame_prng (c : Chan) (l r : Sample) : (pushFrame c l r s).prng = s.prng := by simp [pushFrame]
@[simp] theorem pushFrame_rate (c : Chan) (l r : Sample) : (pushFrame c l r s).rate = s.rate := by simp [pushFrame]
@[simp] theorem pushFrame_vol (c : Chan) (l r : Sample) : (pushFrame c l r s).vol = s.vol := by simp [pushFrame]
@[simp] theorem pushFrame_speed (c : Chan) (l r : Sample) : (pushFrame c l r s).speed = s.speed := by simp [pushFrame]
@[simp] theorem pushFrame_outRate (c : Chan) (l r : Sample) : (pushFrame c l r s).outRate = s.outRate :=
  by simp [pushFrame]
@[simp] theorem pushFrame_logen (c : Chan) (l r : Sample) : (pushFrame c l r s).logen = s.logen := by simp [pushFrame]
@[simp] theorem pushFrame_txn (c : Chan) (l r : Sample) : (pushFrame c l r s).txn = s.txn := by simp [pushFrame]
@[simp] theorem pushFrame_dirty (c : Chan) (l r : Sample) : (pushFrame c l r s).dirty = s.dirty := by simp [pushFrame]
@[simp] theorem pushFrame_shRate (c : Chan) (l r : Sample) : (pushFrame c l r s).shRate = s.shRate :=
  by simp [pushFrame]
@[simp] theorem pushFrame_shVol (c : Chan) (l r : Sample) : (pushFrame c l r s).shVol = s.shVol := by simp [pushFrame]
@[simp] theorem pushFrame_shSpeed (c : Chan) (l r : Sample) : (pushFrame c l r s).shSpeed = s.shSpeed :=
  by simp [pushFrame]
@[simp] theorem pushFrame_tuning (c : Chan) (l r : Sample) : (pushFrame c l r s).tuning = s.tuning :=
  by simp [pushFrame]
@[simp] theorem pushFrame_mixOut (c : Chan) (l r : Sample) : (pushFrame c l r s).mixOut = s.mixOut :=
  by simp [pushFrame]
@[simp] theorem pushFrame_cfgRsp (c : Chan) (l r : Sample) : (pushFrame c l r s).cfgRsp = s.cfgRsp :=
  by simp [pushFrame]
@[simp] theorem pushFrame_pushIn (c : Chan) (l r : Sample) : (pushFrame c l r s).pushIn = s.pushIn :=
  by simp [pushFrame]
@[simp] theorem pushFrame_mixIn (c : Chan) (l r : Sample) : (pushFrame c l r s).mixIn = s.mixIn := by simp [pushFrame]
@[simp] theorem pushFrame_cfgIn (c : Chan) (l r : Sample) : (pushFrame c l r s).cfgIn = s.cfgIn := by simp [pushFrame]
@[simp] theorem pushFrame_sched (c : Chan) (l r : Sample) : (pushFrame c l r s).sched = s.sched := by simp [pushFrame]

/-! ### advance -/

@[simp] theorem advance_mem (c : Chan) (avail : Nat) (rc : Bool) : (advance c avail rc s).mem = s.mem := rfl
@[simp] theorem advance_widx (c : Chan) (avail : Nat) (rc : Bool) : (advance c avail rc s).widx = s.widx := rfl
@[simp] theorem advance_holdL (c : Chan) (avail : Nat) (rc : Bool) : (advance c avail rc s).holdL = s.holdL := rfl
@[simp] theorem advance_holdR (c : Chan) (avail : Nat) (rc : Bool) : (advance c avail rc s).holdR = s.holdR := rfl
@[simp] theorem advance_seq (c : Chan) (avail : Nat) (rc : Bool) : (advance c avail rc s).seq = s.seq := rfl
@[simp] theorem advance_dprevL (c : Chan) (avail : Nat) (rc : Bool) : (advance c avail rc s).dprevL = s.dprevL := rfl
@[simp] theorem advance_dprevR (c : Chan) (avail : Nat) (rc : Bool) : (advance c avail rc s).dprevR = s.dprevR := rfl
@[simp] theorem advance_prng (c : Chan) (avail : Nat) (rc : Bool) : (advance c avail rc s).prng = s.prng := rfl
@[simp] theorem advance_rate (c : Chan) (avail : Nat) (rc : Bool) : (advance c avail rc s).rate = s.rate := rfl
@[simp] theorem advance_vol (c : Chan) (avail : Nat) (rc : Bool) : (advance c avail rc s).vol = s.vol := rfl
@[simp] theorem advance_speed (c : Chan) (avail : Nat) (rc : Bool) : (advance c avail rc s).speed = s.speed := rfl
@[simp] theorem advance_outRate (c : Chan) (avail : Nat) (rc : Bool) : (advance c avail rc s).outRate = s.outRate :=
  rfl
@[simp] theorem advance_logen (c : Chan) (avail : Nat) (rc : Bool) : (advance c avail rc s).logen = s.logen := rfl
@[simp] theorem advance_txn (c : Chan) (avail : Nat) (rc : Bool) : (advance c avail rc s).txn = s.txn := rfl
@[simp] theorem advance_dirty (c : Chan) (avail : Nat) (rc : Bool) : (advance c avail rc s).dirty = s.dirty := rfl
@[simp] theorem advance_shRate (c : Chan) (avail : Nat) (rc : Bool) : (advance c avail rc s).shRate = s.shRate := rfl
@[simp] theorem advance_shVol (c : Chan) (avail : Nat) (rc : Bool) : (advance c avail rc s).shVol = s.shVol := rfl
@[simp] theorem advance_shSpeed (c : Chan) (avail : Nat) (rc : Bool) : (advance c avail rc s).shSpeed = s.shSpeed :=
  rfl
@[simp] theorem advance_tuning (c : Chan) (avail : Nat) (rc : Bool) : (advance c avail rc s).tuning = s.tuning := rfl
@[simp] theorem advance_mixOut (c : Chan) (avail : Nat) (rc : Bool) : (advance c avail rc s).mixOut = s.mixOut := rfl
@[simp] theorem advance_cfgRsp (c : Chan) (avail : Nat) (rc : Bool) : (advance c avail rc s).cfgRsp = s.cfgRsp := rfl
@[simp] theorem advance_logOut (c : Chan) (avail : Nat) (rc : Bool) : (advance c avail rc s).logOut = s.logOut := rfl
@[simp] theorem advance_diagOut (c : Chan) (avail : Nat) (rc : Bool) : (advance c avail rc s).diagOut = s.diagOut :=
  rfl
@[simp] theorem advance_pushIn (c : Chan) (avail : Nat) (rc : Bool) : (advance c avail rc s).pushIn = s.pushIn := rfl
@[simp] theorem advance_mixIn (c : Chan) (avail : Nat) (rc : Bool) : (advance c avail rc s).mixIn = s.mixIn := rfl
@[simp] theorem advance_cfgIn (c : Chan) (avail : Nat) (rc : Bool) : (advance c avail rc s).cfgIn = s.cfgIn := rfl
@[simp] theorem advance_sched (c : Chan) (avail : Nat) (rc : Bool) : (advance c avail rc s).sched = s.sched := rfl

/-! ### accumulate -/

@[simp] theorem accumulate_widx (c : Chan) (k : Nat) (pair : Hold × Hold) : (accumulate c k pair s).widx = s.widx :=
  rfl
@[simp] theorem accumulate_ridx (c : Chan) (k : Nat) (pair : Hold × Hold) : (accumulate c k pair s).ridx = s.ridx :=
  rfl
@[simp] theorem accumulate_frac (c : Chan) (k : Nat) (pair : Hold × Hold) : (accumulate c k pair s).frac = s.frac :=
  rfl
@[simp] theorem accumulate_holdL (c : Chan) (k : Nat) (pair : Hold × Hold) : (accumulate c k pair s).holdL = s.holdL :=
  rfl
@[simp] theorem accumulate_holdR (c : Chan) (k : Nat) (pair : Hold × Hold) : (accumulate c k pair s).holdR = s.holdR :=
  rfl
@[simp] theorem accumulate_seq (c : Chan) (k : Nat) (pair : Hold × Hold) : (accumulate c k pair s).seq = s.seq := rfl
@[simp] theorem accumulate_dprevL (c : Chan) (k : Nat) (pair : Hold × Hold) : (accumulate c k pair s).dprevL = s.dprevL :=
  rfl
@[simp] theorem accumulate_dprevR (c : Chan) (k : Nat) (pair : Hold × Hold) : (accumulate c k pair s).dprevR = s.dprevR :=
  rfl
@[simp] theorem accumulate_prng (c : Chan) (k : Nat) (pair : Hold × Hold) : (accumulate c k pair s).prng = s.prng :=
  rfl
@[simp] theorem accumulate_rate (c : Chan) (k : Nat) (pair : Hold × Hold) : (accumulate c k pair s).rate = s.rate :=
  rfl
@[simp] theorem accumulate_vol (c : Chan) (k : Nat) (pair : Hold × Hold) : (accumulate c k pair s).vol = s.vol := rfl
@[simp] theorem accumulate_speed (c : Chan) (k : Nat) (pair : Hold × Hold) : (accumulate c k pair s).speed = s.speed :=
  rfl
@[simp] theorem accumulate_outRate (c : Chan) (k : Nat) (pair : Hold × Hold) : (accumulate c k pair s).outRate = s.outRate :=
  rfl
@[simp] theorem accumulate_logen (c : Chan) (k : Nat) (pair : Hold × Hold) : (accumulate c k pair s).logen = s.logen :=
  rfl
@[simp] theorem accumulate_txn (c : Chan) (k : Nat) (pair : Hold × Hold) : (accumulate c k pair s).txn = s.txn := rfl
@[simp] theorem accumulate_dirty (c : Chan) (k : Nat) (pair : Hold × Hold) : (accumulate c k pair s).dirty = s.dirty :=
  rfl
@[simp] theorem accumulate_shRate (c : Chan) (k : Nat) (pair : Hold × Hold) : (accumulate c k pair s).shRate = s.shRate :=
  rfl
@[simp] theorem accumulate_shVol (c : Chan) (k : Nat) (pair : Hold × Hold) : (accumulate c k pair s).shVol = s.shVol :=
  rfl
@[simp] theorem accumulate_shSpeed (c : Chan) (k : Nat) (pair : Hold × Hold) : (accumulate c k pair s).shSpeed = s.shSpeed :=
  rfl
@[simp] theorem accumulate_tuning (c : Chan) (k : Nat) (pair : Hold × Hold) : (accumulate c k pair s).tuning = s.tuning :=
  rfl
@[simp] theorem accumulate_mixOut (c : Chan) (k : Nat) (pair : Hold × Hold) : (accumulate c k pair s).mixOut = s.mixOut :=
  rfl
@[simp] theorem accumulate_cfgRsp (c : Chan) (k : Nat) (pair : Hold × Hold) : (accumulate c k pair s).cfgRsp = s.cfgRsp :=
  rfl
@[simp] theorem accumulate_logOut (c : Chan) (k : Nat) (pair : Hold × Hold) : (accumulate c k pair s).logOut = s.logOut :=
  rfl
@[simp] theorem accumulate_diagOut (c : Chan) (k : Nat) (pair : Hold × Hold) : (accumulate c k pair s).diagOut = s.diagOut :=
  rfl
@[simp] theorem accumulate_pushIn (c : Chan) (k : Nat) (pair : Hold × Hold) : (accumulate c k pair s).pushIn = s.pushIn :=
  rfl
@[simp] theorem accumulate_mixIn (c : Chan) (k : Nat) (pair : Hold × Hold) : (accumulate c k pair s).mixIn = s.mixIn :=
  rfl
@[simp] theorem accumulate_cfgIn (c : Chan) (k : Nat) (pair : Hold × Hold) : (accumulate c k pair s).cfgIn = s.cfgIn :=
  rfl
@[simp] theorem accumulate_sched (c : Chan) (k : Nat) (pair : Hold × Hold) : (accumulate c k pair s).sched = s.sched :=
  rfl

/-! ### pullFrame -/

@[simp] theorem pullFrame_widx (c : Chan) (k : Nat) (rc : Bool) : (pullFrame c k rc s).widx = s.widx :=
  by unfold pullFrame pullSynced; split <;> simp [pullHeld, pullFresh]
@[simp] theorem pullFrame_seq (c : Chan) (k : Nat) (rc : Bool) : (pullFrame c k rc s).seq = s.seq :=
  by unfold pullFrame pullSynced; split <;> simp [pullHeld, pullFresh]
@[simp] theorem pullFrame_dprevL (c : Chan) (k : Nat) (rc : Bool) : (pullFrame c k rc s).dprevL = s.dprevL :=
  by unfold pullFrame pullSynced; split <;> simp [pullHeld, pullFresh]
@[simp] theorem pullFrame_dprevR (c : Chan) (k : Nat) (rc : Bool) : (pullFrame c k rc s).dprevR = s.dprevR :=
  by unfold pullFrame pullSynced; split <;> simp [pullHeld, pullFresh]
@[simp] theorem pullFrame_prng (c : Chan) (k : Nat) (rc : Bool) : (pullFrame c k rc s).prng = s.prng :=
  by unfold pullFrame pullSynced; split <;> simp [pullHeld, pullFresh]
@[simp] theorem pullFrame_rate (c : Chan) (k : Nat) (rc : Bool) : (pullFrame c k rc s).rate = s.rate :=
  by unfold pullFrame pullSynced; split <;> simp [pullHeld, pullFresh]
@[simp] theorem pullFrame_vol (c : Chan) (k : Nat) (rc : Bool) : (pullFrame c k rc s).vol = s.vol :=
  by unfold pullFrame pullSynced; split <;> simp [pullHeld, pullFresh]
@[simp] theorem pullFrame_speed (c : Chan) (k : Nat) (rc : Bool) : (pullFrame c k rc s).speed = s.speed :=
  by unfold pullFrame pullSynced; split <;> simp [pullHeld, pullFresh]
@[simp] theorem pullFrame_outRate (c : Chan) (k : Nat) (rc : Bool) : (pullFrame c k rc s).outRate = s.outRate :=
  by unfold pullFrame pullSynced; split <;> simp [pullHeld, pullFresh]
@[simp] theorem pullFrame_logen (c : Chan) (k : Nat) (rc : Bool) : (pullFrame c k rc s).logen = s.logen :=
  by unfold pullFrame pullSynced; split <;> simp [pullHeld, pullFresh]
@[simp] theorem pullFrame_txn (c : Chan) (k : Nat) (rc : Bool) : (pullFrame c k rc s).txn = s.txn :=
  by unfold pullFrame pullSynced; split <;> simp [pullHeld, pullFresh]
@[simp] theorem pullFrame_dirty (c : Chan) (k : Nat) (rc : Bool) : (pullFrame c k rc s).dirty = s.dirty :=
  by unfold pullFrame pullSynced; split <;> simp [pullHeld, pullFresh]
@[simp] theorem pullFrame_shRate (c : Chan) (k : Nat) (rc : Bool) : (pullFrame c k rc s).shRate = s.shRate :=
  by unfold pullFrame pullSynced; split <;> simp [pullHeld, pullFresh]
@[simp] theorem pullFrame_shVol (c : Chan) (k : Nat) (rc : Bool) : (pullFrame c k rc s).shVol = s.shVol :=
  by unfold pullFrame pullSynced; split <;> simp [pullHeld, pullFresh]
@[simp] theorem pullFrame_shSpeed (c : Chan) (k : Nat) (rc : Bool) : (pullFrame c k rc s).shSpeed = s.shSpeed :=
  by unfold pullFrame pullSynced; split <;> simp [pullHeld, pullFresh]
@[simp] theorem pullFrame_tuning (c : Chan) (k : Nat) (rc : Bool) : (pullFrame c k rc s).tuning = s.tuning :=
  by unfold pullFrame pullSynced; split <;> simp [pullHeld, pullFresh]
@[simp] theorem pullFrame_mixOut (c : Chan) (k : Nat) (rc : Bool) : (pullFrame c k rc s).mixOut = s.mixOut :=
  by unfold pullFrame pullSynced; split <;> simp [pullHeld, pullFresh]
@[simp] theorem pullFrame_cfgRsp (c : Chan) (k : Nat) (rc : Bool) : (pullFrame c k rc s).cfgRsp = s.cfgRsp :=
  by unfold pullFrame pullSynced; split <;> simp [pullHeld, pullFresh]
@[simp] theorem pullFrame_logOut (c : Chan) (k : Nat) (rc : Bool) : (pullFrame c k rc s).logOut = s.logOut :=
  by unfold pullFrame pullSynced; split <;> simp [pullHeld, pullFresh]
@[simp] theorem pullFrame_pushIn (c : Chan) (k : Nat) (rc : Bool) : (pullFrame c k rc s).pushIn = s.pushIn :=
  by unfold pullFrame pullSynced; split <;> simp [pullHeld, pullFresh]
@[simp] theorem pullFrame_mixIn (c : Chan) (k : Nat) (rc : Bool) : (pullFrame c k rc s).mixIn = s.mixIn :=
  by unfold pullFrame pullSynced; split <;> simp [pullHeld, pullFresh]
@[simp] theorem pullFrame_cfgIn (c : Chan) (k : Nat) (rc : Bool) : (pullFrame c k rc s).cfgIn = s.cfgIn :=
  by unfold pullFrame pullSynced; split <;> simp [pullHeld, pullFresh]
@[simp] theorem pullFrame_sched (c : Chan) (k : Nat) (rc : Bool) : (pullFrame c k rc s).sched = s.sched :=
  by unfold pullFrame pullSynced; split <;> simp [pullHeld, pullFresh]

/-! ### quantState -/

@[simp] theorem quantState_mem (side : Side) : (quantState side s).mem = s.mem := by simp [quantState]
@[simp] theorem quantState_widx (side : Side) : (quantState side s).widx = s.widx := by simp [quantState]
@[simp] theorem quantState_ridx (side : Side) : (quantState side s).ridx = s.ridx := by simp [quantState]
@[simp] theorem quantState_frac (side : Side) : (quantState side s).frac = s.frac := by simp [quantState]
@[simp] theorem quantState_holdL (side : Side) : (quantState side s).holdL = s.holdL := by simp [quantState]
@[simp] theorem quantState_holdR (side : Side) : (quantState side s).holdR = s.holdR := by simp [quantState]
@[simp] theorem quantState_seq (side : Side) : (quantState side s).seq = s.seq := by simp [quantState]
@[simp] theorem quantState_rate (side : Side) : (quantState side s).rate = s.rate := by simp [quantState]
@[simp] theorem quantState_vol (side : Side) : (quantState side s).vol = s.vol := by simp [quantState]
@[simp] theorem quantState_speed (side : Side) : (quantState side s).speed = s.speed := by simp [quantState]
@[simp] theorem quantState_outRate (side : Side) : (quantState side s).outRate = s.outRate := by simp [quantState]
@[simp] theorem quantState_logen (side : Side) : (quantState side s).logen = s.logen := by simp [quantState]
@[simp] theorem quantState_txn (side : Side) : (quantState side s).txn = s.txn := by simp [quantState]
@[simp] theorem quantState_dirty (side : Side) : (quantState side s).dirty = s.dirty := by simp [quantState]
@[simp] theorem quantState_shRate (side : Side) : (quantState side s).shRate = s.shRate := by simp [quantState]
@[simp] theorem quantState_shVol (side : Side) : (quantState side s).shVol = s.shVol := by simp [quantState]
@[simp] theorem quantState_shSpeed (side : Side) : (quantState side s).shSpeed = s.shSpeed := by simp [quantState]
@[simp] theorem quantState_tuning (side : Side) : (quantState side s).tuning = s.tuning := by simp [quantState]
@[simp] theorem quantState_mixOut (side : Side) : (quantState side s).mixOut = s.mixOut := by simp [quantState]
@[simp] theorem quantState_cfgRsp (side : Side) : (quantState side s).cfgRsp = s.cfgRsp := by simp [quantState]
@[simp] theorem quantState_logOut (side : Side) : (quantState side s).logOut = s.logOut := by simp [quantState]
@[simp] theorem quantState_diagOut (side : Side) : (quantState side s).diagOut = s.diagOut := by simp [quantState]
@[simp] theorem quantState_pushIn (side : Side) : (quantState side s).pushIn = s.pushIn := by simp [quantState]
@[simp] theorem quantState_mixIn (side : Side) : (quantState side s).mixIn = s.mixIn := by simp [quantState]
@[simp] theorem quantState_cfgIn (side : Side) : (quantState side s).cfgIn = s.cfgIn := by simp [quantState]
@[simp] theorem quantState_sched (side : Side) : (quantState side s).sched = s.sched := by simp [quantState]

/-! ### emitFrame -/

@[simp] theorem emitFrame_mem (fmt : MixFormat) (k : Nat) : (emitFrame fmt k s).mem = s.mem :=
  by cases fmt <;> simp [emitFrame, emitS16, emitF32]
@[simp] theorem emitFrame_widx (fmt : MixFormat) (k : Nat) : (emitFrame fmt k s).widx = s.widx :=
  by cases fmt <;> simp [emitFrame, emitS16, emitF32]
@[simp] theorem emitFrame_ridx (fmt : MixFormat) (k : Nat) : (emitFrame fmt k s).ridx = s.ridx :=
  by cases fmt <;> simp [emitFrame, emitS16, emitF32]
@[simp] theorem emitFrame_frac (fmt : MixFormat) (k : Nat) : (emitFrame fmt k s).frac = s.frac :=
  by cases fmt <;> simp [emitFrame, emitS16, emitF32]
@[simp] theorem emitFrame_holdL (fmt : MixFormat) (k : Nat) : (emitFrame fmt k s).holdL = s.holdL :=
  by cases fmt <;> simp [emitFrame, emitS16, emitF32]
@[simp] theorem emitFrame_holdR (fmt : MixFormat) (k : Nat) : (emitFrame fmt k s).holdR = s.holdR :=
  by cases fmt <;> simp [emitFrame, emitS16, emitF32]
@[simp] theorem emitFrame_seq (fmt : MixFormat) (k : Nat) : (emitFrame fmt k s).seq = s.seq :=
  by cases fmt <;> simp [emitFrame, emitS16, emitF32]
@[simp] theorem emitFrame_rate (fmt : MixFormat) (k : Nat) : (emitFrame fmt k s).rate = s.rate :=
  by cases fmt <;> simp [emitFrame, emitS16, emitF32]
@[simp] theorem emitFrame_vol (fmt : MixFormat) (k : Nat) : (emitFrame fmt k s).vol = s.vol :=
  by cases fmt <;> simp [emitFrame, emitS16, emitF32]
@[simp] theorem emitFrame_speed (fmt : MixFormat) (k : Nat) : (emitFrame fmt k s).speed = s.speed :=
  by cases fmt <;> simp [emitFrame, emitS16, emitF32]
@[simp] theorem emitFrame_outRate (fmt : MixFormat) (k : Nat) : (emitFrame fmt k s).outRate = s.outRate :=
  by cases fmt <;> simp [emitFrame, emitS16, emitF32]
@[simp] theorem emitFrame_logen (fmt : MixFormat) (k : Nat) : (emitFrame fmt k s).logen = s.logen :=
  by cases fmt <;> simp [emitFrame, emitS16, emitF32]
@[simp] theorem emitFrame_txn (fmt : MixFormat) (k : Nat) : (emitFrame fmt k s).txn = s.txn :=
  by cases fmt <;> simp [emitFrame, emitS16, emitF32]
@[simp] theorem emitFrame_dirty (fmt : MixFormat) (k : Nat) : (emitFrame fmt k s).dirty = s.dirty :=
  by cases fmt <;> simp [emitFrame, emitS16, emitF32]
@[simp] theorem emitFrame_shRate (fmt : MixFormat) (k : Nat) : (emitFrame fmt k s).shRate = s.shRate :=
  by cases fmt <;> simp [emitFrame, emitS16, emitF32]
@[simp] theorem emitFrame_shVol (fmt : MixFormat) (k : Nat) : (emitFrame fmt k s).shVol = s.shVol :=
  by cases fmt <;> simp [emitFrame, emitS16, emitF32]
@[simp] theorem emitFrame_shSpeed (fmt : MixFormat) (k : Nat) : (emitFrame fmt k s).shSpeed = s.shSpeed :=
  by cases fmt <;> simp [emitFrame, emitS16, emitF32]
@[simp] theorem emitFrame_tuning (fmt : MixFormat) (k : Nat) : (emitFrame fmt k s).tuning = s.tuning :=
  by cases fmt <;> simp [emitFrame, emitS16, emitF32]
@[simp] theorem emitFrame_cfgRsp (fmt : MixFormat) (k : Nat) : (emitFrame fmt k s).cfgRsp = s.cfgRsp :=
  by cases fmt <;> simp [emitFrame, emitS16, emitF32]
@[simp] theorem emitFrame_logOut (fmt : MixFormat) (k : Nat) : (emitFrame fmt k s).logOut = s.logOut :=
  by cases fmt <;> simp [emitFrame, emitS16, emitF32]
@[simp] theorem emitFrame_diagOut (fmt : MixFormat) (k : Nat) : (emitFrame fmt k s).diagOut = s.diagOut :=
  by cases fmt <;> simp [emitFrame, emitS16, emitF32]
@[simp] theorem emitFrame_pushIn (fmt : MixFormat) (k : Nat) : (emitFrame fmt k s).pushIn = s.pushIn :=
  by cases fmt <;> simp [emitFrame, emitS16, emitF32]
@[simp] theorem emitFrame_mixIn (fmt : MixFormat) (k : Nat) : (emitFrame fmt k s).mixIn = s.mixIn :=
  by cases fmt <;> simp [emitFrame, emitS16, emitF32]
@[simp] theorem emitFrame_cfgIn (fmt : MixFormat) (k : Nat) : (emitFrame fmt k s).cfgIn = s.cfgIn :=
  by cases fmt <;> simp [emitFrame, emitS16, emitF32]
@[simp] theorem emitFrame_sched (fmt : MixFormat) (k : Nat) : (emitFrame fmt k s).sched = s.sched :=
  by cases fmt <;> simp [emitFrame, emitS16, emitF32]

end Sys2Proof.Machine
end

