-- ==== Sys2Proof/Laws/Cells.lean ====
section
/-! SUPPORT. The laws of the sparse memories: what a read gives after a write and after a clear, and that every memory
operation keeps the canonical form. -/

namespace Sys2Proof

variable {α : Type}

@[simp] theorem PerChan.get_set_same (p : PerChan α) (c : Chan) (v : α) : (p.set c v).get c = v := by
  cases c <;> rfl

theorem PerChan.get_set_ne (p : PerChan α) {c d : Chan} (v : α) (h : d ≠ c) : (p.set c v).get d = p.get d := by
  cases c <;> cases d <;> first | rfl | exact absurd rfl h

theorem PerChan.get_set (p : PerChan α) (c d : Chan) (v : α) :
    (p.set c v).get d = if d = c then v else p.get d := by
  cases c <;> cases d <;> rfl

@[simp] theorem PerChan.get_all (v : α) (c : Chan) : (PerChan.all v).get c = v := by cases c <;> rfl

@[simp] theorem PerChan.get_build (f : Chan → α) (c : Chan) : (PerChan.build f).get c = f c := by cases c <;> rfl

/-- Two per-channel values agree when they agree in every channel. -/
theorem PerChan.ext_get {p q : PerChan α} (h : ∀ c, p.get c = q.get c) : p = q := by
  cases p; cases q
  simpa [PerChan.get] using And.intro (h .dma) (And.intro (h .str) (h .aux))

@[simp] theorem PerChan.set_get (p : PerChan α) (c : Chan) : p.set c (p.get c) = p := by cases c <;> rfl

@[simp] theorem PerChan.set_set (p : PerChan α) (c : Chan) (v w : α) : (p.set c v).set c w = p.set c w := by
  cases c <;> rfl

namespace Machine

variable {w : Nat}

/-! ### Reading after writing -/

theorem Cells.read_cons (a b : Nat) (v : BitVec w) (m : Cells w) (fresh : Cells.read m a = 0#w) :
    Cells.read (Cells.cons a v m) b = if b = a then v else Cells.read m b := by
  unfold Cells.cons
  split
  · rename_i h; subst h
    by_cases hb : b = a
    · simp [hb, fresh]
    · simp [hb]
  · simp [Cells.read]

/-- A cell below every listed one reads as 0. -/
theorem Cells.read_of_wfFrom {size lo : Nat} {m : Cells w} (h : Cells.wfFrom size lo m = true) {a : Nat} (ha : a < lo) :
    Cells.read m a = 0#w := by
  induction m generalizing lo with
  | nil => rfl
  | cons cell rest ih =>
    obtain ⟨b, v⟩ := cell
    simp only [Cells.wfFrom, Bool.and_eq_true, decide_eq_true_eq] at h
    have : a ≠ b := by omega
    simp only [Cells.read, this, if_false]
    exact ih h.2 (by omega)

theorem Cells.wfFrom_mono {size lo lo' : Nat} {m : Cells w} (h : Cells.wfFrom size lo m = true) (hl : lo' ≤ lo) :
    Cells.wfFrom size lo' m = true := by
  cases m with
  | nil => rfl
  | cons cell rest =>
    obtain ⟨b, v⟩ := cell
    simp only [Cells.wfFrom, Bool.and_eq_true, decide_eq_true_eq] at h ⊢
    exact ⟨⟨⟨by omega, h.1.1.2⟩, h.1.2⟩, h.2⟩

theorem Cells.cons_wfFrom {size lo a : Nat} {v : BitVec w} {m : Cells w} (h : Cells.wfFrom size (a + 1) m = true)
    (hlo : lo ≤ a) (ha : a < size) : Cells.wfFrom size lo (Cells.cons a v m) = true := by
  unfold Cells.cons
  split
  · exact Cells.wfFrom_mono h (by omega)
  · rename_i hv
    simp [Cells.wfFrom, hlo, ha, hv, h]

/-- A write keeps the canonical form. -/
theorem Cells.write_wfFrom {size lo a : Nat} {v : BitVec w} {m : Cells w} (h : Cells.wfFrom size lo m = true)
    (hlo : lo ≤ a) (ha : a < size) : Cells.wfFrom size lo (Cells.write m a v) = true := by
  induction m generalizing lo with
  | nil => exact Cells.cons_wfFrom rfl hlo ha
  | cons cell rest ih =>
    obtain ⟨b, u⟩ := cell
    have h' := h
    simp only [Cells.wfFrom, Bool.and_eq_true, decide_eq_true_eq] at h
    unfold Cells.write
    split
    · refine Cells.cons_wfFrom ?_ hlo ha
      simp only [Cells.wfFrom, Bool.and_eq_true, decide_eq_true_eq]
      exact ⟨⟨⟨by omega, h.1.1.2⟩, h.1.2⟩, h.2⟩
    · split
      · rename_i hab; subst hab
        exact Cells.cons_wfFrom h.2 hlo ha
      · simp only [Cells.wfFrom, Bool.and_eq_true, decide_eq_true_eq]
        exact ⟨h.1, ih h.2 (by omega)⟩

theorem Cells.write_wf {size a : Nat} {v : BitVec w} {m : Cells w} (h : Cells.wf size m = true) (ha : a < size) :
    Cells.wf size (Cells.write m a v) = true :=
  Cells.write_wfFrom h (Nat.zero_le a) ha

/-- What a read gives after a write, in a memory of canonical form. -/
theorem Cells.read_write_from {size lo : Nat} {m : Cells w} (h : Cells.wfFrom size lo m = true) (a b : Nat)
    (v : BitVec w) : Cells.read (Cells.write m a v) b = if b = a then v else Cells.read m b := by
  induction m generalizing lo with
  | nil => exact Cells.read_cons a b v [] rfl
  | cons cell rest ih =>
    obtain ⟨d, u⟩ := cell
    simp only [Cells.wfFrom, Bool.and_eq_true, decide_eq_true_eq] at h
    unfold Cells.write
    split
    · rename_i had
      refine Cells.read_cons a b v _ ?_
      have : a ≠ d := by omega
      simp only [Cells.read, this, if_false]
      exact Cells.read_of_wfFrom h.2 (by omega)
    · split
      · rename_i had; subst had
        rw [Cells.read_cons a b v rest (Cells.read_of_wfFrom h.2 (by omega))]
        by_cases hb : b = a <;> simp [Cells.read, hb]
      · rename_i h1 h2
        simp only [Cells.read, ih h.2]
        by_cases hb : b = d
        · have : d ≠ a := by omega
          simp [hb, this]
        · simp [hb]

/-- What a read gives after a write. -/
theorem Cells.read_write {size : Nat} {m : Cells w} (h : Cells.wf size m = true) (a b : Nat) (v : BitVec w) :
    Cells.read (Cells.write m a v) b = if b = a then v else Cells.read m b :=
  Cells.read_write_from h a b v

/-! ### Clearing -/

theorem Cells.clearBelow_wfFrom {size lo : Nat} (n : Nat) {m : Cells w} (h : Cells.wfFrom size lo m = true) :
    Cells.wfFrom size lo (Cells.clearBelow n m) = true := by
  induction m generalizing lo with
  | nil => rfl
  | cons cell rest ih =>
    obtain ⟨b, u⟩ := cell
    simp only [Cells.wfFrom, Bool.and_eq_true, decide_eq_true_eq] at h
    have hr := ih h.2
    unfold Cells.clearBelow at hr ⊢
    rw [List.filter_cons]
    split
    · simp only [Cells.wfFrom, Bool.and_eq_true, decide_eq_true_eq]
      exact ⟨h.1, hr⟩
    · exact Cells.wfFrom_mono hr (by omega)

theorem Cells.clearBelow_wf {size : Nat} (n : Nat) {m : Cells w} (h : Cells.wf size m = true) :
    Cells.wf size (Cells.clearBelow n m) = true :=
  Cells.clearBelow_wfFrom n h

/-- What a read gives after a clear. -/
theorem Cells.read_clearBelow (n : Nat) (m : Cells w) (a : Nat) :
    Cells.read (Cells.clearBelow n m) a = if a < n then 0#w else Cells.read m a := by
  induction m with
  | nil => simp [Cells.clearBelow, Cells.read]
  | cons cell rest ih =>
    obtain ⟨b, u⟩ := cell
    unfold Cells.clearBelow at ih ⊢
    rw [List.filter_cons]
    by_cases hb : n ≤ b
    · simp only [hb, decide_true, if_true, Cells.read, ih]
      by_cases ha : a = b
      · simp [ha, hb]
      · simp [ha]
    · simp only [hb, decide_false, Bool.false_eq_true, if_false, ih, Cells.read]
      by_cases ha : a = b
      · have : a < n := by omega
        simp [this]
      · simp [ha]

/-- Clearing no cell changes nothing. -/
@[simp] theorem Cells.clearBelow_zero (m : Cells w) : Cells.clearBelow 0 m = m := by
  simp [Cells.clearBelow]

/-! ### The four memories -/

/-- The canonical form of the four memories, read channel by channel and side by side. -/
theorem Memory.wf_iff (m : Memory) : m.wf = true ↔
    (∀ c, Cells.wf Param.ringSamples (m.ring.get c) = true) ∧ Cells.wf (Param.mixMax + 1) m.accL = true
      ∧ Cells.wf (Param.mixMax + 1) m.accR = true := by
  simp only [Memory.wf, Bool.and_eq_true]
  constructor
  · rintro ⟨⟨⟨⟨h0, h1⟩, h2⟩, h3⟩, h4⟩
    exact ⟨fun c => by cases c <;> assumption, h3, h4⟩
  · rintro ⟨h, h3, h4⟩
    exact ⟨⟨⟨⟨h .dma, h .str⟩, h .aux⟩, h3⟩, h4⟩

/-- Every slot is a cell of the ring (`spec/10_state.md` R40, I5). -/
theorem slot_lt (i : Index) : slot i < Param.ringSamples := by
  have : (i &&& Param.indexMask).toNat ≤ Param.indexMask.toNat := by
    rw [BitVec.toNat_and]; exact Nat.and_le_right
  have e : Param.indexMask.toNat = 4095 := rfl
  unfold slot Param.ringSamples
  omega

/-- The slot of an index is the index modulo 4096 (`spec/20_memory.md` R67). -/
theorem slot_eq (i : Index) : slot i = i.toNat % 4096 := by
  have e : Param.indexMask.toNat = 2 ^ 12 - 1 := rfl
  unfold slot
  rw [BitVec.toNat_and, e, Nat.and_two_pow_sub_one_eq_mod]

/-- A frame's two slots differ. -/
theorem slot_succ_ne (i : Index) : slot (i + 1#32) ≠ slot i := by
  rw [slot_eq, slot_eq, BitVec.toNat_add]
  have : (1#32).toNat = 1 := rfl
  omega

/-- A frame at an even index lies in two neighbouring slots (`spec/20_memory.md` R61). -/
theorem slot_succ_of_even {i : Index} (h : i.toNat % 2 = 0) : slot (i + 1#32) = slot i + 1 := by
  rw [slot_eq, slot_eq, BitVec.toNat_add]
  have : (1#32).toNat = 1 := rfl
  omega

theorem ringWrite_wf (c : Chan) (i : Index) (l r : Sample) (s : State) (h : s.mem.wf = true) :
    (ringWrite c i l r s).mem.wf = true := by
  rw [Memory.wf_iff] at h ⊢
  refine ⟨fun d => ?_, h.2⟩
  simp only [ringWrite_mem, PerChan.get_set]
  split
  · exact Cells.write_wf (Cells.write_wf (h.1 c) (slot_lt _)) (slot_lt _)
  · exact h.1 d

theorem accAdd_wf (k : Nat) (dl dr : Int) (s : State) (h : s.mem.wf = true) (hk : k ≤ Param.mixMax) :
    (accAdd k dl dr s).mem.wf = true := by
  rw [Memory.wf_iff] at h ⊢
  exact ⟨h.1, Cells.write_wf h.2.1 (by omega), Cells.write_wf h.2.2 (by omega)⟩

theorem accClear_wf (n : Nat) (s : State) (h : s.mem.wf = true) : (accClear n s).mem.wf = true := by
  rw [Memory.wf_iff] at h ⊢
  exact ⟨h.1, Cells.clearBelow_wf n h.2.1, Cells.clearBelow_wf n h.2.2⟩

/-- What a ring cell holds after `RingWrite` (`spec/20_memory.md` R63). -/
theorem ringCell_ringWrite (c d : Chan) (i : Index) (l r : Sample) (a : Nat) (s : State) (h : s.mem.wf = true) :
    ringCell d a (ringWrite c i l r s) =
      if d = c ∧ a = slot i then l else if d = c ∧ a = slot (i + 1#32) then r else ringCell d a s := by
  have hc := ((Memory.wf_iff _).1 h).1 c
  unfold ringCell
  simp only [ringWrite_mem, PerChan.get_set]
  by_cases hd : d = c
  · subst hd
    simp only [if_true, true_and, storeFrame]
    rw [Cells.read_write (Cells.write_wf hc (slot_lt i)), Cells.read_write hc]
    by_cases h1 : a = slot i
    · subst h1
      simp [(slot_succ_ne i).symm]
    · simp [h1]
  · simp [hd]

/-- A ring write leaves the accumulator alone. -/
@[simp] theorem accCell_ringWrite (c : Chan) (i : Index) (l r : Sample) (side : Side) (k : Nat) (s : State) :
    accCell side k (ringWrite c i l r s) = accCell side k s := by cases side <;> rfl

/-- What an accumulator cell holds after an addition (`spec/42_resampler.md` R165). -/
theorem accCell_accAdd (k j : Nat) (dl dr : Int) (side : Side) (s : State) (h : s.mem.wf = true) :
    accCell side j (accAdd k dl dr s) =
      if j = k then BitVec.ofInt 32 ((accCell side k s).toInt + match side with | .left => dl | .right => dr)
      else accCell side j s := by
  have hm := (Memory.wf_iff _).1 h
  cases side
  · simp only [accCell, accAdd_mem, addCell]
    exact Cells.read_write hm.2.1 _ _ _
  · simp only [accCell, accAdd_mem, addCell]
    exact Cells.read_write hm.2.2 _ _ _

/-- An addition to the accumulator leaves the rings alone. -/
@[simp] theorem ringCell_accAdd (k : Nat) (dl dr : Int) (c : Chan) (a : Nat) (s : State) :
    ringCell c a (accAdd k dl dr s) = ringCell c a s := rfl

/-- What an accumulator cell holds after a clear (`spec/43_mixer.md` R192). -/
theorem accCell_accClear (n j : Nat) (side : Side) (s : State) :
    accCell side j (accClear n s) = if j < n then 0#32 else accCell side j s := by
  cases side <;> exact Cells.read_clearBelow n _ j

@[simp] theorem ringCell_accClear (n : Nat) (c : Chan) (a : Nat) (s : State) :
    ringCell c a (accClear n s) = ringCell c a s := rfl

/-- A ring cell depends on the memory alone. -/
theorem ringCell_congr {s t : State} (h : t.mem = s.mem) (c : Chan) (a : Nat) : ringCell c a t = ringCell c a s := by
  simp [ringCell, h]

/-- An accumulator cell depends on the memory alone. -/
theorem accCell_congr {s t : State} (h : t.mem = s.mem) (side : Side) (k : Nat) :
    accCell side k t = accCell side k s := by
  cases side <;> simp [accCell, h]

/-- A ring read depends on the memory alone. -/
theorem ringRead_congr {s t : State} (h : t.mem = s.mem) (c : Chan) (i : Index) : ringRead c i t = ringRead c i s := by
  simp [ringRead, ringCell_congr h]

end Machine

end Sys2Proof
end

