-- ==== Sys2Proof/Laws/Buffer.lean ====
section
/-! SUPPORT. The channel ring buffer: what a push does to each field it writes, and what the repair of the read cursor can
do (`spec/40_channel_buffer.md` R120 to R127). -/

namespace Sys2Proof.Machine

/-! ### Push -/

/-- The three push commands are one operation (R121 to R123). -/
theorem exec_pushInstr (c : Chan) (l r : Sample) (s : State) : exec (pushInstr c l r) s = .next (pushFrame c l r s) := by
  cases c <;> rfl

theorem pushFrame_mem (c : Chan) (l r : Sample) (s : State) :
    (pushFrame c l r s).mem = (ringWrite c (s.widx.get c) l r s).mem := by
  simp [pushFrame]

theorem pushFrame_widx (c : Chan) (l r : Sample) (s : State) :
    (pushFrame c l r s).widx = s.widx.set c (s.widx.get c + 2#32) := by
  simp [pushFrame]

theorem pushFrame_logOut (c : Chan) (l r : Sample) (s : State) :
    (pushFrame c l r s).logOut =
      if s.logen.get c then s.logOut.set c (s.logOut.get c ++ [logBeat .frame (frameWord l r)]) else s.logOut := by
  simp only [pushFrame, logCopy]
  by_cases h : s.logen.get c = true <;> simp [h]

theorem pushFrame_diagOut (c : Chan) (l r : Sample) (s : State) :
    (pushFrame c l r s).diagOut = (overflowCheck c s).diagOut := by
  simp [pushFrame]

/-- A diagnostic with a channel as its argument. -/
theorem diagBeat_chanArg (code : DiagCode) (c : Chan) :
    diagBeat code (chanArg c) = (code.code ++ 0#4) + BitVec.ofNat 8 c.num := by
  cases code <;> cases c <;> rfl

/-! ### The read cursor -/

/-- The lag depends on the two indices of the channel only. -/
theorem lag_congr {c : Chan} {s t : State} (hw : t.widx.get c = s.widx.get c) (hr : t.ridx.get c = s.ridx.get c) :
    lag c t = lag c s := by
  unfold lag
  rw [hw, hr]

theorem backlog_eq (c : Chan) (s : State) : backlog c s = lag c s / 2 := by
  simp only [backlog, Nat.shiftRight_eq_div_pow, pow_one]

/-- What the repair can do (R126): nothing, or move the cursor to a lag of exactly 4096 samples. -/
theorem resync_cases (c : Chan) (s : State) :
    (lag c s ≤ 4096 ∧ resync c s = s)
      ∨ (4096 < lag c s ∧ resync c s = setRidx c (s.widx.get c - 4096#32) s ∧ lag c (resync c s) = 4096) := by
  unfold resync Param.ringSamples
  split
  · rename_i h
    refine .inr ⟨h, rfl, ?_⟩
    unfold lag
    simp only [setRidx_widx, setRidx_ridx, PerChan.get_set_same, BitVec.toNat_sub, BitVec.toNat_ofNat]
    have := (s.widx.get c).isLt
    omega
  · rename_i h
    exact .inl ⟨by omega, rfl⟩

/-- A channel is empty when its lag holds no whole frame (`spec/10_state.md` R22). -/
theorem isEmpty_iff_lag (c : Chan) (s : State) : isEmpty c s = true ↔ lag c s < 2 := by
  simp only [isEmpty, backlog_eq, beq_iff_eq]
  omega

end Sys2Proof.Machine
end

