-- ==== Sys2Proof/Laws/PerInstr.lean ====
section
/-! SUPPORT. Per-instruction family RoundTrip: each command is decoded back from its beat on its own port
(`spec/30_encoding.md` R92 to R102, R108). -/

namespace Sys2Proof.Laws.RoundTrip

/-- Decoding the encoding of `i` on its own port gives `i`. -/
def Statement (i : Instr) : Prop := decodeBeat i.port (encode i) = .ok i

/-! ### Fields of the formats -/

/-- The low part of a concatenation. -/
theorem low_of_append {a b : Nat} (x : BitVec a) (y : BitVec b) : (x ++ y).extractLsb' 0 b = y := by
  rw [BitVec.extractLsb'_append_eq_of_add_le (by omega), BitVec.extractLsb'_eq_self]

/-- The high part of a concatenation. -/
theorem high_of_append {a b : Nat} (x : BitVec a) (y : BitVec b) : (x ++ y).extractLsb' b a = x := by
  rw [BitVec.extractLsb'_append_eq_of_le (by omega), Nat.sub_self, BitVec.extractLsb'_eq_self]

/-- A field above the low part of a concatenation. -/
theorem above_of_append {a b : Nat} (x : BitVec a) (y : BitVec b) (start len : Nat) :
    (x ++ y).extractLsb' (b + start) len = x.extractLsb' start len := by
  rw [BitVec.extractLsb'_append_eq_of_le (by omega), Nat.add_sub_cancel_left]

/-- A field inside the low part of a concatenation. -/
theorem within_of_append {a b : Nat} (x : BitVec a) (y : BitVec b) (start len : Nat) (h : start + len ≤ b) :
    (x ++ y).extractLsb' start len = y.extractLsb' start len :=
  BitVec.extractLsb'_append_eq_of_add_le h

theorem leftField_formatF (l r : Sample) : leftField (formatF l r) = l := low_of_append r l

theorem rightField_formatF (l r : Sample) : rightField (formatF l r) = r := high_of_append r l

theorem opField_formatC (op : BitVec 4) (ch : BitVec 2) (imm : BitVec 26) : opField (formatC op ch imm) = op :=
  (above_of_append (op ++ ch) imm 2 4).trans (high_of_append op ch)

theorem chField_formatC (op : BitVec 4) (ch : BitVec 2) (imm : BitVec 26) : chField (formatC op ch imm) = ch :=
  (above_of_append (op ++ ch) imm 0 2).trans (low_of_append op ch)

theorem immField_formatC (op : BitVec 4) (ch : BitVec 2) (imm : BitVec 26) : immField (formatC op ch imm) = imm :=
  low_of_append (op ++ ch) imm

theorem volLeftField_formatC (op : BitVec 4) (ch : BitVec 2) (l r : BitVec 13) :
    volLeftField (formatC op ch (l ++ r)) = l :=
  (within_of_append (op ++ ch) (l ++ r) 13 13 (by omega)).trans (high_of_append l r)

theorem volRightField_formatC (op : BitVec 4) (ch : BitVec 2) (l r : BitVec 13) :
    volRightField (formatC op ch (l ++ r)) = r :=
  (within_of_append (op ++ ch) (l ++ r) 0 13 (by omega)).trans (low_of_append l r)

theorem opField_formatM (op : BitVec 4) (rc : Bool) (n : BitVec 12) : opField (formatM op rc n) = op :=
  (above_of_append (op ++ 0#15 ++ BitVec.ofBool rc) n 16 4).trans
    ((above_of_append (op ++ 0#15) (BitVec.ofBool rc) 15 4).trans (high_of_append op 0#15))

theorem nField_formatM (op : BitVec 4) (rc : Bool) (n : BitVec 12) : nField (formatM op rc n) = n :=
  low_of_append (op ++ 0#15 ++ BitVec.ofBool rc) n

theorem rcField_formatM (op : BitVec 4) (rc : Bool) (n : BitVec 12) : rcField (formatM op rc n) = rc := by
  have h : (formatM op rc n).getLsbD 12 = (op ++ 0#15 ++ BitVec.ofBool rc).getLsbD 0 :=
    (BitVec.getLsbD_append (x := op ++ 0#15 ++ BitVec.ofBool rc) (y := n) (i := 12)).trans (by simp)
  have h' : (op ++ 0#15 ++ BitVec.ofBool rc).getLsbD 0 = (BitVec.ofBool rc).getLsbD 0 :=
    (BitVec.getLsbD_append (x := op ++ 0#15) (y := BitVec.ofBool rc) (i := 0)).trans (by simp)
  exact (h.trans h').trans (by cases rc <;> rfl)

theorem chanOf_chCode (c : Chan) : chanOf (chCode c) = some c := by cases c <;> rfl

/-- A channel field that names a channel is accepted. -/
theorem withChan_formatC (op : BitVec 4) (c : Chan) (imm : BitVec 26) (f : Chan → Instr) :
    withChan (formatC op (chCode c) imm) f = .ok (f c) := by
  simp only [withChan, chField_formatC, chanOf_chCode]

/-! ### The commands -/

theorem pushfDma (l r : Sample) : Statement (.pushfDma l r) := by
  simp only [Statement, Instr.port, decodeBeat, decodePush, encode, leftField_formatF, rightField_formatF]

theorem pushfStr (l r : Sample) : Statement (.pushfStr l r) := by
  simp only [Statement, Instr.port, decodeBeat, decodePush, encode, leftField_formatF, rightField_formatF]

theorem pushfAux (l r : Sample) : Statement (.pushfAux l r) := by
  simp only [Statement, Instr.port, decodeBeat, decodePush, encode, leftField_formatF, rightField_formatF]

theorem mixS16 (rc : Bool) (n : BitVec 12) : Statement (.mixS16 rc n) := by
  simp [Statement, Instr.port, decodeBeat, decodeMix, encode, opField_formatM, rcField_formatM, nField_formatM]

theorem mixF32 (rc : Bool) (n : BitVec 12) : Statement (.mixF32 rc n) := by
  simp [Statement, Instr.port, decodeBeat, decodeMix, encode, opField_formatM, rcField_formatM, nField_formatM]

theorem nop : Statement .nop := by
  simp [Statement, Instr.port, decodeBeat, decodeCfg, encode, opField_formatC]

theorem setrate (c : Chan) (rate : Rate) : Statement (.setrate c rate) := by
  simp [Statement, Instr.port, decodeBeat, decodeCfg, encode, opField_formatC, withChan_formatC, immField_formatC]

theorem setvol (c : Chan) (l r : BitVec 13) : Statement (.setvol c l r) := by
  simp [Statement, Instr.port, decodeBeat, decodeCfg, encode, opField_formatC, withChan_formatC,
    volLeftField_formatC, volRightField_formatC]

theorem setspeed (q : Speed) : Statement (.setspeed q) := by
  simp [Statement, Instr.port, decodeBeat, decodeCfg, encode, opField_formatC, immField_formatC]

theorem getspeed : Statement .getspeed := by
  simp [Statement, Instr.port, decodeBeat, decodeCfg, encode, opField_formatC]

theorem getavail (c : Chan) : Statement (.getavail c) := by
  simp [Statement, Instr.port, decodeBeat, decodeCfg, encode, opField_formatC, withChan_formatC]

theorem logstart (c : Chan) : Statement (.logstart c) := by
  simp [Statement, Instr.port, decodeBeat, decodeCfg, encode, opField_formatC, withChan_formatC]

theorem logstop (c : Chan) : Statement (.logstop c) := by
  simp [Statement, Instr.port, decodeBeat, decodeCfg, encode, opField_formatC, withChan_formatC]

theorem cfgbegin : Statement .cfgbegin := by
  simp [Statement, Instr.port, decodeBeat, decodeCfg, encode, opField_formatC]

theorem cfgcommit : Statement .cfgcommit := by
  simp [Statement, Instr.port, decodeBeat, decodeCfg, encode, opField_formatC]

end Sys2Proof.Laws.RoundTrip
end

