-- ==== Sys2Proof/Laws/Decode.lean ====
section
/-! SUPPORT. The fields of a beat and the decoder: a beat is put together again from its fields, every beat is a command
of its port or ILLEGAL as `spec/30_encoding.md` R101 says, and a command that is read belongs to the port. -/

namespace Sys2Proof

/-! ### Fields -/

/-- `op`, as a number. -/
theorem opField_toNat (w : Beat) : (opField w).toNat = w.toNat / 2 ^ 28 := by
  have := w.isLt
  simp only [opField, BitVec.extractLsb'_toNat, Nat.shiftRight_eq_div_pow]
  omega

/-- `ch`, as a number. -/
theorem chField_toNat (w : Beat) : (chField w).toNat = w.toNat / 2 ^ 26 % 4 := by
  simp only [chField, BitVec.extractLsb'_toNat, Nat.shiftRight_eq_div_pow]

/-- Only the channel field 3 names no channel. -/
theorem chanOf_none (x : BitVec 2) : chanOf x = none ↔ x.toNat = 3 := by
  have := x.isLt
  unfold chanOf
  split <;> (simp_all; try omega)

/-- A format-C beat is its three fields. -/
theorem formatC_of_fields (w : Beat) : formatC (opField w) (chField w) (immField w) = w := by
  unfold formatC opField chField immField
  rw [BitVec.extractLsb'_append_extractLsb'_eq_extractLsb' (by rfl),
    BitVec.extractLsb'_append_extractLsb'_eq_extractLsb' (by rfl)]
  exact BitVec.extractLsb'_eq_self

/-- SETVOL's two operands are the payload. -/
theorem volLeftField_append_volRightField (w : Beat) : volLeftField w ++ volRightField w = immField w := by
  unfold volLeftField volRightField immField
  rw [BitVec.extractLsb'_append_extractLsb'_eq_extractLsb' (by rfl)]

/-- A format-F beat is its two samples. -/
theorem formatF_of_fields (w : Beat) : formatF (leftField w) (rightField w) = w := by
  unfold formatF leftField rightField
  rw [BitVec.extractLsb'_append_extractLsb'_eq_extractLsb' (by rfl)]
  exact BitVec.extractLsb'_eq_self

/-- The bit `rc`, as a field of one bit. -/
theorem ofBool_rcField (w : Beat) : BitVec.ofBool (rcField w) = w.extractLsb' 12 1 := by
  apply BitVec.eq_of_getLsbD_eq
  intro i hi
  have : i = 0 := by omega
  subst this
  simp [rcField]

/-- A format-M beat is its fields and the fifteen reserved bits. -/
theorem formatM_of_fields (w : Beat) : opField w ++ w.extractLsb' 13 15 ++ BitVec.ofBool (rcField w) ++ nField w = w := by
  rw [ofBool_rcField]
  unfold opField nField
  rw [BitVec.extractLsb'_append_extractLsb'_eq_extractLsb' (by rfl),
    BitVec.extractLsb'_append_extractLsb'_eq_extractLsb' (by rfl),
    BitVec.extractLsb'_append_extractLsb'_eq_extractLsb' (by rfl)]
  exact BitVec.extractLsb'_eq_self

/-- A mask of a format-C beat masks each field. -/
theorem formatC_and (a a' : BitVec 4) (b b' : BitVec 2) (c c' : BitVec 26) :
    formatC a b c &&& formatC a' b' c' = formatC (a &&& a') (b &&& b') (c &&& c') := by
  unfold formatC; rw [BitVec.and_append, BitVec.and_append]

/-- A command with a channel is read exactly from the channel codes 0, 1 and 2. -/
theorem withChan_eq_ok {w : Beat} {f : Chan → Instr} {i : Instr} (h : withChan w f = .ok i) :
    ∃ c, chField w = chCode c ∧ i = f c := by
  unfold withChan chanOf at h
  have hlt := (chField w).isLt
  split at h
  · rename_i c hc
    simp only [Except.ok.injEq] at h
    refine ⟨c, ?_, h.symm⟩
    split at hc <;> first | (cases hc; apply BitVec.eq_of_toNat_eq; simpa [chCode]) | cases hc
  · cases h

/-! ### The decoder -/

/-- Every beat is a command of its port or ILLEGAL, as R101 says. -/
theorem decodeBeat_cases (p : Port) (w : Beat) :
    (∃ i, decodeBeat p w = .ok i ∧ i.port = p ∧ Machine.illegalOn p w = false)
      ∨ ∃ e, decodeBeat p w = .error e ∧ Machine.illegalOn p w = true := by
  have ho := opField_toNat w
  have hc := chField_toNat w
  have hlt := (opField w).isLt
  cases p with
  | push c => exact .inl ⟨decodePush c w, rfl, by cases c <;> rfl, rfl⟩
  | mix =>
    simp only [Machine.illegalOn, ← ho, decide_eq_true_eq, decide_eq_false_iff_not, decodeBeat, decodeMix]
    split
    · rename_i h; exact .inl ⟨_, rfl, rfl, fun a => a.1 h⟩
    · rename_i h; exact .inl ⟨_, rfl, rfl, fun a => a.2 h⟩
    · rename_i h1 h2; exact .inr ⟨_, rfl, h1, h2⟩
  | cfg =>
    have hw : ∀ (f : Chan → Instr), (∃ c, withChan w f = .ok (f c) ∧ (chField w).toNat ≠ 3)
        ∨ (withChan w f = .error .cfgChannel ∧ (chField w).toNat = 3) := by
      intro f
      unfold withChan
      cases h : chanOf (chField w) with
      | some c => exact .inl ⟨c, rfl, fun a => by rw [(chanOf_none _).2 a] at h; cases h⟩
      | none => exact .inr ⟨rfl, (chanOf_none _).1 h⟩
    simp only [Machine.illegalOn, ← ho, ← hc, decide_eq_true_eq, decide_eq_false_iff_not, decodeBeat, decodeCfg]
    split
    all_goals rename_i h
    all_goals first
      | exact .inl ⟨_, rfl, rfl, by simp [h]⟩
      | (rcases hw _ with ⟨c, e, n⟩ | ⟨e, n⟩
         · exact .inl ⟨_, e, rfl, by simp [h, n]⟩
         · exact .inr ⟨_, e, by simp [h, n]⟩)
      | skip
    rename_i h0 h1 h2 h3 h4 h5 h6 h7 h8 h9
    refine .inr ⟨_, rfl, .inl ?_⟩
    have : ∀ o : Nat, (o ≠ 0) → o ≠ 1 → o ≠ 2 → o ≠ 3 → o ≠ 4 → o ≠ 5 → o ≠ 6 → o ≠ 7 → o ≠ 8 → o ≠ 9 → 10 ≤ o := by omega
    apply this <;> assumption

/-- A command that is read from a port belongs to the port. -/
theorem port_of_decodeBeat {p : Port} {w : Beat} {i : Instr} (h : decodeBeat p w = .ok i) : i.port = p := by
  rcases decodeBeat_cases p w with ⟨j, hj, hp, _⟩ | ⟨e, he, _⟩
  · rw [h] at hj
    cases hj
    exact hp
  · rw [h] at he
    cases he

end Sys2Proof
end

