-- ==== Sys2Proof/Laws/Output.lean ====
section
/-! SUPPORT. The output converter and the output beats, as integers and fields (`spec/44_quantizer.md`,
`spec/30_encoding.md` R104, R106). -/

namespace Sys2Proof.Machine

/-! ### Conversion -/

/-- The clip loses nothing: its result is the clamped integer (R234). -/
theorem clipS16_toInt (q : Int) : (clipS16 q).toInt = min (max q (-32768)) 32767 := by
  unfold clipS16 clamp
  rw [BitVec.toInt_ofInt]
  exact Int.bmod_eq_of_le (by omega) (by omega)

/-- Truncation toward zero by floor divisions of non-negative numbers (`spec/00_scope.md` R11). -/
theorem tdiv_volDiv (v : Int) : v.tdiv 256 = if 0 ≤ v then v / 256 else -((-v) / 256) := by
  split
  · rename_i h
    exact Int.tdiv_eq_ediv_of_nonneg h
  · have : v = -(-v) := by omega
    conv_lhs => rw [this]
    rw [Int.neg_tdiv, Int.tdiv_eq_ediv_of_nonneg (by omega)]

/-- The dither value is the generator's top byte (R231). -/
theorem ditherOf_toNat (x : BitVec 32) : (ditherOf x).toNat = x.toNat / 2 ^ 24 := by
  have := x.isLt
  simp only [ditherOf, BitVec.extractLsb'_toNat, Nat.shiftRight_eq_div_pow]
  omega

theorem ditherOf_eq (x : BitVec 32) : ditherOf x = BitVec.ofNat 8 (x.toNat / 2 ^ 24) := by
  apply BitVec.eq_of_toNat_eq
  simp only [ditherOf, BitVec.extractLsb'_toNat, Nat.shiftRight_eq_div_pow, BitVec.toNat_ofNat]

open Sys2Proof.Laws.RoundTrip in
/-- The three fields of a binary32 pattern put together from them (R236). -/
theorem binary32_fields (sign : Bool) (e : BitVec 8) (m : BitVec 23) :
    let w : BitVec 32 := (BitVec.ofBool sign ++ e) ++ m
    w.getLsbD 31 = sign ∧ w.extractLsb' 23 8 = e ∧ w.extractLsb' 0 23 = m := by
  intro w
  refine ⟨?_, ?_, ?_⟩
  · have h : w.getLsbD 31 = (BitVec.ofBool sign ++ e).getLsbD 8 :=
      (BitVec.getLsbD_append (x := BitVec.ofBool sign ++ e) (y := m) (i := 31)).trans (by simp)
    have h' : (BitVec.ofBool sign ++ e).getLsbD 8 = (BitVec.ofBool sign).getLsbD 0 :=
      (BitVec.getLsbD_append (x := BitVec.ofBool sign) (y := e) (i := 8)).trans (by simp)
    exact (h.trans h').trans (by cases sign <;> rfl)
  · exact (above_of_append (BitVec.ofBool sign ++ e) m 0 8).trans (low_of_append (BitVec.ofBool sign) e)
  · exact low_of_append (BitVec.ofBool sign ++ e) m

/-! ### Beats -/

/-- The kind of a MIXOUT beat is its top two bits. -/
theorem mixBeat_kind (k : MixKind) (d : BitVec 32) : (mixBeat k d).extractLsb' 32 2 = k.code :=
  Laws.RoundTrip.high_of_append k.code d

/-- The kind of a LOGOUT beat is its top two bits. -/
theorem logBeat_kind (k : LogKind) (d : BitVec 32) : (logBeat k d).extractLsb' 32 2 = k.code :=
  Laws.RoundTrip.high_of_append k.code d

end Sys2Proof.Machine
end

