-- ==== Sys2Proof/Laws/Pull.lean ====
section
/-! SUPPORT. The resampler: which of its two cases a pull takes, and what the case with unread frames does to each field
of the read side (`spec/42_resampler.md` R165). -/

namespace Sys2Proof.Machine

/-! ### What the read side depends on -/

theorem stepNum_congr {c : Chan} {avail : Nat} {rc : Bool} {s t : State} (h1 : t.rate = s.rate) (h2 : t.speed = s.speed)
    (h3 : t.tuning = s.tuning) : stepNum c avail rc t = stepNum c avail rc s := by
  simp only [stepNum, h1, h2, h3]

theorem stepValue_congr {c : Chan} {avail : Nat} {rc : Bool} {s t : State} (h1 : t.rate = s.rate)
    (h2 : t.speed = s.speed) (h3 : t.tuning = s.tuning) (h4 : t.outRate = s.outRate) :
    stepValue c avail rc t = stepValue c avail rc s := by
  simp only [stepValue, stepNum_congr h1 h2 h3, h4]

theorem ringRead_congr_ring {s t : State} (h : t.mem.ring = s.mem.ring) (c : Chan) (i : Index) :
    ringRead c i t = ringRead c i s := by
  simp only [ringRead, ringCell, h]

theorem interp_congr {c : Chan} {avail : Nat} {s t : State} (h1 : t.mem.ring = s.mem.ring)
    (h2 : t.ridx.get c = s.ridx.get c) (h3 : t.frac.get c = s.frac.get c) : interp c avail t = interp c avail s := by
  simp only [interp, interpSide, tap, ringRead, ringCell, h1, h2, h3]

/-! ### The two cases of a pull -/

/-- With no whole frame unread, a pull holds the last pair. -/
theorem pullFrame_empty {c : Chan} {k : Nat} {rc : Bool} {s : State} (h : lag c s < 2) :
    pullFrame c k rc s = pullHeld c k s := by
  rcases resync_cases c s with ⟨_, e⟩ | ⟨h', _⟩
  · unfold pullFrame pullSynced
    rw [e, if_pos ((isEmpty_iff_lag _ _).2 h)]
  · omega

/-- With a frame unread, a pull interpolates in the repaired state and advances. -/
theorem pullFrame_fresh {c : Chan} {k : Nat} {rc : Bool} {s : State} (h : 2 ≤ lag c s) :
    pullFrame c k rc s = pullFresh c k rc (backlog c (resync c s)) (resync c s) := by
  unfold pullFrame pullSynced
  rw [if_neg]
  rw [isEmpty_iff_lag]
  rcases resync_cases c s with ⟨_, e⟩ | ⟨_, _, e⟩ <;> rw [e] <;> omega

/-- A pull never writes a ring. -/
theorem pullFrame_ring (c : Chan) (k : Nat) (rc : Bool) (s : State) : (pullFrame c k rc s).mem.ring = s.mem.ring := by
  unfold pullFrame pullSynced
  split <;> simp [pullHeld, pullFresh, accumulate]

/-- The read side of a channel after a pull of unread frames, field by field. -/
theorem pullFresh_read (c : Chan) (k : Nat) (rc : Bool) (avail : Nat) (u : State) :
    (pullFresh c k rc avail u).holdL = u.holdL.set c (interp c avail u).1
      ∧ (pullFresh c k rc avail u).holdR = u.holdR.set c (interp c avail u).2
      ∧ (pullFresh c k rc avail u).frac = u.frac.set c (BitVec.ofNat 16 (nextPos c avail rc u))
      ∧ (pullFresh c k rc avail u).ridx
          = u.ridx.set c (u.ridx.get c + BitVec.ofNat 32 (2 * min (nextPos c avail rc u >>> 16) avail)) := by
  have hp : nextPos c avail rc (setHold c (interp c avail u).1 (interp c avail u).2 u) = nextPos c avail rc u := rfl
  refine ⟨?_, ?_, ?_, ?_⟩
  · simp [pullFresh]
  · simp [pullFresh]
  · simp only [pullFresh, accumulate, accAdd_frac, advance, setRidx_frac, setFrac_frac, hp, setHold_frac]
  · simp only [pullFresh, accumulate, accAdd_ridx, advance, setRidx_ridx, setFrac_ridx, hp, setHold_ridx]

/-- The memory after a pull of unread frames: the pair, scaled by the volumes, added at frame `k`. -/
theorem pullFresh_mem (c : Chan) (k : Nat) (rc : Bool) (avail : Nat) (u : State) :
    (pullFresh c k rc avail u).mem = (accumulate c k (interp c avail u) u).mem := by
  simp [pullFresh, accumulate]

/-! ### Ranges -/

theorem sample_bounds (x : Sample) : -32768 ≤ x.toInt ∧ x.toInt ≤ 32767 := by
  have := BitVec.le_toInt x
  have := @BitVec.toInt_lt 16 x
  norm_num at *
  omega

/-- A value in the range of `spec/10_state.md` R33 is held without loss. -/
theorem hold_toInt_ofInt {x : Int} (h : -40960 ≤ x ∧ x ≤ 40958) : (BitVec.ofInt 18 x).toInt = x := by
  rw [BitVec.toInt_ofInt]
  exact Int.bmod_eq_of_le (by norm_num; omega) (by norm_num; omega)

end Sys2Proof.Machine
end

