-- ==== Sys2Proof/Laws/Steps.lean ====
section
/-! SUPPORT. What a step can do, said once: one inversion lemma for each agent, from which the properties of all steps
follow case by case. -/

namespace Sys2Proof.Machine

/-! ### Every outcome is a next state (`spec/60_exceptions.md` R267) -/

theorem exec_next (i : Instr) (s : State) : ∃ t, exec i s = .next t := by
  cases i <;> exact ⟨_, rfl⟩

theorem runBeat_next (p : Port) (w : Beat) (s : State) : ∃ t, runBeat p w s = .next t := by
  unfold runBeat
  split
  · exact exec_next ..
  · exact ⟨_, rfl⟩

theorem servePort_next (p : Port) (s : State) : ∃ t, servePort p s = .next t := by
  unfold servePort
  split
  · exact ⟨_, rfl⟩
  · exact runBeat_next ..

theorem agentStep_next (a : Agent) (s : State) : ∃ t, agentStep a s = .next t := by
  cases a with
  | producer c => exact servePort_next ..
  | consumer =>
    unfold agentStep
    dsimp only
    split
    · exact servePort_next ..
    · exact ⟨_, rfl⟩
  | config => exact servePort_next ..

/-! ### Serving a port -/

/-- A port with a beat pending: the beat is taken and run on the state without it. -/
theorem servePort_cons {p : Port} {s : State} {w : Beat} {rest : List Beat} (h : pending p s = w :: rest) :
    servePort p s = runBeat p w (setPending p rest s) := by
  simp only [servePort, takeBeat, h, List.tail_cons]

/-- The two things serving a port can do. -/
theorem servePort_cases {p : Port} {s t : State} (h : servePort p s = .next t) :
    (pending p s = [] ∧ t = s) ∨ ∃ w rest, pending p s = w :: rest ∧ runBeat p w (setPending p rest s) = .next t := by
  cases hp : pending p s with
  | nil =>
    unfold servePort at h
    rw [hp] at h
    cases h
    exact .inl ⟨rfl, rfl⟩
  | cons w rest =>
    rw [servePort_cons hp] at h
    exact .inr ⟨w, rest, rfl, h⟩

/-! ### The producers -/

/-- What a step of a producer can do (`spec/40_channel_buffer.md` R120): nothing, or push the pending frame. -/
theorem producer_cases {c : Chan} {s t : State} (h : agentStep (.producer c) s = .next t) :
    t = s ∨ ∃ w rest, s.pushIn.get c = w :: rest
      ∧ t = pushFrame c (leftField w) (rightField w) (setPending (.push c) rest s) := by
  rcases servePort_cases h with ⟨_, rfl⟩ | ⟨w, rest, hp, hr⟩
  · exact .inl rfl
  · refine .inr ⟨w, rest, hp, ?_⟩
    cases c <;> · cases hr; rfl

/-! ### The configuration agent -/

/-- What a command of `CFGPORT` can do to the state it is executed on (`spec/43_mixer.md` R199 to R208). -/
inductive ConfigEffect (s : State) : State → Prop where
  | nothing : ConfigEffect s s
  | write (x : CfgItem) : ConfigEffect s (cfgWrite x s)
  | answer (data : BitVec 32) : ConfigEffect s (emitRsp data s)
  | logStart (c : Chan) (off : s.logen.get c = false) :
    ConfigEffect s (emitLog c .start ((s.rate.get c).setWidth 32) (setLogen c true s))
  | logStop (c : Chan) (on : s.logen.get c = true) : ConfigEffect s (emitLog c .stop 0#32 (setLogen c false s))
  | warn (code : DiagCode) (arg : BitVec 4) (known : diagBeat code arg ∈ diagBeats) :
    ConfigEffect s (raiseDiag code arg s)
  | opened (closed : s.txn = false) : ConfigEffect s (setTxn true s)
  | committed (isOpen : s.txn = true) : ConfigEffect s (setTxn false (copyShadows s))

theorem logDiag_known (c : Chan) :
    diagBeat .logRestart (chanArg c) ∈ diagBeats ∧ diagBeat .logRestop (chanArg c) ∈ diagBeats := by
  cases c <;> decide

/-- A beat of `CFGPORT` has one of these effects. -/
theorem runBeat_cfg_cases {w : Beat} {s t : State} (h : runBeat .cfg w s = .next t) : ConfigEffect s t := by
  have illegal : ConfigEffect s (illegalStep .cfg s) := .warn _ _ (by decide)
  unfold runBeat at h
  split at h
  · rename_i i hd
    have hp := port_of_decodeBeat hd
    cases i <;> cases hp
    · cases h; exact .nothing
    · cases h; exact .write _
    · cases h; exact .write _
    · cases h; exact .write _
    · cases h; exact .answer _
    · cases h; exact .answer _
    · rename_i c
      cases h
      split
      · exact .warn _ _ (logDiag_known c).1
      · rename_i hl; exact .logStart c (by simpa using hl)
    · rename_i c
      cases h
      split
      · rename_i hl; exact .logStop c hl
      · exact .warn _ _ (logDiag_known c).2
    · cases h
      split
      · exact .warn _ _ (by decide)
      · rename_i hl; exact .opened (by simpa using hl)
    · cases h
      split
      · rename_i hl; exact .committed hl
      · exact .warn _ _ (by decide)
  · cases h; exact illegal

/-- What a step of the configuration agent can do. -/
theorem config_cases {s t : State} (h : agentStep .config s = .next t) :
    t = s ∨ ∃ w rest, s.cfgIn = w :: rest ∧ ConfigEffect (setPending .cfg rest s) t := by
  rcases servePort_cases h with ⟨_, rfl⟩ | ⟨w, rest, hp, hr⟩
  · exact .inl rfl
  · exact .inr ⟨w, rest, hp, runBeat_cfg_cases hr⟩

/-! ### The consumer -/

/-- A beat of `MIXPORT` starts a MIX command or is ILLEGAL. -/
theorem runBeat_mix_cases {w : Beat} {s t : State} (h : runBeat .mix w s = .next t) :
    (∃ fmt rc n, decodeBeat .mix w = .ok (mixInstr fmt rc n) ∧ t = mixStart fmt rc n.toNat s)
      ∨ (∃ e, decodeBeat .mix w = .error e) ∧ t = illegalStep .mix s := by
  unfold runBeat at h
  split at h
  · rename_i i hd
    refine .inl ?_
    unfold decodeBeat decodeMix at hd ⊢
    dsimp only at hd ⊢
    split at hd
    · cases hd; cases h; exact ⟨.s16, _, _, by simp_all [mixInstr], rfl⟩
    · cases hd; cases h; exact ⟨.f32, _, _, by simp_all [mixInstr], rfl⟩
    · cases hd
  · rename_i e hd
    cases h
    exact .inr ⟨⟨e, hd⟩, rfl⟩

/-- What a step of the consumer can do (`spec/43_mixer.md` R191): carry on the MIX in progress, nothing, start the
pending MIX, or drop an ILLEGAL beat. -/
theorem consumer_cases {s t : State} (h : agentStep .consumer s = .next t) :
    (s.seq ≠ .idle ∧ t = mixAdvance s)
      ∨ (s.seq = .idle ∧ s.mixIn = [] ∧ t = s)
      ∨ (s.seq = .idle ∧ ∃ w rest, s.mixIn = w :: rest ∧
          ((∃ fmt rc n, decodeBeat .mix w = .ok (mixInstr fmt rc n)
              ∧ t = setSeq (startSeq fmt rc n.toNat) (accClear n.toNat (setPending .mix rest s)))
            ∨ (∃ e, decodeBeat .mix w = .error e) ∧ t = illegalStep .mix (setPending .mix rest s))) := by
  unfold agentStep at h
  dsimp only at h
  split at h
  · rename_i hs
    rcases servePort_cases h with ⟨hp, rfl⟩ | ⟨w, rest, hp, hr⟩
    · exact .inr (.inl ⟨hs, hp, rfl⟩)
    · refine .inr (.inr ⟨hs, w, rest, hp, ?_⟩)
      rcases runBeat_mix_cases hr with ⟨fmt, rc, n, hd, rfl⟩ | hi
      · refine .inl ⟨fmt, rc, n, hd, ?_⟩
        have : (setPending .mix rest s).seq = .idle := by simpa using hs
        simp only [mixStart, this, if_true]
      · exact .inr hi
  · rename_i hs
    cases h
    exact .inl ⟨hs, rfl⟩

/-- The two MIX commands are one operation (`spec/43_mixer.md` R190, R193). -/
theorem exec_mixInstr (fmt : MixFormat) (rc : Bool) (n : BitVec 12) (s : State) :
    exec (mixInstr fmt rc n) s = .next (mixStart fmt rc n.toNat s) := by
  cases fmt <;> rfl

theorem consumer_pull {s : State} {fmt : MixFormat} {rc : Bool} {n : Nat} {c : Chan} {k : Nat}
    (h : s.seq = .pull fmt rc n c k) : agentStep .consumer s = .next (pullStep fmt rc n c k s) := by
  simp [agentStep, h, mixAdvance]

theorem consumer_emit {s : State} {fmt : MixFormat} {n k : Nat} (h : s.seq = .emit fmt n k) :
    agentStep .consumer s = .next (emitStep fmt n k s) := by
  simp [agentStep, h, mixAdvance]

theorem consumer_done {s : State} {n : Nat} (h : s.seq = .done n) :
    agentStep .consumer s = .next (doneStep n s) := by
  simp [agentStep, h, mixAdvance]

/-! ### The block -/

/-- A step is the step of the agent that steps next, or nothing. -/
theorem step_cases {s t : State} (h : step s = .next t) :
    (nextAgent s = none ∧ t = s) ∨ ∃ a, nextAgent s = some a ∧ agentStep a (takeTurn s) = .next t := by
  unfold step blockStep at h
  cases hn : nextAgent s with
  | none => rw [hn] at h; cases h; exact .inl ⟨rfl, rfl⟩
  | some a => rw [hn] at h; exact .inr ⟨a, rfl, h⟩

theorem step_agent {s : State} {a : Agent} (h : nextAgent s = some a) : step s = agentStep a (takeTurn s) := by
  simp only [step, blockStep, h]

/-- One step of a run. -/
theorem run_succ {s t : State} (k : Nat) (h : step s = .next t) : core.run (k + 1) s = core.run k t := by
  have : core.step s = .next t := h
  simp only [Host.Core.run, this]

end Sys2Proof.Machine
end

