-- ==== Sys2Proof/Tests/Slice0.lean ====
section
/-! SUPPORT. The model's own tests. Every expected value stands in the spec: the decode rows are those of
`spec/95_test_vectors.md` V-DEC, and each other test names its vector or the rule that gives the example. The last part
gives, for every statement with hypotheses, a state and operands that meet all of them. -/

namespace Sys2Proof.Tests

open Sys2Proof.Machine

/-- What a next state shows; `none` for any other outcome. -/
def see {α : Type} (o : Host.Outcome State Fault Refusal) (f : State → α) : Option α :=
  match o with
  | .next t => some (f t)
  | _ => none

/-! ## WellFormed refuses -/

theorem test_command_on_another_producers_port_is_ill_formed :
    Instr.wellFormedOn (.push .str) (.pushfDma 1#16 2#16) = false := by decide

theorem test_mix_on_cfgport_is_ill_formed : Instr.wellFormedOn .cfg (.mixS16 true 4#12) = false := by decide

theorem test_setter_on_mixport_is_ill_formed : Instr.wellFormedOn .mix (.setspeed 0x10000#26) = false := by decide

/-- The default parameters with other controller numbers. -/
def tuned (watermark num den : Nat) : Config :=
  { Config.default with tuning := { Config.default.tuning with lowWatermark := watermark, kpNum := num, kpDen := den } }

theorem test_default_parameters_are_well_formed : Config.default.wellFormed = true := by decide

theorem test_watermark_above_capacity_is_ill_formed : (tuned 2049 1 5).wellFormed = false := by decide

theorem test_gain_numerator_zero_is_ill_formed : (tuned 1280 0 5).wellFormed = false := by decide

theorem test_gain_denominator_zero_is_ill_formed : (tuned 1280 1 0).wellFormed = false := by decide

/-! ## Decoding, each word written out from `spec/30_encoding.md` -/

/-- V-DEC 1: right sample 0xFC18 in bits 31:16, left sample 0x03E8 in bits 15:0. -/
theorem test_decode_pushfDma : decodeBeat (.push .dma) 0xFC1803E8#32 = .ok (.pushfDma 1000#16 (-1000#16)) := by decide

/-- V-DEC 2. -/
theorem test_decode_pushfStr : decodeBeat (.push .str) 0x00000000#32 = .ok (.pushfStr 0#16 0#16) := by decide

/-- V-DEC 3. -/
theorem test_decode_pushfAux :
    decodeBeat (.push .aux) 0x7FFF8000#32 = .ok (.pushfAux (-32768#16) 32767#16) := by decide

/-- V-DEC 26 and 28: `op` 1, `rc` bit 12, `n` bits 11:0; bits 27:13 ignored. -/
theorem test_decode_mixS16 :
    decodeBeat .mix 0x10000004#32 = .ok (.mixS16 false 4#12)
      ∧ decodeBeat .mix 0x1FFFF004#32 = .ok (.mixS16 true 4#12) := by decide

/-- V-DEC 29 and 30. -/
theorem test_decode_mixF32 :
    decodeBeat .mix 0x20001006#32 = .ok (.mixF32 true 6#12)
      ∧ decodeBeat .mix 0x20000000#32 = .ok (.mixF32 false 0#12) := by decide

/-- V-DEC 4 and 5. -/
theorem test_decode_nop :
    decodeBeat .cfg 0x00000000#32 = .ok .nop ∧ decodeBeat .cfg 0x0FFFFFFF#32 = .ok .nop := by decide

/-- V-DEC 6 and 7. -/
theorem test_decode_setrate :
    decodeBeat .cfg 0x1000BB80#32 = .ok (.setrate .dma 48000#26)
      ∧ decodeBeat .cfg 0x13FFFFFF#32 = .ok (.setrate .dma 67108863#26) := by decide

/-- V-DEC 9 and 10. -/
theorem test_decode_setvol :
    decodeBeat .cfg 0x24201FFB#32 = .ok (.setvol .str 256#13 (-5#13))
      ∧ decodeBeat .cfg 0x22000FFF#32 = .ok (.setvol .dma (-4096#13) 4095#13) := by decide

/-- V-DEC 14 and 15. -/
theorem test_decode_setspeed :
    decodeBeat .cfg 0x30020000#32 = .ok (.setspeed 0x20000#26)
      ∧ decodeBeat .cfg 0x3C010000#32 = .ok (.setspeed 0x10000#26) := by decide

/-- V-DEC 16 and 17. -/
theorem test_decode_getspeed :
    decodeBeat .cfg 0x40000000#32 = .ok .getspeed ∧ decodeBeat .cfg 0x4FFFFFFF#32 = .ok .getspeed := by decide

/-- V-DEC 18. -/
theorem test_decode_getavail : decodeBeat .cfg 0x54000000#32 = .ok (.getavail .str) := by decide

/-- V-DEC 20. -/
theorem test_decode_logstart : decodeBeat .cfg 0x68000000#32 = .ok (.logstart .aux) := by decide

/-- V-DEC 21. -/
theorem test_decode_logstop : decodeBeat .cfg 0x70000000#32 = .ok (.logstop .dma) := by decide

/-- V-DEC 22. -/
theorem test_decode_cfgbegin : decodeBeat .cfg 0x80000000#32 = .ok .cfgbegin := by decide

/-- V-DEC 23. -/
theorem test_decode_cfgcommit : decodeBeat .cfg 0x90000000#32 = .ok .cfgcommit := by decide

/-- V-DEC 8, 19, 24, 25, 31 and 32: the ILLEGAL beats. -/
theorem test_decode_illegal :
    decodeBeat .cfg 0x1FFFFFFF#32 = .error .cfgChannel ∧ decodeBeat .cfg 0x5C000000#32 = .error .cfgChannel
      ∧ decodeBeat .cfg 0xA0000000#32 = .error .cfgOp ∧ decodeBeat .cfg 0xFFFFFFFF#32 = .error .cfgOp
      ∧ decodeBeat .mix 0x00000000#32 = .error .mixOp ∧ decodeBeat .mix 0x30000001#32 = .error .mixOp := by decide

/-- The beats of `spec/95_test_vectors.md` P2 and P9, and of R108's syntax table. -/
theorem test_encode :
    encode (.setvol .dma 10#13 20#13) = 0x20014014#32 ∧ encode (.setrate .aux 24000#26) = 0x18005DC0#32
      ∧ encode (.mixF32 true 8#12) = 0x20001008#32 ∧ encode (.pushfAux 300#16 (-301#16)) = 0xFED3012C#32 := by decide

/-! ## Push and backlog -/

/-- The reset state of a block with the flow diagnostics on. -/
def flowing : State := { State.reset with tuning := { State.reset.tuning with diagFlowEn := true } }

/-- A channel at given indices. -/
def at_ (c : Chan) (w r : Index) (s : State) : State := { s with widx := s.widx.set c w, ridx := s.ridx.set c r }

/-- V-DEC 1: the frame and the write index. -/
theorem test_pushfDma :
    see (exec (.pushfDma 1000#16 (-1000#16)) .reset) (fun t => (ringCell .dma 0 t, ringCell .dma 1 t, t.widx.get .dma))
      = some (1000#16, -1000#16, 2#32) := by decide

/-- V-PUSH 6: the last slot pair, and the index wraps. -/
theorem test_pushfDma_wraps :
    see (exec (.pushfDma 11#16 (-11#16)) (at_ .dma 0xFFFFFFFE#32 0xFFFFFFFE#32 .reset))
        (fun t => (ringCell .dma 4094 t, ringCell .dma 4095 t, t.widx.get .dma))
      = some (11#16, -11#16, 0#32) := by decide

/-- V-PUSH 2: OVERFLOW(1) and the write over the unread frame. -/
theorem test_pushfStr_overflows :
    see (exec (.pushfStr 7#16 8#16) (at_ .str 4096#32 0#32 flowing))
        (fun t => (t.diagOut, ringCell .str 0 t, ringCell .str 1 t, t.widx.get .str))
      = some ([0x31#8], 7#16, 8#16, 4098#32) := by decide

/-- V-PUSH 4: a lag of 4094 raises nothing. -/
theorem test_pushfStr_below_capacity :
    see (exec (.pushfStr 7#16 8#16) (at_ .str 4094#32 0#32 flowing)) (fun t => (t.diagOut, ringCell .str 4095 t))
      = some ([], 8#16) := by decide

/-- V-PUSH 5: the log copy. -/
theorem test_pushfAux_logs :
    see (exec (.pushfAux (-1#16) 0#16) (at_ .aux 6#32 0#32 (setLogen .aux true .reset)))
        (fun t => (ringCell .aux 6 t, t.widx.get .aux, t.logOut.get .aux))
      = some (0xFFFF#16, 8#32, [0x00000FFFF#34]) := by decide

/-- V-PUSH 8 (lag 4112, answer 2048) and V-PUSH 1 (five frames). -/
theorem test_getavail :
    see (exec (.getavail .str) (at_ .str 0x10#32 0xFFFFF000#32 .reset)) (·.cfgRsp) = some [0x800#32]
      ∧ see (exec (.getavail .dma) (at_ .dma 10#32 0#32 .reset)) (·.cfgRsp) = some [5#32] := by decide

/-! ## Configuration -/

/-- V-DEC 4: NOP leaves everything. -/
theorem test_nop : see (exec .nop flowing) id = some flowing := by decide

/-- V-DEC 7. -/
theorem test_setrate : see (exec (.setrate .dma 0x3FFFFFF#26) .reset) (·.rate) = some ⟨0x3FFFFFF#26, 48000#26, 3000#26⟩ := by
  decide

/-- V-DEC 9: both clamps. -/
theorem test_setvol :
    see (exec (.setvol .str 256#13 (-5#13)) .reset) (fun t => (t.vol.get .str, t.vol.get .dma))
      = some (⟨255#8, 0#8⟩, ⟨255#8, 255#8⟩) := by decide

/-- P9 step 3: inside a transaction the shadow and its dirty bit. -/
theorem test_setvol_shadow :
    see (exec (.setvol .dma 10#13 20#13) (setTxn true .reset)) (fun t => (t.shVol.get .dma, t.dirty, t.vol.get .dma))
      = some (⟨10#8, 20#8⟩, 0x08#7, ⟨255#8, 255#8⟩) := by decide

/-- V-DEC 14, and P9 step 4. -/
theorem test_setspeed :
    see (exec (.setspeed 0x20000#26) .reset) (·.speed) = some 0x20000#26
      ∧ see (exec (.setspeed 0x18000#26) (setTxn true .reset)) (fun t => (t.shSpeed, t.dirty, t.speed))
        = some (0x18000#26, 0x40#7, 0x10000#26) := by decide

/-- V-DEC 16. -/
theorem test_getspeed : see (exec .getspeed .reset) (·.cfgRsp) = some [0x00010000#32] := by decide

/-- V-DEC 20, and the second one (R206). -/
theorem test_logstart :
    see (exec (.logstart .aux) .reset) (fun t => (t.logen.get .aux, t.logOut.get .aux)) = some (true, [0x100000BB8#34])
      ∧ see (exec (.logstart .aux) (setLogen .aux true .reset)) (fun t => (t.diagOut, t.logOut.get .aux))
        = some ([0x12#8], []) := by decide

/-- V-DEC 21, and R207's example. -/
theorem test_logstop :
    see (exec (.logstop .dma) .reset) (·.diagOut) = some [0x20#8]
      ∧ see (exec (.logstop .dma) (setLogen .dma true .reset)) (fun t => (t.logen.get .dma, t.logOut.get .dma))
        = some (false, [0x200000000#34]) := by decide

/-- P9 steps 2 and 6. -/
theorem test_cfgbegin :
    see (exec .cfgbegin .reset) (fun t => (t.txn, t.dirty)) = some (true, 0#7)
      ∧ see (exec .cfgbegin { State.reset with txn := true, dirty := 0x48#7 }) (fun t => (t.diagOut, t.dirty))
        = some ([0x60#8], 0x48#7) := by decide

/-- P9 steps 1 and 8. -/
theorem test_cfgcommit :
    see (exec .cfgcommit .reset) (·.diagOut) = some [0x61#8]
      ∧ see (exec .cfgcommit
          { State.reset with txn := true, dirty := 0x48#7, shVol := ⟨⟨30#8, 40#8⟩, ⟨1#8, 1#8⟩, ⟨1#8, 1#8⟩⟩, shSpeed := 0x18000#26 })
        (fun t => (t.vol.get .dma, t.vol.get .str, t.speed, t.txn, t.dirty))
        = some (⟨30#8, 40#8⟩, ⟨255#8, 255#8⟩, 0x18000#26, false, 0#7) := by decide

/-! ## Interpolators and the step value -/

/-- V-LIN. -/
theorem test_lin :
    lin (-1) 0 0x8000 = -1 ∧ lin 0 (-1) 0x8000 = -1 ∧ lin (-32768) 32767 0xFFFF = 32766
      ∧ lin 32767 (-32768) 0xFFFF = -32768 ∧ lin (-200) (-301) 0x8000 = -251 ∧ lin 1600 3200 0x1000 = 1700 := by decide

/-- V-CUB. -/
theorem test_cub :
    cub 0 1000 2000 3000 0x8000 = 1500 ∧ cub (-32768) 32767 32767 (-32768) 0x8000 = 40958
      ∧ cub 32767 (-32768) (-32768) 32767 0x8000 = -40960 ∧ cub 100 200 (-300) 400 0x4000 = 89
      ∧ cub 100 200 (-300) 400 0xC000 = -246 ∧ cub 0 0 0 1 0x8000 = -1 ∧ cub 3000 0 0 0 0xA32F = -126 := by decide

/-- V-TAP: `avail` 1, 2 and 2048. -/
theorem test_tapOffset :
    [-1, 0, 1, 2].map (tapOffset 1) = [-1, 0, 0, 0] ∧ [-1, 0, 1, 2].map (tapOffset 2) = [-1, 0, 1, 1]
      ∧ [-1, 0, 1, 2].map (tapOffset 2048) = [0, 0, 1, 2] := by decide

/-- V-STEP, `Shift`. -/
theorem test_shift :
    [2048, 1280, 1279, 1276, 1275, 640, 281, 280, 0].map (shift Config.default.tuning)
      = [0, 0, 0, 0, 1, 128, 199, 200, 200] := by decide

/-- A block at a given rate, speed and output rate, channel 0. -/
def rated (rate : Rate) (speed : Speed) (out : Rate) : State :=
  { State.reset with rate := State.reset.rate.set .dma rate, speed := speed, outRate := out }

/-- V-STEP. -/
theorem test_stepValue :
    stepValue .dma 0 false (rated 32000#26 0x10000#26 48000#26) = 0xAAAA
      ∧ stepValue .dma 280 true (rated 48000#26 0x10000#26 48000#26) = 0xFEEE
      ∧ stepValue .dma 640 true (rated 32000#26 0x18000#26 48000#26) = 0xFF51
      ∧ stepValue .dma 0 false (rated 0#26 0x10000#26 48000#26) = 1
      ∧ stepValue .dma 0 false (rated 48000#26 0x10000#26 0#26) = 0xBB800000
      ∧ stepValue .dma 0 false (rated 0x3FFFFFF#26 0x3FFFFFF#26 1#26) = 0xFFFFFFFF
      ∧ stepValue .dma 1 true (rated 100#26 0x10000#26 48000#26) = 0 := by decide

/-! ## The MIX commands -/

/-- R191, START: the cells of the command are cleared and its operands latched. -/
theorem test_mixS16 :
    see (exec (.mixS16 true 2#12) { State.reset with mem := { State.reset.mem with accL := [(1, 5#32), (2, 6#32)] } })
        (fun t => (t.seq, t.mem.accL))
      = some (.pull .s16 true 2 .dma 0, [(2, 6#32)]) := by decide

/-- R191 and R196, START with a count and with none. -/
theorem test_mixF32 :
    see (exec (.mixF32 false 6#12) .reset) (·.seq) = some (.pull .f32 false 6 .dma 0)
      ∧ see (exec (.mixF32 true 0#12) .reset) (·.seq) = some (.done 0) := by decide

/-- Channel 0 of V-PULL at `k` = 1: five frames, the first and the last zero; the position is inside the first. -/
def pulling : State :=
  { at_ .dma 10#32 0#32 State.reset with
    mem := { State.reset.mem with
      ring := State.reset.mem.ring.set .dma
        [(2, 3000#16), (3, -3000#16), (4, 6000#16), (5, -6000#16), (6, 3000#16), (7, -3000#16)] }
    frac := State.reset.frac.set .dma 0xA999#16
    seq := .pull .f32 true 8 .dma 1 }

/-- V-PULL, `k` = 1: the held pair, the contribution and the advance. -/
theorem test_pull_step :
    see (agentStep .consumer pulling) (fun t =>
        (t.holdL.get .dma, accCell .left 1 t, accCell .right 1 t, t.ridx.get .dma, t.frac.get .dma))
      = some (1874#18, 477870#32, -478125#32, 2#32, 0x5332#16) := by decide

/-- V-PUSH 9: the repair, then an advance of one frame. -/
theorem test_pull_resyncs :
    (pullFrame .str 0 false (at_ .str 0x10#32 0xFFFFF000#32 .reset)).ridx.get .str = 0xFFFFF012#32 := by decide

/-- V-Q16. -/
theorem test_quantRaw :
    quantRaw 255#32 0#8 0#8 = 0 ∧ quantRaw (-257#32) 0#8 0#8 = -1 ∧ quantRaw 100#32 0#8 200#8 = 0
      ∧ quantRaw 100#32 200#8 0#8 = 1 ∧ quantRaw 8388607#32 255#8 0#8 = 32768
      ∧ quantRaw (-8388608#32) 0#8 255#8 = -32768 ∧ clipS16 32768 = 32767#16 ∧ clipS16 (-32769) = -32768#16 := by decide

/-- R233's example: the first EMIT step after reset with the default seed. -/
theorem test_emit_s16 :
    see (agentStep .consumer
          { State.reset with
            mem := { State.reset.mem with accL := [(0, 255000#32)], accR := [(0, -255000#32)] }
            seq := .emit .s16 1 0 })
        (fun t => (t.mixOut, t.prng, t.dprevL, t.dprevR, t.seq))
      = some ([0x0FC1D03E4#34], 0xFE465A8B#32, 167#8, 254#8, .done 1) := by decide

/-- V-F32. -/
theorem test_toF32 :
    [0, 1, -1, 25500, 4194304, 8355585, -8355840, 8388607, -8388608, 12345678, -25067520].map
        (fun x => toF32 (BitVec.ofInt 32 x))
      = [0x00000000#32, 0x34000000#32, 0xB4000000#32, 0x3B473800#32, 0x3F000000#32, 0x3F7EFE02#32, 0xBF7F0000#32,
        0x3F7FFFFE#32, 0xBF800000#32, 0x3F7FFFFE#32, 0xBF800000#32] := by decide

/-! ## The block -/

/-- The table's words, run as the first command after reset: V-DEC 6 and 26, and V-DEC 1's word read as a frame (log
entry 7). -/
theorem test_step_runs_the_placed_word :
    see (step (State.reset.withFetchWord 32 0x1000BB80)) (·.rate.get .dma) = some 48000#26
      ∧ see (step (State.reset.withFetchWord 32 0x10000004)) (·.rate.get .dma) = some 4#26
      ∧ see (step (State.reset.withFetchWord 32 0xFC1803E8)) (·.widx.get .dma) = some 2#32 := by decide

/-- V-DEC 31: an ILLEGAL beat of `MIXPORT`. -/
theorem test_step_drops_an_illegal_beat :
    see (step { State.reset with mixIn := [0#32, 0x20000000#32], sched := [.consumer] })
        (fun t => (t.diagOut, t.mixOut, t.mixIn, t.seq))
      = some ([0x51#8], [], [0x20000000#32], .idle) := by decide

/-- V-DEC 30: a MIX of count 0, both its steps. -/
theorem test_mix_of_count_zero :
    see (core.run 2 { State.reset with mixIn := [0x20000000#32] }) (fun t => (t.mixOut, t.seq))
      = some ([0x200000000#34], .idle) := by decide

/-! ## Witnesses: the hypotheses of the statements can be met

Each theorem names the statement, and applies to a concrete state and operands. -/

theorem witness_DecodeOfEncodeIsTheCommand :
    Instr.wellFormedOn .cfg (.setvol .aux (-4096#13) 4095#13) = true
      ∧ Instr.wellFormedOn (.push .aux) (.pushfAux (-32768#16) 32767#16) = true
      ∧ Instr.wellFormedOn .mix (.mixF32 true 4095#12) = true := by decide

theorem witness_UnusedBitsAreIgnored :
    decodeBeat .mix 0x1FFFF004#32 = .ok (.mixS16 true 4#12)
      ∧ 0x0FFFFFFF#32 &&& usedBits .nop = encode .nop
      ∧ 0x3C010000#32 &&& usedBits (.setspeed 0x10000#26) = encode (.setspeed 0x10000#26) := by decide

/-- Clause by clause at the edges of R101's ranges: `op` 0xA, `ch` 3, `op` 3 of `MIXPORT`, and their neighbours. -/
theorem witness_IllegalBeatsAreDroppedWithOneDiagnostic :
    illegalOn .cfg 0xA0000000#32 = true ∧ illegalOn .cfg 0x5C000000#32 = true ∧ illegalOn .mix 0x30000000#32 = true
      ∧ illegalOn .cfg 0x9FFFFFFF#32 = false ∧ illegalOn .cfg 0x58000000#32 = false
      ∧ illegalOn .cfg 0x3C000000#32 = false ∧ illegalOn .mix 0x2FFFFFFF#32 = false
      ∧ illegalOn (.push .str) 0xFFFFFFFF#32 = false := by decide

theorem witness_SlotsFollowTheSampleIndex : (0xFFFFFFFE#32).toNat % 2 = 0 := by decide

theorem witness_RingWriteStoresOneFrame :
    pulling.mem.wf = true ∧ (0xFFFFFFFE#32).toNat % 2 = 0 ∧ (4#32).toNat % 2 = 0 := by decide

theorem witness_PushfStoresTheFrameAndAdvances : pulling.mem.wf = true := by decide

theorem witness_OverflowKeepsTheNewestFrames :
    ∃ frames : List (Sample × Sample), pulling.mem.wf = true ∧ (pulling.widx.get .dma).toNat % 2 = 0
      ∧ lag .dma pulling + 2 * frames.length < 2 ^ 32 ∧ 2048 < frames.length :=
  ⟨List.replicate 2049 (7#16, -7#16), by decide, by decide,
    by rw [List.length_replicate, show lag .dma pulling = 10 by decide]; omega, by rw [List.length_replicate]; omega⟩

theorem witness_LogCarriesEveryPushedFrame : (setLogen .aux true State.reset).logen.get .aux = true := by decide

theorem witness_transaction_closed_and_open :
    pulling.txn = false ∧ (setTxn true pulling).txn = true := by decide

theorem witness_TransactionEqualsItsSettersAtOnce :
    (∀ x ∈ [Instr.setvol .dma 10#13 20#13, .setrate .aux 44100#26, .setspeed 0x18000#26], isSetter x = true)
      ∧ State.reset.txn = false := by decide

theorem witness_log_off_and_on :
    State.reset.logen.get .str = false ∧ (setLogen .str true State.reset).logen.get .str = true := by decide

/-- The two sides of R126's test: a lag of 4096 and a lag of 4098. -/
theorem witness_ResyncRepairsTheCursor :
    lag .str (at_ .str 4096#32 0#32 .reset) ≤ 4096 ∧ 4096 < lag .str (at_ .str 0#32 0xFFFFEFFE#32 .reset) := by decide

theorem witness_TapsAreClampedAtTheEdgesOnly : (1 ≤ 1 ∧ 1 ≤ 2048) ∧ 1 ≤ 2048 ∧ 2048 ≤ 2048 := by decide

theorem witness_LinIsTheFloorOfTheWeightedAverage : 65535 < 65536 ∧ (-32768 : Int) < 32767 := by decide

theorem witness_CubIsTheFloorOfTheCatmullRomSpline : 65535 < 65536 := by decide

theorem witness_InterpAtAnIntegerPositionIsTheFrame :
    1 ≤ 1 ∧ 1 ≤ 2048 ∧ (at_ .aux 2#32 0#32 State.reset).frac.get .aux = 0#16 := by decide

/-- Without correction, and with it at the watermark. -/
theorem witness_DoublingTheSpeedDoublesTheStep :
    (0x20000#26).toNat = 2 * State.reset.speed.toNat ∧ State.reset.tuning.lowWatermark ≤ 1280
      ∧ stepValue .dma 1280 true { State.reset with speed := 0x20000#26 } < 4294967295 := by decide

/-- A block at its first pull of channel 0. -/
def emptyPull : State := { State.reset with seq := .pull .s16 true 1 .dma 0 }

theorem witness_PullStepOfAnEmptyChannelHoldsTheLastPair :
    emptyPull.mem.wf = true ∧ emptyPull.seq = .pull .s16 true 1 .dma 0 ∧ lag .dma emptyPull < 2 := by decide

/-- A backlog of five frames, of one, and a cursor that needs the repair. -/
theorem witness_PullStepInterpolatesThenAdvances :
    (pulling.mem.wf = true ∧ pulling.seq = .pull .f32 true 8 .dma 1 ∧ 2 ≤ lag .dma pulling)
      ∧ 2 ≤ lag .dma (at_ .dma 2#32 0#32 emptyPull) ∧ 2 ≤ lag .dma (at_ .dma 8192#32 0#32 emptyPull) := by decide

/-- Without correction, and with a correction of 0 because the watermark is 0. -/
theorem witness_IdentityResampleReturnsTheFramesInOrder :
    let s := at_ .str 4#32 0#32 State.reset
    let s' := { s with tuning := { s.tuning with lowWatermark := 0 } }
    lag .str s ≤ 4096 ∧ max (s.rate.get .str).toNat 1 = max s.outRate.toNat 1 ∧ s.speed = 0x10000#26
      ∧ s.frac.get .str = 0#16 ∧ [0, 1] ≠ [] ∧ [0, 1].length ≤ backlog .str s
      ∧ shift s'.tuning 1 = 0 ∧ shift s'.tuning 2 = 0 := by decide

theorem witness_VolumeScalesTheContributionOnly :
    pulling.mem.wf = true ∧ (⟨0#8, 0#8⟩ : Vol) = ⟨0#8, 0#8⟩ ∧ (⟨255#8, 255#8⟩ : Vol) = ⟨255#8, 255#8⟩ := by decide

theorem witness_DitherGeneratorNeverDiesOut : 0x80000000#32 ≠ 0#32 := by decide

theorem witness_emit_steps :
    { State.reset with seq := .emit .s16 2 1 }.seq = .emit .s16 2 1
      ∧ { State.reset with seq := .emit .f32 2 1 }.seq = .emit .f32 2 1 := by decide

theorem witness_ToF32IsExactAndSaturates : (0#32).toInt = 0 := by decide

theorem witness_IntegerOutputStaysNearTheAccumulator : |(-8388095#32).toInt| < 2 ^ 23 - 512 := by decide

theorem witness_MixStartClearsTheAccumulatorAndLatches : State.reset.seq = .idle := by decide

theorem witness_MixportWaitsWhileAMixIsInProgress : pulling.seq ≠ .idle := by decide

theorem witness_MixOfCountZeroOnlyEmitsDone :
    let s := { State.reset with mixIn := [0x10000000#32], sched := [.consumer, .consumer] }
    decodeBeat .mix 0x10000000#32 = .ok (mixInstr .s16 false 0#12) ∧ s.seq = .idle
      ∧ s.mixIn = 0x10000000#32 :: [] ∧ s.sched = .consumer :: .consumer :: [] := by decide

/-- One frame: six consumer steps, with a producer and the configuration agent among them. -/
theorem witness_EveryMixCompletesAndDeliversItsFrames :
    let sch : List Agent := [.consumer, .producer .dma, .consumer, .config, .consumer, .consumer, .consumer, .consumer]
    let s := { State.reset with
      mixIn := [0x20001001#32], sched := sch, pushIn := ⟨[5#32], [], []⟩, cfgIn := [0x90000000#32] }
    s.seq = .idle ∧ s.mixIn = 0x20001001#32 :: [] ∧ decodeBeat .mix 0x20001001#32 = .ok (mixInstr .f32 true 1#12)
      ∧ s.sched = sch ++ [] ∧ sch.count .consumer = 4 * (1#12).toNat + 2 := by decide

theorem witness_BothMixCommandsPullIdentically :
    ∃ a b, exec (.mixS16 true 3#12) flowing = .next a ∧ exec (.mixF32 true 3#12) flowing = .next b :=
  ⟨_, _, rfl, rfl⟩

/-- A command and an ILLEGAL beat of `CFGPORT`, and a beat of `MIXPORT` with no MIX in progress. -/
theorem witness_StepRunsTheDecodedCommand :
    let s := { State.reset with cfgIn := [0x30020000#32, 0xA0000000#32], mixIn := [0x20001006#32], sched := [.config] }
    (nextAgent s = some .config ∧ pending Agent.config.port s = [0x30020000#32, 0xA0000000#32]
      ∧ decodeBeat Agent.config.port 0x30020000#32 = .ok (.setspeed 0x20000#26)
      ∧ decodeBeat Agent.config.port 0xA0000000#32 = .error .cfgOp)
    ∧ nextAgent { s with sched := [] } = some .consumer ∧ s.seq = .idle
      ∧ pending Agent.consumer.port { s with sched := [] } = [0x20001006#32] := by decide

/-- The last pull, the last emit and the DONE step: each keeps `SEQ` in its ranges. -/
theorem witness_StepOfTheConsumerCarriesOnTheMix :
    nextAgent pulling = some .consumer ∧ pulling.seq ≠ .idle ∧ pulling.seq.Legal
      ∧ (Seq.pull .s16 false 4095 .aux 4094).Legal ∧ (Seq.emit .s16 1 0).Legal ∧ (Seq.done 4095).Legal := by
  refine ⟨by decide, by decide, ?_, ?_, ?_, ?_⟩
  · show 1 < 8 ∧ 8 ≤ 4095
    omega
  · show 4094 < 4095 ∧ 4095 ≤ 4095
    omega
  · show 0 < 1 ∧ 1 ≤ 4095
    omega
  · show 4095 ≤ 4095
    omega

theorem witness_NoStepDisablesAnotherAgent :
    Agent.consumer ≠ .config ∧ enabled { pulling with cfgIn := [0#32] } .config = true
      ∧ ∃ t, agentStep .consumer { pulling with cfgIn := [0#32] } = .next t :=
  ⟨by decide, by decide, _, rfl⟩

/-- One state in which every agent has a step to take. -/
def busy : State :=
  { pulling with pushIn := ⟨[0xFC1803E8#32], [1#32], [2#32]⟩, cfgIn := [0x90000000#32, 0x50000000#32] }

theorem witness_EachPieceOfStateHasOneWriter :
    (∃ t, agentStep (.producer .dma) busy = .next t) ∧ (∃ t, agentStep .consumer busy = .next t)
      ∧ ∃ t, agentStep .config busy = .next t :=
  ⟨⟨_, rfl⟩, ⟨_, rfl⟩, ⟨_, rfl⟩⟩

theorem witness_ConsumerIgnoresTheTransaction : ∃ t, agentStep .consumer busy = .next t := ⟨_, rfl⟩

theorem witness_step_of_the_block : ∃ t, step busy = .next t := ⟨_, rfl⟩

/-- A state inside a MIX command, with two channels added to cell 0 and one to cell 1. -/
def summing : State :=
  { State.reset with
    mem := { State.reset.mem with accL := [(0, 20889600#32), (1, -10444800#32)] }
    seq := .pull .f32 false 2 .str 1 }

theorem witness_EveryStepKeepsTheInvariant : summing.Inv ∧ ∃ t, step summing = .next t := by
  refine ⟨⟨by decide, fun c => by cases c <;> decide, ?_, fun c => ?_, fun side j => ?_, fun _ => by decide⟩, _, rfl⟩
  · show 1 < 2 ∧ 2 ≤ 4095
    omega
  · have : holdInRange 0#18 := by
      unfold holdInRange
      decide
    cases c <;> exact ⟨this, this⟩
  · show (accCell side j summing).toInt.natAbs ≤ (if j < 1 then 2 else if j < 2 then 1 else 3) * 10444800
    cases side
    · show (Cells.read summing.mem.accL j).toInt.natAbs ≤ _
      simp only [summing, Cells.read]
      split
      · rename_i h
        subst h
        decide
      · split
        · rename_i h
          subst h
          decide
        · simp
    · show (Cells.read summing.mem.accR j).toInt.natAbs ≤ _
      simp [summing, Cells.read, State.reset, State.resetWith]

theorem witness_AccumulatorNeverOverflows : summing.Inv := witness_EveryStepKeepsTheInvariant.1

theorem witness_EveryRunEndsWithAllCommandsExecuted : busy.seq.Legal ∧ busy.sched = [] := by
  refine ⟨?_, by decide⟩
  show 1 < 8 ∧ 8 ≤ 4095
  omega

end Sys2Proof.Tests
end

section
/-! ## The state after reset (`spec/10_state.md` R42) -/

namespace Sys2Proof.Machine

/-- A memory that lists no cell holds the reset value everywhere. -/
@[simp] theorem Cells.read_nil {w : Nat} (a : Nat) : Cells.read ([] : Cells w) a = 0#w := rfl

section ResetRows

variable (cfg : Config)

@[simp] theorem ringCell_resetWith (c : Chan) (a : Nat) : ringCell c a (State.resetWith cfg) = 0#16 := by
  simp [ringCell, State.resetWith]

@[simp] theorem accCell_resetWith (side : Side) (k : Nat) : accCell side k (State.resetWith cfg) = 0#32 := by
  cases side
  case left => exact Cells.read_nil k
  case right => exact Cells.read_nil k

/-- The rows of R42 with one value per channel: the read and write position, the held pair, the control registers, the
shadows and the log stream. -/
theorem channel_resetWith (c : Chan) :
    let s := State.resetWith cfg
    s.widx.get c = 0#32 ∧ s.ridx.get c = 0#32 ∧ s.frac.get c = 0#16 ∧ s.holdL.get c = 0#18
      ∧ s.holdR.get c = 0#18 ∧ s.rate.get c = cfg.defaultRate.get c ∧ s.vol.get c = ⟨255#8, 255#8⟩
      ∧ s.logen.get c = false ∧ s.shRate.get c = 0#26 ∧ s.shVol.get c = ⟨0#8, 0#8⟩ ∧ s.logOut.get c = [] := by
  simp only [State.resetWith, PerChan.get_all, and_self]

/-- The rows of R42 that stand once for the block. -/
theorem block_resetWith :
    let s := State.resetWith cfg
    s.speed = 0x10000#26 ∧ s.outRate = cfg.outRate ∧ s.txn = false ∧ s.dirty = 0#7 ∧ s.shSpeed = 0#26
      ∧ s.dprevL = 0#8 ∧ s.dprevR = 0#8 ∧ s.prng = cfg.ditherSeed ∧ s.seq = .idle
      ∧ s.mixOut = [] ∧ s.cfgRsp = [] ∧ s.diagOut = [] := by
  simp only [State.resetWith, and_self]

end ResetRows

/-- Settles O51: the rings and the accumulator list no cell, a register of every channel is read off its row,
and every other register is a field of the reset state itself. -/
theorem resetGivesTheStatedValues : Obligations.ResetGivesTheStatedValues := fun cfg =>
  ⟨ringCell_resetWith cfg, accCell_resetWith cfg, channel_resetWith cfg, block_resetWith cfg⟩

end Sys2Proof.Machine
end

section
/-! ## A ring write (`spec/20_memory.md` R63) -/

namespace Sys2Proof.Machine

/-- The ring size is even, so a slot has the parity of its sample index (`spec/20_memory.md` R67). -/
theorem slot_mod_two (i : Index) : slot i % 2 = i.toNat % 2 := by
  rw [slot_eq]
  omega

/-- The left slot of a frame is never the right slot of a frame: one is even, the other odd. -/
theorem slot_ne_slot_succ_of_even {i j : Index} (hi : i.toNat % 2 = 0) (hj : j.toNat % 2 = 0) :
    slot i ≠ slot (j + 1#32) := by
  have hpi := slot_mod_two i
  have hpj := slot_mod_two j
  rw [slot_succ_of_even hj]
  omega

/-- Two frames at even indices share the right slot exactly when they share the left one. -/
theorem slot_succ_inj_of_even {i j : Index} (hi : i.toNat % 2 = 0) (hj : j.toNat % 2 = 0) :
    slot (i + 1#32) = slot (j + 1#32) ↔ slot i = slot j := by
  rw [slot_succ_of_even hi, slot_succ_of_even hj, Nat.add_right_cancel_iff]

/-- Frames at even indices lie in the same two slots or in disjoint ones, so a read gives the written pair or what it
gave before, never a mixture (`spec/20_memory.md` R63, R66). -/
theorem ringRead_ringWrite (c d : Chan) {i j : Index} (l r : Sample) (s : State) (h : s.mem.wf = true)
    (hi : i.toNat % 2 = 0) (hj : j.toNat % 2 = 0) :
    ringRead d j (ringWrite c i l r s) = if d = c ∧ slot j = slot i then (l, r) else ringRead d j s := by
  have hleft : ringCell d (slot j) (ringWrite c i l r s) =
      if d = c ∧ slot j = slot i then l else ringCell d (slot j) s := by
    simp only [ringCell_ringWrite c d i l r _ s h, slot_ne_slot_succ_of_even hj hi, and_false, if_false]
  have hright : ringCell d (slot (j + 1#32)) (ringWrite c i l r s) =
      if d = c ∧ slot j = slot i then r else ringCell d (slot (j + 1#32)) s := by
    simp only [ringCell_ringWrite c d i l r _ s h, (slot_ne_slot_succ_of_even hi hj).symm, slot_succ_inj_of_even hj hi,
      and_false, if_false]
  rw [ringRead, hleft, hright]
  split
  case isTrue => rfl
  case isFalse => rfl

/-- A ring write changes the memory alone. -/
theorem ringWrite_frame (c : Chan) (i : Index) (l r : Sample) (s : State) :
    ringWrite c i l r s = { s with mem := (ringWrite c i l r s).mem } := rfl

/-- Settles O7: the read after the write slot by slot, and the frames of the accumulator and of the other fields. -/
theorem ringWriteStoresOneFrame : Obligations.RingWriteStoresOneFrame := by
  intro c d i j l r s hwf hi hj
  have hread := ringRead_ringWrite c d l r s hwf hi hj
  rw [slot_eq, slot_eq] at hread
  exact ⟨hread, fun side k => accCell_ringWrite c i l r side k s, ringWrite_frame c i l r s⟩

end Sys2Proof.Machine
end

section
/-! ## Reading a command from the fields of a beat (`spec/30_encoding.md` R93 to R102) -/

namespace Sys2Proof

open Sys2Proof.Laws.RoundTrip (leftField_formatF rightField_formatF opField_formatC chField_formatC immField_formatC
  opField_formatM rcField_formatM nField_formatM high_of_append low_of_append chanOf_chCode)

/-- The fields of the beat are the command's code and its operands (`spec/30_encoding.md` R97 to R99): the one
description that the decoder, the encoder with its used bits, and the arithmetic on the word are each compared with. -/
def Instr.FieldsIn (w : Beat) : Instr → Prop
  | .pushfDma l r => leftField w = l ∧ rightField w = r
  | .pushfStr l r => leftField w = l ∧ rightField w = r
  | .pushfAux l r => leftField w = l ∧ rightField w = r
  | .mixS16 rc n => opField w = 0x1#4 ∧ rcField w = rc ∧ nField w = n
  | .mixF32 rc n => opField w = 0x2#4 ∧ rcField w = rc ∧ nField w = n
  | .nop => opField w = 0x0#4
  | .setrate c rate => opField w = 0x1#4 ∧ chField w = chCode c ∧ immField w = rate
  | .setvol c l r => opField w = 0x2#4 ∧ chField w = chCode c ∧ volLeftField w = l ∧ volRightField w = r
  | .setspeed q => opField w = 0x3#4 ∧ immField w = q
  | .getspeed => opField w = 0x4#4
  | .getavail c => opField w = 0x5#4 ∧ chField w = chCode c
  | .logstart c => opField w = 0x6#4 ∧ chField w = chCode c
  | .logstop c => opField w = 0x7#4 ∧ chField w = chCode c
  | .cfgbegin => opField w = 0x8#4
  | .cfgcommit => opField w = 0x9#4

/-! ### The decoder -/

theorem withChan_of_chField {w : Beat} {c : Chan} (h : chField w = chCode c) (f : Chan → Instr) :
    withChan w f = .ok (f c) := by
  simp only [withChan, h, chanOf_chCode]

theorem fieldsIn_of_decodeMix {w : Beat} {i : Instr} (h : decodeMix w = .ok i) : i.FieldsIn w := by
  unfold decodeMix at h
  split at h
  case h_1 hop => cases h; exact ⟨BitVec.eq_of_toNat_eq hop, rfl, rfl⟩
  case h_2 hop => cases h; exact ⟨BitVec.eq_of_toNat_eq hop, rfl, rfl⟩
  case h_3 => cases h

theorem fieldsIn_of_decodeCfg {w : Beat} {i : Instr} (h : decodeCfg w = .ok i) : i.FieldsIn w := by
  unfold decodeCfg at h
  split at h
  case h_1 hop => cases h; exact BitVec.eq_of_toNat_eq hop
  case h_2 hop => obtain ⟨c, hch, rfl⟩ := withChan_eq_ok h; exact ⟨BitVec.eq_of_toNat_eq hop, hch, rfl⟩
  case h_3 hop => obtain ⟨c, hch, rfl⟩ := withChan_eq_ok h; exact ⟨BitVec.eq_of_toNat_eq hop, hch, rfl, rfl⟩
  case h_4 hop => cases h; exact ⟨BitVec.eq_of_toNat_eq hop, rfl⟩
  case h_5 hop => cases h; exact BitVec.eq_of_toNat_eq hop
  case h_6 hop => obtain ⟨c, hch, rfl⟩ := withChan_eq_ok h; exact ⟨BitVec.eq_of_toNat_eq hop, hch⟩
  case h_7 hop => obtain ⟨c, hch, rfl⟩ := withChan_eq_ok h; exact ⟨BitVec.eq_of_toNat_eq hop, hch⟩
  case h_8 hop => obtain ⟨c, hch, rfl⟩ := withChan_eq_ok h; exact ⟨BitVec.eq_of_toNat_eq hop, hch⟩
  case h_9 hop => cases h; exact BitVec.eq_of_toNat_eq hop
  case h_10 hop => cases h; exact BitVec.eq_of_toNat_eq hop
  case h_11 => cases h

theorem fieldsIn_of_decodeBeat {p : Port} {w : Beat} {i : Instr} (h : decodeBeat p w = .ok i) : i.FieldsIn w := by
  cases p with
  | push c =>
    cases h
    cases c <;> exact ⟨rfl, rfl⟩
  | mix => exact fieldsIn_of_decodeMix h
  | cfg => exact fieldsIn_of_decodeCfg h

theorem decodeBeat_of_fieldsIn {w : Beat} {i : Instr} (h : i.FieldsIn w) : decodeBeat i.port w = .ok i := by
  cases i with
  | pushfDma l r | pushfStr l r | pushfAux l r =>
    obtain ⟨rfl, rfl⟩ := h
    rfl
  | mixS16 rc n | mixF32 rc n =>
    obtain ⟨hop, rfl, rfl⟩ := h
    simp [decodeBeat, Instr.port, decodeMix, hop]
  | setrate c rate =>
    obtain ⟨hop, hch, rfl⟩ := h
    simp [decodeBeat, Instr.port, decodeCfg, hop, withChan_of_chField hch]
  | setvol c l r =>
    obtain ⟨hop, hch, rfl, rfl⟩ := h
    simp [decodeBeat, Instr.port, decodeCfg, hop, withChan_of_chField hch]
  | setspeed q =>
    obtain ⟨hop, rfl⟩ := h
    simp [decodeBeat, Instr.port, decodeCfg, hop]
  | getavail c | logstart c | logstop c =>
    obtain ⟨hop, hch⟩ := h
    simp [decodeBeat, Instr.port, decodeCfg, hop, withChan_of_chField hch]
  | nop | getspeed | cfgbegin | cfgcommit =>
    have hop : opField w = _ := h
    simp [decodeBeat, Instr.port, decodeCfg, hop]

/-- The decoder reads a command exactly when it belongs to the port and the beat holds its fields. -/
theorem decodeBeat_eq_ok_iff {p : Port} {w : Beat} {i : Instr} :
    decodeBeat p w = .ok i ↔ i.port = p ∧ i.FieldsIn w := by
  constructor
  · exact fun h => ⟨port_of_decodeBeat h, fieldsIn_of_decodeBeat h⟩
  · rintro ⟨rfl, h⟩
    exact decodeBeat_of_fieldsIn h

/-! ### The formats -/

theorem eq_formatF_iff {w : Beat} {l r : Sample} : w = formatF l r ↔ leftField w = l ∧ rightField w = r := by
  constructor
  · rintro rfl
    exact ⟨leftField_formatF l r, rightField_formatF l r⟩
  · rintro ⟨rfl, rfl⟩
    exact (formatF_of_fields w).symm

theorem eq_formatC_iff {w : Beat} {op : BitVec 4} {ch : BitVec 2} {imm : BitVec 26} :
    w = formatC op ch imm ↔ opField w = op ∧ chField w = ch ∧ immField w = imm := by
  constructor
  · rintro rfl
    exact ⟨opField_formatC op ch imm, chField_formatC op ch imm, immField_formatC op ch imm⟩
  · rintro ⟨rfl, rfl, rfl⟩
    exact (formatC_of_fields w).symm

theorem formatC_inj {op op' : BitVec 4} {ch ch' : BitVec 2} {imm imm' : BitVec 26} :
    formatC op ch imm = formatC op' ch' imm' ↔ op = op' ∧ ch = ch' ∧ imm = imm' := by
  rw [eq_formatC_iff, opField_formatC, chField_formatC, immField_formatC]

theorem formatM_inj {op op' : BitVec 4} {rc rc' : Bool} {n n' : BitVec 12} :
    formatM op rc n = formatM op' rc' n' ↔ op = op' ∧ rc = rc' ∧ n = n' := by
  constructor
  · intro h
    refine ⟨?_, ?_, ?_⟩
    · simpa only [opField_formatM] using congrArg opField h
    · simpa only [rcField_formatM] using congrArg rcField h
    · simpa only [nField_formatM] using congrArg nField h
  · rintro ⟨rfl, rfl, rfl⟩
    rfl

theorem immField_eq_append_iff {w : Beat} {l r : BitVec 13} :
    immField w = l ++ r ↔ volLeftField w = l ∧ volRightField w = r := by
  rw [← volLeftField_append_volRightField]
  constructor
  · intro h
    constructor
    · simpa only [high_of_append] using congrArg (BitVec.extractLsb' 13 13) h
    · simpa only [low_of_append] using congrArg (BitVec.extractLsb' 0 13) h
  · rintro ⟨rfl, rfl⟩
    rfl

/-! ### The used bits (R102): the fields that each mask keeps -/

theorem and_allUsed (w : Beat) : w &&& 0xFFFFFFFF#32 = w := BitVec.and_allOnes

theorem and_opUsed (w : Beat) : w &&& 0xF0000000#32 = formatC (opField w) 0#2 0#26 := by
  have hmask : 0xF0000000#32 = formatC (BitVec.allOnes 4) 0#2 0#26 := by decide
  conv_lhs => rw [hmask, ← formatC_of_fields w, formatC_and]
  simp only [BitVec.and_allOnes, BitVec.and_zero]

theorem and_opChUsed (w : Beat) : w &&& 0xFC000000#32 = formatC (opField w) (chField w) 0#26 := by
  have hmask : 0xFC000000#32 = formatC (BitVec.allOnes 4) (BitVec.allOnes 2) 0#26 := by decide
  conv_lhs => rw [hmask, ← formatC_of_fields w, formatC_and]
  simp only [BitVec.and_allOnes, BitVec.and_zero]

theorem and_opImmUsed (w : Beat) : w &&& 0xF3FFFFFF#32 = formatC (opField w) 0#2 (immField w) := by
  have hmask : 0xF3FFFFFF#32 = formatC (BitVec.allOnes 4) 0#2 (BitVec.allOnes 26) := by decide
  conv_lhs => rw [hmask, ← formatC_of_fields w, formatC_and]
  simp only [BitVec.and_allOnes, BitVec.and_zero]

theorem and_mixUsed (w : Beat) : w &&& 0xF0001FFF#32 = formatM (opField w) (rcField w) (nField w) := by
  have hmask : 0xF0001FFF#32 = BitVec.allOnes 4 ++ 0#15 ++ BitVec.allOnes 1 ++ BitVec.allOnes 12 := by decide
  conv_lhs => rw [hmask, ← formatM_of_fields w, BitVec.and_append, BitVec.and_append, BitVec.and_append]
  simp only [BitVec.and_allOnes, BitVec.and_zero, formatM]

/-- A beat agrees with a command's encoding in the used bits exactly when it holds the command's fields. -/
theorem and_usedBits_eq_encode_iff {w : Beat} {i : Instr} :
    w &&& Machine.usedBits i = encode i ↔ i.FieldsIn w := by
  cases i with
  | pushfDma | pushfStr | pushfAux =>
    simp only [Machine.usedBits, encode, Instr.FieldsIn, and_allUsed, eq_formatF_iff]
  | mixS16 | mixF32 =>
    simp only [Machine.usedBits, encode, Instr.FieldsIn, and_mixUsed, formatM_inj]
  | setrate =>
    simp only [Machine.usedBits, encode, Instr.FieldsIn, and_allUsed, eq_formatC_iff]
  | setvol =>
    simp only [Machine.usedBits, encode, Instr.FieldsIn, and_allUsed, eq_formatC_iff, immField_eq_append_iff]
  | setspeed =>
    simp only [Machine.usedBits, encode, Instr.FieldsIn, and_opImmUsed, formatC_inj, true_and]
  | getavail | logstart | logstop =>
    simp only [Machine.usedBits, encode, Instr.FieldsIn, and_opChUsed, formatC_inj, and_true]
  | nop | getspeed | cfgbegin | cfgcommit =>
    simp only [Machine.usedBits, encode, Instr.FieldsIn, and_opUsed, formatC_inj, and_true]

/-- Settles O2: decoding to a command and agreeing with its encoding in the used bits are the same condition on the
fields of the beat. -/
theorem unusedBitsAreIgnored : Obligations.UnusedBitsAreIgnored := by
  constructor
  · intro p w i h
    exact (and_usedBits_eq_encode_iff.mpr (fieldsIn_of_decodeBeat h)).symm
  · intro i w h
    exact decodeBeat_of_fieldsIn (and_usedBits_eq_encode_iff.mp h)

/-! ### The fields as quotients and remainders of the word (R93 to R96, R100) -/

theorem opField_eq_iff {w : Beat} {op : BitVec 4} : opField w = op ↔ w.toNat / 2 ^ 28 = op.toNat := by
  rw [← BitVec.toNat_inj, opField_toNat]

theorem toNat_chCode (c : Chan) : (chCode c).toNat = c.num := by
  cases c <;> rfl

theorem chField_eq_chCode_iff {w : Beat} {c : Chan} : chField w = chCode c ↔ w.toNat / 2 ^ 26 % 4 = c.num := by
  rw [← BitVec.toNat_inj, chField_toNat, toNat_chCode]

/-- A field at bit 0 is a remainder of the word. -/
theorem lowField_eq_iff {w : Beat} {len : Nat} {x : BitVec len} :
    w.extractLsb' 0 len = x ↔ x.toNat = w.toNat % 2 ^ len := by
  rw [← BitVec.toNat_inj, BitVec.extractLsb'_toNat, Nat.shiftRight_zero, eq_comm]

theorem immField_eq_iff {w : Beat} {imm : BitVec 26} : immField w = imm ↔ imm.toNat = w.toNat % 2 ^ 26 :=
  lowField_eq_iff

theorem nField_eq_iff {w : Beat} {n : BitVec 12} : nField w = n ↔ n.toNat = w.toNat % 2 ^ 12 :=
  lowField_eq_iff

theorem leftField_eq_iff {w : Beat} {l : Sample} : leftField w = l ↔ l.toNat = w.toNat % 2 ^ 16 :=
  lowField_eq_iff

theorem rightField_eq_iff {w : Beat} {r : Sample} : rightField w = r ↔ r.toNat = w.toNat / 2 ^ 16 := by
  have hw := w.isLt
  rw [← BitVec.toNat_inj, rightField, BitVec.extractLsb'_toNat, Nat.shiftRight_eq_div_pow]
  omega

theorem volLeftField_eq_iff {w : Beat} {l : BitVec 13} :
    volLeftField w = l ↔ l.toNat = w.toNat % 2 ^ 26 / 2 ^ 13 := by
  rw [← BitVec.toNat_inj, volLeftField, BitVec.extractLsb'_toNat, Nat.shiftRight_eq_div_pow]
  omega

theorem volRightField_eq_iff {w : Beat} {r : BitVec 13} :
    volRightField w = r ↔ r.toNat = w.toNat % 2 ^ 26 % 2 ^ 13 := by
  rw [Nat.mod_mod_of_dvd _ (by decide)]
  exact lowField_eq_iff

theorem rcField_eq_iff {w : Beat} {rc : Bool} : rcField w = rc ↔ rc = decide (w.toNat / 2 ^ 12 % 2 = 1) := by
  rw [rcField, BitVec.getLsbD, Nat.testBit_eq_decide_div_mod_eq, eq_comm]

/-- A beat of a `PUSH` port is the frame of its two halves (R93, R97). -/
theorem decodeBeat_push_iff {c : Chan} {w : Beat} {i : Instr} :
    decodeBeat (.push c) w = .ok i ↔
      ∃ l r, i = Machine.pushInstr c l r ∧ l.toNat = w.toNat % 2 ^ 16 ∧ r.toNat = w.toNat / 2 ^ 16 := by
  have hdec : decodeBeat (.push c) w = .ok (Machine.pushInstr c (leftField w) (rightField w)) := by
    cases c <;> rfl
  simp only [hdec, Except.ok.injEq, ← leftField_eq_iff, ← rightField_eq_iff]
  constructor
  · rintro rfl
    exact ⟨_, _, rfl, rfl, rfl⟩
  · rintro ⟨_, _, rfl, rfl, rfl⟩
    rfl

/-- Settles O3: a command is read exactly when the beat holds its fields, and each field is a quotient or a remainder
of the word. -/
theorem decodingReadsTheFieldsOfTheBeat : Obligations.DecodingReadsTheFieldsOfTheBeat := by
  intro w
  refine ⟨fun c i => decodeBeat_push_iff, fun i => ?_, fun i => ?_⟩
  · rw [decodeBeat_eq_ok_iff]
    cases i <;> simp [Instr.port, Instr.FieldsIn, opField_eq_iff, rcField_eq_iff, nField_eq_iff, and_assoc]
  · rw [decodeBeat_eq_ok_iff]
    cases i <;> simp [Instr.port, Instr.FieldsIn, opField_eq_iff, chField_eq_chCode_iff, immField_eq_iff,
      volLeftField_eq_iff, volRightField_eq_iff]

end Sys2Proof
end

section
/-! ## ILLEGAL beats (`spec/30_encoding.md` R101, `spec/60_exceptions.md` R252) -/

namespace Sys2Proof.Machine

/-- A beat that is a command of its port is executed as that command. -/
theorem runBeat_of_decodeBeat_ok {p : Port} {w : Beat} {i : Instr} (h : decodeBeat p w = .ok i) (s : State) :
    runBeat p w s = exec i s := by
  simp only [runBeat, h]

/-- A beat that is no command of its port is executed as the ILLEGAL step. -/
theorem runBeat_of_decodeBeat_error {p : Port} {w : Beat} {e : Illegal} (h : decodeBeat p w = .error e) (s : State) :
    runBeat p w s = .next (illegalStep p s) := by
  simp only [runBeat, h]

/-- The ILLEGAL_CMD beat of a port (R251). -/
theorem diagBeat_illegalCmd (p : Port) :
    diagBeat .illegalCmd (illegalArg p) = if p = .mix then 0x51#8 else 0x50#8 := by
  cases p with
  | push c => rw [if_neg (by simp), illegalArg]; rfl
  | mix => rfl
  | cfg => rfl

theorem illegalStep_eq (p : Port) (s : State) :
    illegalStep p s = { s with diagOut := s.diagOut ++ [if p = .mix then 0x51#8 else 0x50#8] } := by
  rw [illegalStep, raiseDiag, diagBeat_illegalCmd]

/-- Settles O4: a beat is a command of its port or ILLEGAL as R101 says, never both, and the ILLEGAL step is the one
diagnostic. -/
theorem illegalBeatsAreDroppedWithOneDiagnostic : Obligations.IllegalBeatsAreDroppedWithOneDiagnostic := by
  intro p w s
  rcases decodeBeat_cases p w with ⟨i, hdec, hport, hlegal⟩ | ⟨e, hdec, hillegal⟩
  · refine ⟨fun hillegal => ?_, fun _ => ⟨i, hdec, hport, runBeat_of_decodeBeat_ok hdec s⟩⟩
    exact absurd hillegal (by simp [hlegal])
  · refine ⟨fun _ => ?_, fun hlegal => absurd hillegal (by simp [hlegal])⟩
    rw [runBeat_of_decodeBeat_error hdec, illegalStep_eq]

end Sys2Proof.Machine
end

section
/-! ## A push (`spec/40_channel_buffer.md` R120 to R123) -/

namespace Sys2Proof.Machine

/-- What a ring cell holds after a push: the frame in the two slots of the write index, elsewhere what it held (R120). -/
theorem ringCell_pushFrame (c d : Chan) (l r : Sample) (a : Nat) (s : State) (h : s.mem.wf = true) :
    ringCell d a (pushFrame c l r s) =
      if d = c ∧ a = slot (s.widx.get c) then l
      else if d = c ∧ a = slot (s.widx.get c + 1#32) then r else ringCell d a s :=
  (ringCell_congr (pushFrame_mem c l r s) d a).trans (ringCell_ringWrite c d (s.widx.get c) l r a s h)

/-- A push leaves the accumulator alone. -/
@[simp] theorem accCell_pushFrame (c : Chan) (l r : Sample) (side : Side) (k : Nat) (s : State) :
    accCell side k (pushFrame c l r s) = accCell side k s :=
  (accCell_congr (pushFrame_mem c l r s) side k).trans (accCell_ringWrite c (s.widx.get c) l r side k s)

/-- OVERFLOW is raised exactly when flow diagnostics are on and the slot about to be written holds an unread frame
(R120, `spec/60_exceptions.md` R254). -/
theorem overflowCheck_diagOut (c : Chan) (s : State) :
    (overflowCheck c s).diagOut =
      if s.tuning.diagFlowEn = true ∧ 4096 ≤ lag c s then s.diagOut ++ [0x30#8 + BitVec.ofNat 8 c.num]
      else s.diagOut := by
  have hbeat : diagBeat .overflow (chanArg c) = 0x30#8 + BitVec.ofNat 8 c.num := diagBeat_chanArg .overflow c
  unfold overflowCheck raiseFlow Param.ringSamples
  by_cases hlag : 4096 ≤ lag c s
  case neg => simp only [hlag, and_false, if_false]
  case pos =>
    by_cases hflow : s.tuning.diagFlowEn = true
    case pos => simp only [hlag, hflow, and_self, if_true, raiseDiag_diagOut, hbeat]
    case neg => simp only [hlag, hflow, false_and, if_true, if_false, Bool.false_eq_true]

/-- A push writes the memory, the write index, the log and DIAGOUT, and no other field (R120). -/
theorem pushFrame_frame (c : Chan) (l r : Sample) (s : State) :
    pushFrame c l r s =
      { s with
        mem := (pushFrame c l r s).mem
        widx := (pushFrame c l r s).widx
        logOut := (pushFrame c l r s).logOut
        diagOut := (pushFrame c l r s).diagOut } := by
  ext1
  all_goals simp

/-- Settles O8: each push command is `PushFrame`, taken field by field. -/
theorem pushfStoresTheFrameAndAdvances : Obligations.PushfStoresTheFrameAndAdvances := by
  intro c l r s hwf
  refine ⟨pushFrame c l r s, exec_pushInstr c l r s, fun d a => ringCell_pushFrame c d l r a s hwf,
    fun side k => accCell_pushFrame c l r side k s, pushFrame_widx c l r s, pushFrame_logOut c l r s, ?_,
    pushFrame_frame c l r s⟩
  exact (pushFrame_diagOut c l r s).trans (overflowCheck_diagOut c s)

end Sys2Proof.Machine
end

section
/-! ## The repair of the read cursor (`spec/40_channel_buffer.md` R125, R126) -/

namespace Sys2Proof.Machine

/-- The repair writes the read indices alone (R126). -/
theorem resync_frame (c : Chan) (s : State) : resync c s = { s with ridx := (resync c s).ridx } := by
  rcases resync_cases c s with ⟨-, heq⟩ | ⟨-, heq, -⟩
  case inl => rw [heq]
  case inr => rw [heq, setRidx]

/-- A lag the ring can hold needs no repair (R126). -/
theorem resync_of_lag_le {c : Chan} {s : State} (h : lag c s ≤ 4096) : resync c s = s := by
  rcases resync_cases c s with ⟨-, heq⟩ | ⟨hgt, -, -⟩
  case inl => exact heq
  case inr => omega

/-- A longer lag moves the cursor to the oldest frame the ring still holds (R126). -/
theorem resync_of_lt_lag {c : Chan} {s : State} (h : 4096 < lag c s) :
    resync c s = setRidx c (s.widx.get c - 4096#32) s := by
  rcases resync_cases c s with ⟨hle, -⟩ | ⟨-, heq, -⟩
  case inl => omega
  case inr => exact heq

/-- After the repair the lag is one the ring can hold (R126). -/
theorem lag_resync_le (c : Chan) (s : State) : lag c (resync c s) ≤ 4096 := by
  rcases resync_cases c s with ⟨hle, heq⟩ | ⟨-, -, hlag⟩
  case inl => rwa [heq]
  case inr => exact hlag.le

/-- After the repair the backlog is at most the capacity of the ring (R125). -/
theorem backlog_resync_le (c : Chan) (s : State) : backlog c (resync c s) ≤ 2048 := by
  have hlag := lag_resync_le c s
  rw [backlog_eq]
  omega

/-- Settles O18, by the two cases of the repair. -/
theorem resyncRepairsTheCursor : Obligations.ResyncRepairsTheCursor := by
  intro c s
  refine ⟨resync_frame c s, fun hle => ?_, fun hgt => ?_, lag_resync_le c s, backlog_resync_le c s⟩
  · rw [resync_of_lag_le hle]
  · rw [resync_of_lt_lag hgt, setRidx_ridx]

end Sys2Proof.Machine
end

section
/-! ## The interpolators (`spec/41_interpolators.md` R140 to R147) -/

namespace Sys2Proof.Machine

/-! ### The linear interpolator (R142) -/

/-- `Lin` is the weighted average of its samples, rounded toward minus infinity. -/
theorem lin_eq_ediv (s0 s1 : Int) (f : Nat) : lin s0 s1 f = (s0 * (65536 - f) + s1 * f) / 65536 := by
  have hsum : s0 * (65536 - (f : Int)) + s1 * f = (s1 - s0) * f + s0 * 65536 := by ring
  rw [hsum, Int.add_mul_ediv_right _ _ (by decide), add_comm, lin, Int.shiftRight_eq_div_pow]
  norm_num

@[simp] theorem lin_zero (s0 s1 : Int) : lin s0 s1 0 = s0 := by simp [lin]

/-- An average of two samples lies in every range that holds both. -/
theorem lin_bounds {lo hi s0 s1 : Int} {f : Nat} (h0 : lo ≤ s0 ∧ s0 ≤ hi) (h1 : lo ≤ s1 ∧ s1 ≤ hi) (hf : f ≤ 65536) :
    lo ≤ lin s0 s1 f ∧ lin s0 s1 f ≤ hi := by
  have hg : 0 ≤ 65536 - (f : Int) := by omega
  have hlo := add_le_add (mul_le_mul_of_nonneg_right h0.1 hg) (mul_le_mul_of_nonneg_right h1.1 (Int.natCast_nonneg f))
  have hhi := add_le_add (mul_le_mul_of_nonneg_right h0.2 hg) (mul_le_mul_of_nonneg_right h1.2 (Int.natCast_nonneg f))
  rw [← mul_add, sub_add_cancel] at hlo hhi
  rw [lin_eq_ediv]
  omega

/-! ### The cubic interpolator (R143) -/

/-- The four taps under the Catmull-Rom weights at `t = f / (f + g)`, scaled by `2 * (f + g) ^ 3`: the inner two weights
are positive, the outer two negative (R146). -/
def catmullRom (sm1 s0 s1 s2 f g : Int) : Int :=
  g * (f ^ 2 + 6 * f * g + 2 * g ^ 2) * s0 + f * (2 * f ^ 2 + 6 * f * g + g ^ 2) * s1
    - f * g ^ 2 * sm1 - f ^ 2 * g * s2

/-- `Cub` is the weighted sum of its samples, rounded toward minus infinity. -/
theorem cub_eq_ediv (sm1 s0 s1 s2 : Int) (f : Nat) :
    cub sm1 s0 s1 s2 f = catmullRom sm1 s0 s1 s2 f (65536 - f) / 2 ^ 49 := by
  have hsum : catmullRom sm1 s0 s1 s2 f (65536 - f) = cubNum sm1 s0 s1 s2 f + s0 * 2 ^ 49 := by
    simp only [catmullRom, cubNum, Int.shiftLeft_eq]
    push_cast
    ring
  rw [hsum, Int.add_mul_ediv_right _ _ (by decide), add_comm, cub, Int.shiftRight_eq_div_pow]
  norm_num

@[simp] theorem cub_zero (sm1 s0 s1 s2 : Int) : cub sm1 s0 s1 s2 0 = s0 := by simp [cub, cubNum]

theorem catmullRom_neg (sm1 s0 s1 s2 f g : Int) :
    catmullRom (-sm1) (-s0) (-s1) (-s2) f g = -catmullRom sm1 s0 s1 s2 f g := by
  unfold catmullRom
  ring

/-- The spline overshoots a range that holds its samples by at most an eighth of the width of the range: the outer
weights sum to `-(t - t ^ 2) / 2`, and `t - t ^ 2` is at most a quarter (R146). -/
theorem catmullRom_le {lo hi sm1 s0 s1 s2 f g : Int} (hm : lo ≤ sm1) (h0 : s0 ≤ hi) (h1 : s1 ≤ hi) (h2 : lo ≤ s2)
    (hlohi : lo ≤ hi) (hf : 0 ≤ f) (hg : 0 ≤ g) :
    8 * catmullRom sm1 s0 s1 s2 f g ≤ 2 * (f + g) ^ 3 * (8 * hi + (hi - lo)) := by
  have hw0 := mul_le_mul_of_nonneg_left h0 (show 0 ≤ g * (f ^ 2 + 6 * f * g + 2 * g ^ 2) by positivity)
  have hw1 := mul_le_mul_of_nonneg_left h1 (show 0 ≤ f * (2 * f ^ 2 + 6 * f * g + g ^ 2) by positivity)
  have hwm := mul_le_mul_of_nonneg_left hm (show 0 ≤ f * g ^ 2 by positivity)
  have hw2 := mul_le_mul_of_nonneg_left h2 (show 0 ≤ f ^ 2 * g by positivity)
  have hquarter : 4 * (f * g) * ((f + g) * (hi - lo)) ≤ (f + g) ^ 2 * ((f + g) * (hi - lo)) :=
    mul_le_mul_of_nonneg_right (by linarith [sq_nonneg (f - g)])
      (mul_nonneg (add_nonneg hf hg) (sub_nonneg.2 hlohi))
  unfold catmullRom
  linarith

theorem le_catmullRom {lo hi sm1 s0 s1 s2 f g : Int} (hm : sm1 ≤ hi) (h0 : lo ≤ s0) (h1 : lo ≤ s1) (h2 : s2 ≤ hi)
    (hlohi : lo ≤ hi) (hf : 0 ≤ f) (hg : 0 ≤ g) :
    2 * (f + g) ^ 3 * (8 * lo - (hi - lo)) ≤ 8 * catmullRom sm1 s0 s1 s2 f g := by
  have hneg := catmullRom_le (neg_le_neg hm) (neg_le_neg h0) (neg_le_neg h1) (neg_le_neg h2) (neg_le_neg hlohi) hf hg
  rw [catmullRom_neg] at hneg
  linarith

/-- `Cub` overshoots a range that holds its samples by at most an eighth of the width, rounded down with the result. -/
theorem cub_bounds {lo hi sm1 s0 s1 s2 : Int} {f : Nat} (hm : lo ≤ sm1 ∧ sm1 ≤ hi) (h0 : lo ≤ s0 ∧ s0 ≤ hi)
    (h1 : lo ≤ s1 ∧ s1 ≤ hi) (h2 : lo ≤ s2 ∧ s2 ≤ hi) (hf : f ≤ 65536) :
    8 * lo - (hi - lo) < 8 * (cub sm1 s0 s1 s2 f + 1) ∧ 8 * cub sm1 s0 s1 s2 f ≤ 8 * hi + (hi - lo) := by
  have hlohi := h0.1.trans h0.2
  have hg : 0 ≤ 65536 - (f : Int) := by omega
  have hlow := le_catmullRom hm.2 h0.1 h1.1 h2.2 hlohi (Int.natCast_nonneg f) hg
  have hhigh := catmullRom_le hm.1 h0.2 h1.2 h2.1 hlohi (Int.natCast_nonneg f) hg
  rw [add_sub_cancel] at hlow hhigh
  rw [cub_eq_ediv]
  omega

/-! ### Samples of 16 bits (R146) -/

/-- From taps in the range of a sample the overshoot of `Cub` keeps it in its 18 bits. -/
theorem cub_sample_bounds {sm1 s0 s1 s2 : Int} (hm : -32768 ≤ sm1 ∧ sm1 ≤ 32767) (h0 : -32768 ≤ s0 ∧ s0 ≤ 32767)
    (h1 : -32768 ≤ s1 ∧ s1 ≤ 32767) (h2 : -32768 ≤ s2 ∧ s2 ≤ 32767) (f : BitVec 16) :
    -40960 ≤ cub sm1 s0 s1 s2 f.toNat ∧ cub sm1 s0 s1 s2 f.toNat ≤ 40958 := by
  have hcub := cub_bounds hm h0 h1 h2 f.isLt.le
  omega

/-- Settles O23: an average stays between its samples, and the spline overshoots by at most an eighth of 65535. -/
theorem interpolatorsStayInRange : Obligations.InterpolatorsStayInRange := by
  intro a b c d f
  obtain ⟨hlinLo, hlinHi⟩ := lin_bounds (sample_bounds a) (sample_bounds b) f.isLt.le
  exact ⟨hlinLo, hlinHi, cub_sample_bounds (sample_bounds a) (sample_bounds b) (sample_bounds c) (sample_bounds d) f⟩

/-! ### Dispatch (R144) -/

theorem sideOf_bounds (side : Side) (frame : Sample × Sample) :
    -32768 ≤ sideOf side frame ∧ sideOf side frame ≤ 32767 := by
  cases side
  case left => exact sample_bounds frame.1
  case right => exact sample_bounds frame.2

/-- What one side of an interpolation is, by the strategy of the channel. -/
theorem interpSide_eq (side : Side) (c : Chan) (avail : Nat) (s : State) :
    interpSide side c avail s =
      if c = .aux then
        lin (sideOf side (tap c avail 0 s)) (sideOf side (tap c avail 1 s)) (s.frac.get c).toNat
      else
        cub (sideOf side (tap c avail (-1) s)) (sideOf side (tap c avail 0 s)) (sideOf side (tap c avail 1 s))
          (sideOf side (tap c avail 2 s)) (s.frac.get c).toNat := by
  cases c with
  | dma | str => rfl
  | aux => rfl

theorem interpSide_bounds (side : Side) (c : Chan) (avail : Nat) (s : State) :
    -40960 ≤ interpSide side c avail s ∧ interpSide side c avail s ≤ 40958 := by
  have htap := fun d => sideOf_bounds side (tap c avail d s)
  rw [interpSide_eq]
  split
  case isTrue =>
    have hlin := lin_bounds (htap 0) (htap 1) (s.frac.get c).isLt.le
    omega
  case isFalse => exact cub_sample_bounds (htap (-1)) (htap 0) (htap 1) (htap 2) (s.frac.get c)

/-- An interpolation loses nothing in its 18 bits. -/
theorem interp_toInt (c : Chan) (avail : Nat) (s : State) :
    (interp c avail s).1.toInt = interpSide .left c avail s
      ∧ (interp c avail s).2.toInt = interpSide .right c avail s :=
  ⟨hold_toInt_ofInt (interpSide_bounds .left c avail s), hold_toInt_ofInt (interpSide_bounds .right c avail s)⟩

/-- Settles O24: no side loses a bit, and each side is the strategy of the channel on that side's taps. -/
theorem interpAppliesTheChannelsStrategy : Obligations.InterpAppliesTheChannelsStrategy := by
  intro c avail s f x
  obtain ⟨hleft, hright⟩ := interp_toInt c avail s
  rw [hleft, hright, interpSide_eq, interpSide_eq]
  split
  case isTrue => rfl
  case isFalse => rfl

/-! ### Integer positions (R147) -/

/-- The frame at the read position is among those the ring holds, so its offset is never clamped (R141). -/
theorem tapOffset_zero {avail : Nat} (hpos : 1 ≤ avail) (hcap : avail ≤ 2048) : tapOffset avail 0 = 0 := by
  unfold tapOffset clamp Param.capacity
  omega

theorem tap_zero {avail : Nat} (hpos : 1 ≤ avail) (hcap : avail ≤ 2048) (c : Chan) (s : State) :
    tap c avail 0 s = ringRead c (s.ridx.get c) s := by
  simp [tap, tapOffset_zero hpos hcap]

/-- With no fraction either strategy gives the tap at the read position. -/
theorem interpSide_of_frac_zero {c : Chan} {s : State} (hfrac : s.frac.get c = 0#16) (side : Side) (avail : Nat) :
    interpSide side c avail s = sideOf side (tap c avail 0 s) := by
  rw [interpSide_eq, hfrac, BitVec.toNat_zero, lin_zero, cub_zero, ite_self]

/-- Settles O25: both strategies give the tap at offset 0, which is the frame at the read position. -/
theorem interpAtAnIntegerPositionIsTheFrame : Obligations.InterpAtAnIntegerPositionIsTheFrame := by
  intro c avail s hpos hcap hfrac
  obtain ⟨hleft, hright⟩ := interp_toInt c avail s
  rw [hleft, hright, interpSide_of_frac_zero hfrac, interpSide_of_frac_zero hfrac, tap_zero hpos hcap]
  exact ⟨rfl, rfl⟩

end Sys2Proof.Machine
end

section
/-! ## The step value (`spec/42_resampler.md` R161, R162) -/

namespace Sys2Proof.Machine

/-! ### The rate correction (R161) -/

/-- A backlog at or above the watermark needs no correction. -/
theorem shift_of_le {t : Tuning} {avail : Nat} (h : t.lowWatermark ≤ avail) : shift t avail = 0 :=
  if_pos h

/-- Below the watermark the correction is proportional to the shortfall, up to the bound; as an integer, the shortfall
is a plain difference. -/
theorem intCast_shift_of_lt {t : Tuning} {avail : Nat} (h : avail < t.lowWatermark) :
    (shift t avail : Int) = min (((t.lowWatermark : Int) - avail) * t.kpNum / t.kpDen) t.maxFreqShift := by
  rw [shift, if_neg h.not_ge]
  push_cast [h.le]
  rfl

/-! ### The numerator and the quotient (R162) -/

/-- Without correction the numerator is the floored rate times the speed. -/
theorem stepNum_uncorrected (c : Chan) (avail : Nat) (s : State) :
    stepNum c avail false s = max (s.rate.get c).toNat 1 * s.speed.toNat := rfl

/-- With correction it is less by the correction in Q16.16, as far as 0. -/
theorem stepNum_corrected (c : Chan) (avail : Nat) (s : State) :
    stepNum c avail true s = stepNum c avail false s - shift s.tuning avail * 65536 := by
  rw [stepNum_uncorrected, stepNum, if_pos rfl, Nat.shiftLeft_eq]

/-- The numerator as an integer: R162's `max(.., 0)`, which the model's subtraction on `Nat` stands for. -/
theorem intCast_stepNum (c : Chan) (avail : Nat) (rc : Bool) (s : State) :
    (stepNum c avail rc s : Int) = max (max ((s.rate.get c).toNat : Int) 1 * s.speed.toNat
      - (if rc then (shift s.tuning avail : Int) * 65536 else 0)) 0 := by
  have hnum : (stepNum c avail false s : Int) = max ((s.rate.get c).toNat : Int) 1 * s.speed.toNat := by
    rw [stepNum_uncorrected]
    push_cast
    rfl
  rw [← hnum]
  cases rc
  case false => simp
  case true =>
    rw [stepNum_corrected, if_pos rfl]
    omega

/-- The step as an integer: the floored quotient by the output rate, saturated to a `u32`. -/
theorem intCast_stepValue (c : Chan) (avail : Nat) (rc : Bool) (s : State) :
    (stepValue c avail rc s : Int)
      = min ((stepNum c avail rc s : Int) / max (s.outRate.toNat : Int) 1) 4294967295 := by
  rw [stepValue]
  push_cast
  rfl

/-- Settles O26, by the two sides of the watermark for the correction and the integer readings of R162's operations for
the step. -/
theorem stepValueFollowsRateSpeedAndCorrection : Obligations.StepValueFollowsRateSpeedAndCorrection := by
  intro c avail rc s t corr num
  have hcorr : (shift t avail : Int) = corr := by
    rcases Nat.lt_or_ge avail t.lowWatermark with hlt | hge
    · exact (intCast_shift_of_lt hlt).trans (if_neg hlt.not_ge).symm
    · rw [shift_of_le hge]
      exact (if_pos hge).symm
  refine ⟨hcorr, ?_⟩
  rw [intCast_stepValue, intCast_stepNum, hcorr]

end Sys2Proof.Machine
end

section
/-! ## A MIX command from its beat to its DONE beat (`spec/43_mixer.md` R191, R195, R196) -/

namespace Sys2Proof.Machine

/-! ### Whose turn it is -/

/-- With a turn left, the block's step is the step of the agent whose turn it is (`spec/20_memory.md` R70). -/
theorem step_of_sched {s : State} {a : Agent} {turns : List Agent} (h : s.sched = a :: turns) :
    step s = agentStep a (takeTurn s) :=
  step_agent (by simp only [nextAgent, h])

/-- No command of `CFGPORT` touches the consumer's sequencer, its port, MIXOUT or the schedule. -/
theorem ConfigEffect.mix_frame {s t : State} (h : ConfigEffect s t) :
    t.seq = s.seq ∧ t.mixIn = s.mixIn ∧ t.mixOut = s.mixOut ∧ t.sched = s.sched := by
  cases h
  all_goals simp

/-- Only the consumer steps the sequencer, takes beats of `MIXPORT` and emits on MIXOUT. -/
theorem agentStep_mix_frame {a : Agent} {s t : State} (ha : a ≠ .consumer) (h : agentStep a s = .next t) :
    t.seq = s.seq ∧ t.mixIn = s.mixIn ∧ t.mixOut = s.mixOut ∧ t.sched = s.sched := by
  cases a with
  | consumer => exact absurd rfl ha
  | producer c =>
    rcases producer_cases h with rfl | ⟨w, rest, -, rfl⟩
    · simp only [and_self]
    · rw [pushFrame_frame]
      exact ⟨rfl, rfl, rfl, rfl⟩
  | config =>
    rcases config_cases h with rfl | ⟨w, rest, -, heffect⟩
    · simp only [and_self]
    · exact heffect.mix_frame

/-- The START step, by the consumer (R191): the beat is taken, the cells of the command are cleared and its operands
latched. -/
theorem consumer_start {s : State} {w : Beat} {rest : List Beat} {fmt : MixFormat} {rc : Bool} {n : BitVec 12}
    (hseq : s.seq = .idle) (hmix : s.mixIn = w :: rest) (hdec : decodeBeat .mix w = .ok (mixInstr fmt rc n)) :
    agentStep .consumer s
      = .next (setSeq (startSeq fmt rc n.toNat) (accClear n.toNat (setPending .mix rest s))) := by
  have hserve : agentStep .consumer s = runBeat .mix w (setPending .mix rest s) :=
    (if_pos hseq).trans (servePort_cons hmix)
  have hidle : (setPending .mix rest s).seq = .idle := (setPending_seq ..).trans hseq
  rw [hserve, runBeat_of_decodeBeat_ok hdec, exec_mixInstr, mixStart, if_pos hidle]

/-- The START step, in the consumer's turn. -/
theorem step_start {s : State} {w : Beat} {rest : List Beat} {turns : List Agent} {fmt : MixFormat} {rc : Bool}
    {n : BitVec 12} (hseq : s.seq = .idle) (hmix : s.mixIn = w :: rest)
    (hdec : decodeBeat .mix w = .ok (mixInstr fmt rc n)) (hsched : s.sched = .consumer :: turns) :
    step s = .next (setSeq (startSeq fmt rc n.toNat) (accClear n.toNat (setPending .mix rest (takeTurn s)))) :=
  (step_of_sched hsched).trans (consumer_start (s := takeTurn s) hseq hmix hdec)

/-- The DONE step, in the consumer's turn (R191). -/
theorem step_done {s : State} {n : Nat} {turns : List Agent} (hseq : s.seq = .done n)
    (hsched : s.sched = .consumer :: turns) : step s = .next (doneStep n (takeTurn s)) :=
  (step_of_sched hsched).trans (consumer_done (s := takeTurn s) hseq)

/-! ### The sequencer (R191) -/

theorem startSeq_legal (fmt : MixFormat) (rc : Bool) {n : Nat} (h : n ≤ Param.mixMax) :
    (startSeq fmt rc n).Legal := by
  unfold startSeq
  split
  case isTrue => exact Nat.zero_le _
  case isFalse hn => exact ⟨Nat.pos_of_ne_zero hn, h⟩

/-- START leaves `4n + 1` steps: a pull for each frame of each channel, an emit for each frame, and DONE (R195). -/
theorem startSeq_stepsLeft (fmt : MixFormat) (rc : Bool) (n : Nat) : (startSeq fmt rc n).stepsLeft = 4 * n + 1 := by
  unfold startSeq
  split
  case isTrue hn => rw [hn]; rfl
  case isFalse => simp only [Seq.stepsLeft, Chan.num]; omega

theorem nextPull_legal {fmt : MixFormat} {rc : Bool} {n : Nat} {c : Chan} {k : Nat}
    (h : (Seq.pull fmt rc n c k).Legal) : (nextPull fmt rc n c k).Legal := by
  obtain ⟨hk, hmax⟩ := h
  have hn : 0 < n := by omega
  unfold nextPull
  split
  case isTrue hlt => exact ⟨hlt, hmax⟩
  case isFalse => cases c <;> exact ⟨hn, hmax⟩

theorem nextPull_stepsLeft {fmt : MixFormat} {rc : Bool} {n : Nat} {c : Chan} {k : Nat} (hk : k < n) :
    (nextPull fmt rc n c k).stepsLeft + 1 = (Seq.pull fmt rc n c k).stepsLeft := by
  unfold nextPull
  split
  all_goals
    cases c
    all_goals
      simp only [Seq.stepsLeft, Chan.num]
      omega

theorem nextEmit_legal {fmt : MixFormat} {n k : Nat} (h : (Seq.emit fmt n k).Legal) : (nextEmit fmt n k).Legal := by
  obtain ⟨-, hmax⟩ := h
  unfold nextEmit
  split
  case isTrue hlt => exact ⟨hlt, hmax⟩
  case isFalse => exact hmax

theorem nextEmit_stepsLeft {fmt : MixFormat} {n k : Nat} (hk : k < n) :
    (nextEmit fmt n k).stepsLeft + 1 = (Seq.emit fmt n k).stepsLeft := by
  unfold nextEmit
  split
  all_goals
    simp only [Seq.stepsLeft]
    omega

theorem Seq.stepsLeft_eq_zero_iff {q : Seq} : q.stepsLeft = 0 ↔ q = .idle := by
  cases q
  all_goals simp [Seq.stepsLeft]

/-! ### What a command emits -/

/-- The kind of the MIXOUT beats that carry a frame in an output form (`spec/30_encoding.md` R104). -/
def MixFormat.frameKind : MixFormat → MixKind
  | .s16 => .s16Frame
  | .f32 => .f32Sample

/-- How many MIXOUT beats one frame takes: one packed beat, or one for each side (R191). -/
def MixFormat.beatsPerFrame : MixFormat → Nat
  | .s16 => 1
  | .f32 => 2

/-- The beats of `m` frames in an output form, and after them the DONE beat with the count `n`. -/
def FramesThenDone (fmt : MixFormat) (m n : Nat) (out : List (BitVec 34)) : Prop :=
  ∃ frames, out = frames ++ [mixBeat .done (BitVec.ofNat 32 n)] ∧ frames.length = fmt.beatsPerFrame * m
    ∧ ∀ b ∈ frames, b.extractLsb' 32 2 = fmt.frameKind.code

/-- The beats `out` are those the command in progress has still to emit. -/
def Seq.Delivers (q : Seq) (out : List (BitVec 34)) : Prop :=
  match q with
  | .idle => out = []
  | .pull fmt _ n _ _ => FramesThenDone fmt n n out
  | .emit fmt n k => FramesThenDone fmt (n - k) n out
  | .done n => out = [mixBeat .done (BitVec.ofNat 32 n)]

theorem framesThenDone_zero (fmt : MixFormat) (n : Nat) :
    FramesThenDone fmt 0 n [mixBeat .done (BitVec.ofNat 32 n)] :=
  ⟨[], rfl, rfl, by simp⟩

/-- One frame more in front. -/
theorem FramesThenDone.cons_frame {fmt : MixFormat} {m n : Nat} {frame out : List (BitVec 34)}
    (hlen : frame.length = fmt.beatsPerFrame) (hkind : ∀ b ∈ frame, b.extractLsb' 32 2 = fmt.frameKind.code)
    (h : FramesThenDone fmt m n out) : FramesThenDone fmt (m + 1) n (frame ++ out) := by
  obtain ⟨frames, rfl, hframes, hkinds⟩ := h
  refine ⟨frame ++ frames, (List.append_assoc ..).symm, ?_, ?_⟩
  · rw [List.length_append, hlen, hframes, Nat.mul_succ, Nat.add_comm]
  · exact List.forall_mem_append.2 ⟨hkind, hkinds⟩

theorem startSeq_delivers {fmt : MixFormat} {rc : Bool} {n : Nat} {out : List (BitVec 34)}
    (h : (startSeq fmt rc n).Delivers out) : FramesThenDone fmt n n out := by
  unfold startSeq at h
  split at h
  case isTrue hn => subst hn; subst h; exact framesThenDone_zero fmt 0
  case isFalse => exact h

/-- A pull leaves all frames to be emitted. -/
theorem nextPull_delivers {fmt : MixFormat} {rc : Bool} {n : Nat} {c : Chan} {k : Nat} {out : List (BitVec 34)}
    (h : (nextPull fmt rc n c k).Delivers out) : (Seq.pull fmt rc n c k).Delivers out := by
  unfold nextPull at h
  split at h
  case isTrue => exact h
  case isFalse => cases c <;> exact h

/-- After the emit step of frame `k`, the frames above `k` are left. -/
theorem nextEmit_delivers {fmt : MixFormat} {n k : Nat} {out : List (BitVec 34)} (hk : k < n)
    (h : (nextEmit fmt n k).Delivers out) : FramesThenDone fmt (n - (k + 1)) n out := by
  unfold nextEmit at h
  split at h
  case isTrue => exact h
  case isFalse hle =>
    have hlast : n - (k + 1) = 0 := by omega
    subst h
    rw [hlast]
    exact framesThenDone_zero fmt n

/-- The output of one frame: its beats, all of the form's kind (R191). -/
theorem emitFrame_mixOut (fmt : MixFormat) (k : Nat) (s : State) :
    ∃ frame, (emitFrame fmt k s).mixOut = s.mixOut ++ frame ∧ frame.length = fmt.beatsPerFrame
      ∧ ∀ b ∈ frame, b.extractLsb' 32 2 = fmt.frameKind.code := by
  cases fmt with
  | s16 =>
    refine ⟨[_], rfl, rfl, ?_⟩
    simp only [List.mem_singleton, forall_eq]
    exact mixBeat_kind ..
  | f32 =>
    refine ⟨[_, _], List.append_assoc .., rfl, ?_⟩
    simp only [List.mem_cons, List.not_mem_nil, or_false, forall_eq_or_imp, forall_eq]
    exact ⟨mixBeat_kind .., mixBeat_kind ..⟩

/-- One step of the consumer in a MIX command (R191): one step less is left, `MIXPORT` waits, and what is emitted now
comes before what the rest of the command emits. -/
theorem consumer_carriesOn {s : State} (hseq : s.seq ≠ .idle) (hlegal : s.seq.Legal) :
    ∃ t now, agentStep .consumer s = .next t ∧ t.seq.Legal ∧ t.seq.stepsLeft + 1 = s.seq.stepsLeft
      ∧ t.mixIn = s.mixIn ∧ t.sched = s.sched ∧ t.mixOut = s.mixOut ++ now
      ∧ ∀ later, t.seq.Delivers later → s.seq.Delivers (now ++ later) := by
  cases hq : s.seq with
  | idle => exact absurd hq hseq
  | pull fmt rc n c k =>
    rw [hq] at hlegal
    have hk : k < n := hlegal.1
    exact ⟨_, [], consumer_pull hq, nextPull_legal hlegal, nextPull_stepsLeft hk, pullFrame_mixIn ..,
      pullFrame_sched .., (pullFrame_mixOut ..).trans (List.append_nil _).symm, fun _ => nextPull_delivers⟩
  | emit fmt n k =>
    rw [hq] at hlegal
    have hk : k < n := hlegal.1
    obtain ⟨frame, hout, hlen, hkind⟩ := emitFrame_mixOut fmt k s
    refine ⟨_, frame, consumer_emit hq, nextEmit_legal hlegal, nextEmit_stepsLeft hk, emitFrame_mixIn ..,
      emitFrame_sched .., hout, fun later hlater => ?_⟩
    have hleft : n - k = n - (k + 1) + 1 := by omega
    change FramesThenDone fmt (n - k) n (frame ++ later)
    rw [hleft]
    exact (nextEmit_delivers hk hlater).cons_frame hlen hkind
  | done n =>
    refine ⟨_, _, consumer_done hq, trivial, rfl, rfl, rfl, rfl, fun later hlater => ?_⟩
    cases hlater
    rfl

/-! ### Runs -/

/-- After `m` steps no MIX command is in progress, the beats `rest` are pending on `MIXPORT` and `out` has been
emitted on MIXOUT. -/
def State.FinishesMix (m : Nat) (rest : List Beat) (out : List (BitVec 34)) (s : State) : Prop :=
  ∃ t, core.run m s = .next t ∧ t.seq = .idle ∧ t.mixIn = rest ∧ t.mixOut = s.mixOut ++ out

/-- One step in front of a run. -/
theorem State.FinishesMix.step {s t : State} {m : Nat} {rest : List Beat} {now later : List (BitVec 34)}
    (hstep : Machine.step s = .next t) (hnow : t.mixOut = s.mixOut ++ now) (ht : t.FinishesMix m rest later) :
    s.FinishesMix (m + 1) rest (now ++ later) := by
  obtain ⟨u, hrun, hseq, hmix, hout⟩ := ht
  refine ⟨u, (run_succ m hstep).trans hrun, hseq, hmix, ?_⟩
  rw [hout, hnow, List.append_assoc]

/-- A turn of another agent moves a MIX command neither on nor back. -/
theorem step_of_other_turn {s : State} {a : Agent} {sch : List Agent} (ha : a ≠ .consumer)
    (hsched : s.sched = a :: sch) :
    ∃ t, step s = .next t ∧ t.seq = s.seq ∧ t.mixIn = s.mixIn ∧ t.mixOut = s.mixOut ∧ t.sched = sch := by
  obtain ⟨t, ht⟩ := agentStep_next a (takeTurn s)
  obtain ⟨hseq, hmix, hout, hrest⟩ := agentStep_mix_frame ha ht
  exact ⟨t, (step_of_sched hsched).trans ht, hseq, hmix, hout, hrest.trans (congrArg List.tail hsched)⟩

/-- A MIX command in progress is over after as many turns of the consumer as it has steps left, whatever the other
agents do in their turns, and has emitted what it had to deliver. -/
theorem finishesMix_of_inProgress {sch turns : List Agent} {s : State} (hsched : s.sched = sch ++ turns)
    (hlegal : s.seq.Legal) (hcount : sch.count .consumer = s.seq.stepsLeft) :
    ∃ out, s.seq.Delivers out ∧ s.FinishesMix sch.length s.mixIn out := by
  induction sch generalizing s with
  | nil =>
    have hidle : s.seq = .idle := Seq.stepsLeft_eq_zero_iff.1 hcount.symm
    exact ⟨[], by rw [hidle]; rfl, s, rfl, hidle, rfl, (List.append_nil _).symm⟩
  | cons a sch ih =>
    by_cases ha : a = .consumer
    · subst ha
      rw [List.count_cons_self] at hcount
      have hseq : s.seq ≠ .idle := fun hidle => by
        rw [Seq.stepsLeft_eq_zero_iff.2 hidle] at hcount
        omega
      obtain ⟨t, now, hagent, hlegal', hleft, hmix, hrest, hnow, hdelivers⟩ :=
        consumer_carriesOn (s := takeTurn s) hseq hlegal
      have hstep : step s = .next t := (step_of_sched hsched).trans hagent
      have hcount' : sch.count .consumer = t.seq.stepsLeft := Nat.succ.inj (hcount.trans hleft.symm)
      obtain ⟨later, hlater, hfin⟩ := ih (hrest.trans (congrArg List.tail hsched)) hlegal' hcount'
      rw [hmix] at hfin
      exact ⟨now ++ later, hdelivers later hlater, hfin.step hstep hnow⟩
    · rw [List.count_cons_of_ne ha] at hcount
      obtain ⟨t, hstep, hseq, hmix, hout, hrest⟩ := step_of_other_turn ha hsched
      rw [← hseq] at hlegal hcount
      obtain ⟨out, hdelivers, hfin⟩ := ih hrest hlegal hcount
      rw [hseq] at hdelivers
      rw [hmix] at hfin
      exact ⟨out, hdelivers, hfin.step hstep (hout.trans (List.append_nil _).symm)⟩

/-- A MIX beat waiting at the head of `MIXPORT` is started by the consumer's first turn and finished by its last
(R195). -/
theorem finishesMix_of_pending {fmt : MixFormat} {rc : Bool} {n : BitVec 12} {w : Beat} {rest : List Beat}
    {sch turns : List Agent} {s : State} (hidle : s.seq = .idle) (hmixIn : s.mixIn = w :: rest)
    (hdec : decodeBeat .mix w = .ok (mixInstr fmt rc n)) (hsched : s.sched = sch ++ turns)
    (hcount : sch.count .consumer = 4 * n.toNat + 2) :
    ∃ out, FramesThenDone fmt n.toNat n.toNat out ∧ s.FinishesMix sch.length rest out := by
  induction sch generalizing s with
  | nil => simp at hcount
  | cons a sch ih =>
    by_cases ha : a = .consumer
    · subst ha
      rw [List.count_cons_self] at hcount
      have hstep := step_start hidle hmixIn hdec hsched
      have hmax : n.toNat ≤ Param.mixMax := Nat.le_of_lt_succ n.isLt
      have hcount' : sch.count .consumer = (startSeq fmt rc n.toNat).stepsLeft := by
        rw [startSeq_stepsLeft]
        omega
      obtain ⟨out, hdelivers, hfin⟩ :=
        finishesMix_of_inProgress
          (s := setSeq (startSeq fmt rc n.toNat) (accClear n.toNat (setPending .mix rest (takeTurn s))))
          (congrArg List.tail hsched) (startSeq_legal fmt rc hmax) hcount'
      exact ⟨out, startSeq_delivers hdelivers, hfin.step hstep (List.append_nil _).symm⟩
    · rw [List.count_cons_of_ne ha] at hcount
      obtain ⟨t, hstep, hseq, hmix, hout, hrest⟩ := step_of_other_turn ha hsched
      obtain ⟨out, hframes, hfin⟩ := ih (hseq.trans hidle) (hmix.trans hmixIn) hrest hcount
      exact ⟨out, hframes, hfin.step hstep (hout.trans (List.append_nil _).symm)⟩

/-- Settles O40, by induction on the schedule: the turns before START, and the steps left after it. -/
theorem everyMixCompletesAndDeliversItsFrames : Obligations.EveryMixCompletesAndDeliversItsFrames := by
  intro fmt rc n w rest sch turns s hidle hmixIn hdec hsched hcount
  obtain ⟨-, ⟨frames, rfl, hlen, hkind⟩, t, hrun, hseq, hmix, hout⟩ :=
    finishesMix_of_pending hidle hmixIn hdec hsched hcount
  refine ⟨t, frames, hrun, hseq, hmix, hout.trans (List.append_assoc ..).symm, ?_, ?_⟩
  · rintro rfl
    exact ⟨hlen.trans (Nat.one_mul _), fun b hb => beq_iff_eq.2 (hkind b hb)⟩
  · rintro rfl
    exact ⟨hlen, fun b hb => beq_iff_eq.2 (hkind b hb)⟩

/-- A START of count 0 clears no cell (R192). -/
@[simp] theorem accClear_zero (s : State) : accClear 0 s = s := by
  simp only [accClear, Cells.clearBelow_zero]

theorem doneStep_eq (n : Nat) (s : State) :
    doneStep n s = { s with seq := .idle, mixOut := s.mixOut ++ [(2#2 ++ BitVec.ofNat 32 n : BitVec 34)] } := rfl

/-- Settles O39: the START step of count 0 clears nothing and leads to DONE, which the second turn takes. -/
theorem mixOfCountZeroOnlyEmitsDone : Obligations.MixOfCountZeroOnlyEmitsDone := by
  intro fmt rc w rest turns s hdec hidle hmixIn hsched
  have hstart : step s = .next (setSeq (.done 0) (setPending .mix rest (takeTurn s))) := by
    rw [step_start hidle hmixIn hdec hsched]
    exact congrArg (fun u => Host.Outcome.next (setSeq (.done 0) u)) (accClear_zero _)
  have hdone := step_done (s := setSeq (.done 0) (setPending .mix rest (takeTurn s))) rfl (congrArg List.tail hsched)
  have hturns : s.sched.tail.tail = turns := by rw [hsched]; rfl
  refine (run_succ 1 hstart).trans ((run_succ 0 hdone).trans (congrArg (Host.Outcome.next (σ := State)) ?_))
  simp only [doneStep_eq, setSeq, setPending, takeTurn, hidle, hturns]

end Sys2Proof.Machine
end

section
/-! ## The two output forms (`spec/43_mixer.md` R194) -/

namespace Sys2Proof.Machine

/-! ### What the output form does not reach

Each operation but START and the steps of the sequencer gives, on a state without the form, the dither state and the
MIXOUT beats, what it gives on the state itself without them. -/

@[simp] theorem Seq.eraseFormat_eraseFormat (q : Seq) : q.eraseFormat.eraseFormat = q.eraseFormat := by
  cases q
  all_goals rfl

@[simp] theorem State.eraseFormat_eraseFormat (s : State) : s.eraseFormat.eraseFormat = s.eraseFormat := by
  simp only [State.eraseFormat, Seq.eraseFormat_eraseFormat]

theorem Seq.eraseFormat_eq_idle_iff {q : Seq} : q.eraseFormat = .idle ↔ q = .idle := by
  cases q
  all_goals simp [Seq.eraseFormat]

@[simp] theorem State.eraseFormat_seq (s : State) : s.eraseFormat.seq = s.seq.eraseFormat := rfl

/-- A case split with both outcomes taken without regard to the form. -/
theorem ite_eraseFormat {p : Prop} [Decidable p] {s t s' t' : State} (hs : s' = s.eraseFormat)
    (ht : t' = t.eraseFormat) : (if p then s' else t') = (if p then s else t).eraseFormat := by
  rw [hs, ht, apply_ite State.eraseFormat]

theorem setSeq_eraseFormat (q : Seq) (s : State) : (setSeq q s).eraseFormat = setSeq q.eraseFormat s.eraseFormat := rfl

theorem raiseFlow_eraseFormat (code : DiagCode) (c : Chan) (s : State) :
    raiseFlow code c s.eraseFormat = (raiseFlow code c s).eraseFormat :=
  ite_eraseFormat rfl rfl

theorem overflowCheck_eraseFormat (c : Chan) (s : State) :
    overflowCheck c s.eraseFormat = (overflowCheck c s).eraseFormat :=
  ite_eraseFormat (raiseFlow_eraseFormat ..) rfl

theorem ringWrite_eraseFormat (c : Chan) (i : Index) (l r : Sample) (s : State) :
    ringWrite c i l r s.eraseFormat = (ringWrite c i l r s).eraseFormat := rfl

theorem setWidx_eraseFormat (c : Chan) (v : Index) (s : State) :
    setWidx c v s.eraseFormat = (setWidx c v s).eraseFormat := rfl

theorem logCopy_eraseFormat (c : Chan) (l r : Sample) (s : State) :
    logCopy c l r s.eraseFormat = (logCopy c l r s).eraseFormat :=
  ite_eraseFormat rfl rfl

theorem pushFrame_eraseFormat (c : Chan) (l r : Sample) (s : State) :
    pushFrame c l r s.eraseFormat = (pushFrame c l r s).eraseFormat := by
  have hwidx : s.eraseFormat.widx = s.widx := rfl
  simp only [pushFrame, hwidx, overflowCheck_eraseFormat, ringWrite_eraseFormat, setWidx_eraseFormat,
    logCopy_eraseFormat]

theorem cfgWrite_eraseFormat (x : CfgItem) (s : State) : cfgWrite x s.eraseFormat = (cfgWrite x s).eraseFormat := by
  cases x
  all_goals exact ite_eraseFormat rfl rfl

theorem resync_eraseFormat (c : Chan) (s : State) : resync c s.eraseFormat = (resync c s).eraseFormat :=
  ite_eraseFormat rfl rfl

theorem pullHeld_eraseFormat (c : Chan) (k : Nat) (s : State) :
    pullHeld c k s.eraseFormat = (pullHeld c k s).eraseFormat := by
  unfold pullHeld
  rw [raiseFlow_eraseFormat]
  rfl

theorem advance_eraseFormat (c : Chan) (avail : Nat) (rc : Bool) (s : State) :
    advance c avail rc s.eraseFormat = (advance c avail rc s).eraseFormat := rfl

theorem accumulate_eraseFormat (c : Chan) (k : Nat) (pair : Hold × Hold) (s : State) :
    accumulate c k pair s.eraseFormat = (accumulate c k pair s).eraseFormat := rfl

theorem setHold_eraseFormat (c : Chan) (l r : Hold) (s : State) :
    setHold c l r s.eraseFormat = (setHold c l r s).eraseFormat := rfl

theorem pullFresh_eraseFormat (c : Chan) (k : Nat) (rc : Bool) (avail : Nat) (s : State) :
    pullFresh c k rc avail s.eraseFormat = (pullFresh c k rc avail s).eraseFormat := by
  have hinterp : interp c avail s.eraseFormat = interp c avail s := interp_congr rfl rfl rfl
  simp only [pullFresh, hinterp, setHold_eraseFormat, advance_eraseFormat, accumulate_eraseFormat]

theorem pullFrame_eraseFormat (c : Chan) (k : Nat) (rc : Bool) (s : State) :
    pullFrame c k rc s.eraseFormat = (pullFrame c k rc s).eraseFormat := by
  unfold pullFrame pullSynced
  rw [resync_eraseFormat]
  exact ite_eraseFormat (pullHeld_eraseFormat ..) (pullFresh_eraseFormat ..)

/-- No command of a producer or of the configuration agent depends on the output form. -/
theorem exec_eraseFormat {i : Instr} (hi : i.port ≠ .mix) {s t : State} (h : exec i s = .next t) :
    exec i s.eraseFormat = .next t.eraseFormat := by
  cases i with
  | mixS16 => exact absurd rfl hi
  | mixF32 => exact absurd rfl hi
  | pushfDma l r => cases h; exact congrArg Host.Outcome.next (pushFrame_eraseFormat ..)
  | pushfStr l r => cases h; exact congrArg Host.Outcome.next (pushFrame_eraseFormat ..)
  | pushfAux l r => cases h; exact congrArg Host.Outcome.next (pushFrame_eraseFormat ..)
  | setrate c rate => cases h; exact congrArg Host.Outcome.next (cfgWrite_eraseFormat ..)
  | setvol c l r => cases h; exact congrArg Host.Outcome.next (cfgWrite_eraseFormat ..)
  | setspeed q => cases h; exact congrArg Host.Outcome.next (cfgWrite_eraseFormat ..)
  | nop => cases h; rfl
  | getspeed => cases h; rfl
  | getavail c => cases h; rfl
  | logstart c => cases h; exact congrArg Host.Outcome.next (ite_eraseFormat rfl rfl)
  | logstop c => cases h; exact congrArg Host.Outcome.next (ite_eraseFormat rfl rfl)
  | cfgbegin => cases h; exact congrArg Host.Outcome.next (ite_eraseFormat rfl rfl)
  | cfgcommit => cases h; exact congrArg Host.Outcome.next (ite_eraseFormat rfl rfl)

/-! ### What the two forms have in common -/

/-- START does the same in both forms but for the form it latches (R190, R193). -/
theorem mixStart_eraseFormat (fmt : MixFormat) (rc : Bool) (n : Nat) (s : State) :
    (mixStart fmt rc n s).eraseFormat = mixStart .s16 rc n s.eraseFormat := by
  have hstart : (startSeq fmt rc n).eraseFormat = startSeq .s16 rc n := apply_ite Seq.eraseFormat ..
  unfold mixStart
  rw [apply_ite State.eraseFormat, setSeq_eraseFormat, hstart]
  exact if_congr Seq.eraseFormat_eq_idle_iff.symm rfl rfl

theorem nextPull_eraseFormat (fmt : MixFormat) (rc : Bool) (n : Nat) (c : Chan) (k : Nat) :
    (nextPull fmt rc n c k).eraseFormat = nextPull .s16 rc n c k := by
  unfold nextPull
  rw [apply_ite Seq.eraseFormat]
  cases c
  all_goals rfl

theorem nextEmit_eraseFormat (fmt : MixFormat) (n k : Nat) :
    (nextEmit fmt n k).eraseFormat = nextEmit .s16 n k :=
  apply_ite Seq.eraseFormat ..

/-- A PULL step does the same in both forms but for the form it keeps in `SEQ` (R191). -/
theorem pullStep_eraseFormat (fmt : MixFormat) (rc : Bool) (n : Nat) (c : Chan) (k : Nat) (s : State) :
    (pullStep fmt rc n c k s).eraseFormat = pullStep .s16 rc n c k s.eraseFormat := by
  unfold pullStep
  rw [setSeq_eraseFormat, nextPull_eraseFormat, pullFrame_eraseFormat]

/-- The output of a frame reaches the dither state and MIXOUT alone (R191). -/
theorem emitFrame_eraseFormat (fmt : MixFormat) (k : Nat) (s : State) :
    (emitFrame fmt k s).eraseFormat = s.eraseFormat := by
  simp [State.eraseFormat]

theorem emitStep_eraseFormat (fmt : MixFormat) (n k : Nat) (s : State) :
    (emitStep fmt n k s).eraseFormat = setSeq (nextEmit .s16 n k) s.eraseFormat := by
  unfold emitStep
  rw [setSeq_eraseFormat, nextEmit_eraseFormat, emitFrame_eraseFormat]

/-- A step of the sequencer does the same in both forms but for what the forms may differ in. -/
theorem mixAdvance_eraseFormat (s : State) :
    (mixAdvance s.eraseFormat).eraseFormat = (mixAdvance s).eraseFormat := by
  unfold mixAdvance
  rw [State.eraseFormat_seq]
  cases s.seq with
  | idle => exact s.eraseFormat_eraseFormat
  | pull fmt rc n c k =>
    calc (pullStep .s16 rc n c k s.eraseFormat).eraseFormat
        = pullStep .s16 rc n c k s.eraseFormat := by rw [pullStep_eraseFormat, State.eraseFormat_eraseFormat]
      _ = (pullStep fmt rc n c k s).eraseFormat := (pullStep_eraseFormat ..).symm
  | emit fmt n k =>
    calc (emitStep .s16 n k s.eraseFormat).eraseFormat
        = setSeq (nextEmit .s16 n k) s.eraseFormat := by rw [emitStep_eraseFormat, State.eraseFormat_eraseFormat]
      _ = (emitStep fmt n k s).eraseFormat := (emitStep_eraseFormat ..).symm
  | done n => rfl

/-! ### Steps and runs -/

theorem setPending_eraseFormat (p : Port) (beats : List Beat) (s : State) :
    setPending p beats s.eraseFormat = (setPending p beats s).eraseFormat := by
  cases p
  all_goals rfl

theorem pending_eraseFormat (p : Port) (s : State) : pending p s.eraseFormat = pending p s := by
  cases p
  all_goals rfl

/-- A command executed without regard to the form gives the same but for what the forms may differ in. -/
theorem exec_eraseFormat_congr (i : Instr) {s t : State} (h : exec i s = .next t) :
    ∃ u, exec i s.eraseFormat = .next u ∧ u.eraseFormat = t.eraseFormat := by
  have hmix : ∀ fmt rc n, (mixStart fmt rc n s.eraseFormat).eraseFormat = (mixStart fmt rc n s).eraseFormat := by
    intro fmt rc n
    rw [mixStart_eraseFormat, mixStart_eraseFormat, State.eraseFormat_eraseFormat]
  by_cases hi : i.port = .mix
  case neg => exact ⟨_, exec_eraseFormat hi h, t.eraseFormat_eraseFormat⟩
  case pos =>
    cases i <;> cases hi
    case mixS16 rc n => cases h; exact ⟨_, rfl, hmix ..⟩
    case mixF32 rc n => cases h; exact ⟨_, rfl, hmix ..⟩

theorem servePort_eraseFormat_congr (p : Port) {s t : State} (h : servePort p s = .next t) :
    ∃ u, servePort p s.eraseFormat = .next u ∧ u.eraseFormat = t.eraseFormat := by
  rcases servePort_cases h with ⟨hp, rfl⟩ | ⟨w, rest, hp, hrun⟩
  · refine ⟨t.eraseFormat, ?_, t.eraseFormat_eraseFormat⟩
    rw [servePort, pending_eraseFormat, hp]
  · rw [← pending_eraseFormat] at hp
    rw [servePort_cons hp, setPending_eraseFormat]
    cases hdec : decodeBeat p w with
    | ok i =>
      rw [runBeat_of_decodeBeat_ok hdec] at hrun ⊢
      exact exec_eraseFormat_congr i hrun
    | error e =>
      rw [runBeat_of_decodeBeat_error hdec] at hrun ⊢
      cases hrun
      exact ⟨_, rfl, (illegalStep p (setPending p rest s)).eraseFormat_eraseFormat⟩

theorem agentStep_eraseFormat_congr (a : Agent) {s t : State} (h : agentStep a s = .next t) :
    ∃ u, agentStep a s.eraseFormat = .next u ∧ u.eraseFormat = t.eraseFormat := by
  cases a with
  | producer c => exact servePort_eraseFormat_congr _ h
  | config => exact servePort_eraseFormat_congr _ h
  | consumer =>
    by_cases hidle : s.seq = .idle
    · have hidle' : s.eraseFormat.seq = .idle := Seq.eraseFormat_eq_idle_iff.2 hidle
      rw [agentStep, if_pos hidle] at h
      rw [agentStep, if_pos hidle']
      exact servePort_eraseFormat_congr _ h
    · have hbusy : s.eraseFormat.seq ≠ .idle := fun h' => hidle (Seq.eraseFormat_eq_idle_iff.1 h')
      rw [agentStep, if_neg hidle] at h
      cases h
      exact ⟨_, if_neg hbusy, mixAdvance_eraseFormat s⟩

/-- Who steps next does not depend on the output form. -/
theorem nextAgent_eraseFormat (s : State) : nextAgent s.eraseFormat = nextAgent s := by
  have henabled : enabled s.eraseFormat = enabled s := by
    funext a
    simp only [enabled, pending_eraseFormat, ne_eq, State.eraseFormat_seq, Seq.eraseFormat_eq_idle_iff]
  unfold nextAgent
  rw [henabled]
  rfl

theorem step_eraseFormat_congr {s t : State} (h : step s = .next t) :
    ∃ u, step s.eraseFormat = .next u ∧ u.eraseFormat = t.eraseFormat := by
  rcases step_cases h with ⟨hnone, rfl⟩ | ⟨a, hagent, hstep⟩
  · refine ⟨t.eraseFormat, ?_, t.eraseFormat_eraseFormat⟩
    rw [step, blockStep, nextAgent_eraseFormat, hnone]
  · rw [step_agent ((nextAgent_eraseFormat s).trans hagent)]
    exact agentStep_eraseFormat_congr a hstep

theorem step_next (s : State) : ∃ t, step s = .next t := by
  cases hn : nextAgent s with
  | none => exact ⟨s, by simp only [step, blockStep, hn]⟩
  | some a =>
    rw [step_agent hn]
    exact agentStep_next ..

/-- Two runs that agree but for what the forms may differ in go on agreeing, step by step. -/
theorem run_eraseFormat_congr (k : Nat) {a b : State} (h : a.eraseFormat = b.eraseFormat) :
    ∃ a' b', core.run k a = .next a' ∧ core.run k b = .next b' ∧ a'.eraseFormat = b'.eraseFormat := by
  induction k generalizing a b with
  | zero => exact ⟨a, b, rfl, rfl, h⟩
  | succ k ih =>
    obtain ⟨a₁, ha⟩ := step_next a
    obtain ⟨b₁, hb⟩ := step_next b
    obtain ⟨u, hu, hua⟩ := step_eraseFormat_congr ha
    obtain ⟨v, hv, hvb⟩ := step_eraseFormat_congr hb
    rw [← h, hu] at hv
    cases hv
    obtain ⟨a', b', ha', hb', hab⟩ := ih (hua.symm.trans hvb)
    exact ⟨a', b', (run_succ k ha).trans ha', (run_succ k hb).trans hb', hab⟩

/-- Settles O41: the states the two commands leave agree but for the form, and so does every step after them. -/
theorem bothMixCommandsPullIdentically : Obligations.BothMixCommandsPullIdentically := by
  intro rc n k s a b ha hb
  cases ha
  cases hb
  exact run_eraseFormat_congr k ((mixStart_eraseFormat ..).trans (mixStart_eraseFormat ..).symm)

end Sys2Proof.Machine
end

section
/-! ## The setters (`spec/43_mixer.md` R199 to R202) -/

namespace Sys2Proof.Machine

/-- Outside a transaction a setter is direct (R199). -/
theorem cfgWrite_of_txn_eq_false {s : State} (h : s.txn = false) (x : CfgItem) : cfgWrite x s = writeLive x s :=
  if_neg (by simp [h])

/-- Inside a transaction it writes the shadow and sets the dirty bit of its register (R199, `spec/10_state.md` R29). -/
theorem cfgWrite_of_txn_eq_true {s : State} (h : s.txn = true) (x : CfgItem) :
    cfgWrite x s = { writeShadow x s with dirty := s.dirty ||| BitVec.ofNat 7 (2 ^ x.cr) } := by
  have hbit : 1#7 <<< x.cr = BitVec.ofNat 7 (2 ^ x.cr) :=
    (BitVec.twoPow_eq 7 x.cr).symm.trans (BitVec.eq_of_toNat_eq (BitVec.toNat_twoPow ..))
  rw [cfgWrite, if_pos h, setDirty, writeShadow_dirty, hbit]

/-- The clamp of a volume operand to 0..255 loses nothing in the 8 bits of the register (R201). -/
theorem clampVolume_toNat (v : BitVec 13) : ((clampVolume v).toNat : Int) = min (max v.toInt 0) 255 := by
  have hrange : 0 ≤ min (max v.toInt 0) 255 ∧ min (max v.toInt 0) 255 < 256 := by omega
  rw [clampVolume, BitVec.toNat_ofInt]
  change (((min (max v.toInt 0) 255) % 256).toNat : Int) = _
  omega

/-- Settles O12: each setter is one `CfgWrite`, to the live register or to the shadow and its dirty bit. -/
theorem settersWriteTheLiveRegisterOrItsShadow : Obligations.SettersWriteTheLiveRegisterOrItsShadow := by
  intro c rate l r q s
  have hlive (x : CfgItem) (h : s.txn = false) := congrArg (Host.Outcome.next (φ := Fault) (ρ := Refusal))
    (cfgWrite_of_txn_eq_false h x)
  have hshadow (x : CfgItem) (h : s.txn = true) := congrArg (Host.Outcome.next (φ := Fault) (ρ := Refusal))
    (cfgWrite_of_txn_eq_true h x)
  exact ⟨hlive (.rate c rate), hshadow (.rate c rate),
    ⟨clampVolume l, clampVolume r, clampVolume_toNat l, clampVolume_toNat r, hlive (.vol c (volumePair l r)),
      hshadow (.vol c (volumePair l r))⟩,
    hlive (.speed q), hshadow (.speed q)⟩

end Sys2Proof.Machine
end

section
/-! ## Starting and stopping a log (`spec/43_mixer.md` R206, R207, R209) -/

namespace Sys2Proof.Machine

theorem execAll_cons {i : Instr} {s t : State} (h : exec i s = .next t) (is : List Instr) :
    execAll (i :: is) s = execAll is t := by
  simp only [execAll, h]

/-- What the first LOGSTART does (R206): the log is activated and START emitted with the live rate. -/
def startLog (c : Chan) (s : State) : State :=
  emitLog c .start ((s.rate.get c).setWidth 32) (setLogen c true s)

/-- What the first LOGSTOP does (R207): the log is deactivated and STOP emitted. -/
def stopLog (c : Chan) (s : State) : State := emitLog c .stop 0#32 (setLogen c false s)

section Logs

variable {c : Chan} {s : State}

theorem exec_logstart_of_off (h : s.logen.get c = false) : exec (.logstart c) s = .next (startLog c s) :=
  congrArg Host.Outcome.next (if_neg (by simp [h]))

theorem exec_logstart_of_on (h : s.logen.get c = true) :
    exec (.logstart c) s = .next (raiseDiag .logRestart (chanArg c) s) :=
  congrArg Host.Outcome.next (if_pos h)

theorem exec_logstop_of_on (h : s.logen.get c = true) : exec (.logstop c) s = .next (stopLog c s) :=
  congrArg Host.Outcome.next (if_pos h)

theorem exec_logstop_of_off (h : s.logen.get c = false) :
    exec (.logstop c) s = .next (raiseDiag .logRestop (chanArg c) s) :=
  congrArg Host.Outcome.next (if_neg (by simp [h]))

variable (c s)

@[simp] theorem startLog_logen : (startLog c s).logen.get c = true := PerChan.get_set_same ..

@[simp] theorem stopLog_logen : (stopLog c s).logen.get c = false := PerChan.get_set_same ..

/-- The START beat carries the live rate (R206, `spec/30_encoding.md` R106). -/
@[simp] theorem startLog_logOut :
    (startLog c s).logOut.get c
      = s.logOut.get c ++ [(1#2 ++ BitVec.ofNat 32 (s.rate.get c).toNat : BitVec 34)] := by
  rw [BitVec.ofNat_toNat]
  exact PerChan.get_set_same ..

@[simp] theorem stopLog_logOut :
    (stopLog c s).logOut.get c = s.logOut.get c ++ [(2#2 ++ 0#32 : BitVec 34)] := PerChan.get_set_same ..

@[simp] theorem startLog_diagOut : (startLog c s).diagOut = s.diagOut := rfl

@[simp] theorem stopLog_diagOut : (stopLog c s).diagOut = s.diagOut := rfl

@[simp] theorem startLog_rate : (startLog c s).rate = s.rate := rfl

@[simp] theorem stopLog_rate : (stopLog c s).rate = s.rate := rfl

end Logs

/-- Settles O17, by running each sequence command by command. -/
theorem logTogglesAreIdempotent : Obligations.LogTogglesAreIdempotent := by
  intro c s start stop
  refine ⟨fun hoff => ?_, fun hon => ?_, fun hoff => ?_⟩
  · refine ⟨raiseDiag .logRestart (chanArg c) (startLog c s), ?_, startLog_logen c s, startLog_logOut c s, ?_⟩
    · rw [execAll_cons (exec_logstart_of_off hoff), execAll_cons (exec_logstart_of_on (startLog_logen c s)), execAll]
    · rw [raiseDiag_diagOut, startLog_diagOut, diagBeat_chanArg]
      rfl
  · refine ⟨raiseDiag .logRestop (chanArg c) (stopLog c s), ?_, stopLog_logen c s, stopLog_logOut c s, ?_⟩
    · rw [execAll_cons (exec_logstop_of_on hon), execAll_cons (exec_logstop_of_off (stopLog_logen c s)), execAll]
    · rw [raiseDiag_diagOut, stopLog_diagOut, diagBeat_chanArg]
      rfl
  · refine ⟨startLog c (stopLog c (startLog c s)), ?_, startLog_logen .., ?_, ?_⟩
    · rw [execAll_cons (exec_logstart_of_off hoff), execAll_cons (exec_logstop_of_on (startLog_logen c s)),
        execAll_cons (exec_logstart_of_off (stopLog_logen ..)), execAll]
    · simp only [startLog_logOut, stopLog_logOut, startLog_rate, stopLog_rate, List.append_assoc, List.cons_append,
        List.nil_append, start, stop]
    · simp only [startLog_diagOut, stopLog_diagOut]

end Sys2Proof.Machine
end

section
/-! ## The integer output (`spec/44_quantizer.md` R232 to R234) -/

namespace Sys2Proof.Machine

/-- `QuantS16` in integers (R233, R234): the dither drawn is the top byte of the generator's next state, and the sum is
truncated toward zero and saturated. -/
theorem quantResult_toInt (x : AccWord) (side : Side) (s : State) :
    let v : Int := x.toInt + ((xs32 s.prng).toNat / 2 ^ 24 : Nat) - (dprev side s).toNat
    (quantResult x side s).toInt = min (max (if 0 ≤ v then v / 256 else -((-v) / 256)) (-32768)) 32767 := by
  intro v
  have hraw : quantRaw x (ditherOf (xs32 s.prng)) (dprev side s) = v.tdiv 256 := by
    rw [quantRaw, ditherOf_toNat]
    rfl
  rw [quantResult, clipS16_toInt, hraw, tdiv_volDiv]

theorem quantState_left (s : State) :
    quantState .left s = { s with prng := xs32 s.prng, dprevL := ditherOf (xs32 s.prng) } := rfl

theorem quantState_right (s : State) :
    quantState .right s = { s with prng := xs32 s.prng, dprevR := ditherOf (xs32 s.prng) } := rfl

/-- The emit step of MIX.S16 draws once for the left side and then once for the right (R232), and touches no other state
than the dither state, MIXOUT and `SEQ`. -/
theorem emitStep_s16 (n k : Nat) (s : State) :
    emitStep .s16 n k s = { s with
      mixOut := s.mixOut ++ [(0#2 ++ (quantResult (accCell .right k s) .right (quantState .left s)
        ++ quantResult (accCell .left k s) .left s) : BitVec 34)]
      prng := xs32 (xs32 s.prng)
      dprevL := ditherOf (xs32 s.prng)
      dprevR := ditherOf (xs32 (xs32 s.prng))
      seq := nextEmit .s16 n k } := by
  simp only [emitStep, emitFrame, emitS16, quantState_left, quantState_right]
  rfl

/-- Settles O33: the samples are `QuantS16` of the two cells, the right one in the state the left one leaves. -/
theorem emitStepOfMixS16DithersTruncatesAndClips : Obligations.EmitStepOfMixS16DithersTruncatesAndClips := by
  intro s n k hseq p1 p2 vl vr trunc
  refine ⟨_, _, _, (consumer_emit hseq).trans (congrArg _ (emitStep_s16 n k s)),
    quantResult_toInt (accCell .left k s) .left s,
    quantResult_toInt (accCell .right k s) .right (quantState .left s), ?_⟩
  rw [ditherOf_eq, ditherOf_eq]
  rfl

end Sys2Proof.Machine
end

section
/-! ## The floating-point output (`spec/44_quantizer.md` R236, R237) -/

namespace Sys2Proof.Machine

/-- A pattern put together from its fields, with a biased exponent other than 0, stands for a normal number (R236). -/
theorem f32Value_of_fields (sign : Bool) {e : BitVec 8} (m : BitVec 23) (he : e.toNat ≠ 0) :
    f32Value ((BitVec.ofBool sign ++ e) ++ m)
      = (if sign then -1 else 1) * (1 + (m.toNat : ℚ) / 2 ^ 23) * (2 : ℚ) ^ ((e.toNat : ℤ) - 127) := by
  obtain ⟨hsign, hexp, hfrac⟩ := binary32_fields sign e m
  have hnormal : ¬(e.toNat = 0 ∧ m.toNat = 0) := fun h => he h.1
  simp only [f32Value, hsign, hexp, hfrac, if_neg hnormal]

/-- The fraction field keeps all of the normalised magnitude but its leading one, which the format hides (R236). -/
theorem hiddenOne_add_fraction {m : Nat} (hm : m ≠ 0) (hlog : Nat.log2 m ≤ 23) :
    2 ^ 23 + (BitVec.ofNat 23 (m <<< (23 - Nat.log2 m))).toNat = m * 2 ^ (23 - Nat.log2 m) := by
  have hpow : 2 ^ Nat.log2 m * 2 ^ (23 - Nat.log2 m) = 2 ^ 23 := by
    rw [← Nat.pow_add, Nat.add_sub_cancel' hlog]
  have hlow : 2 ^ 23 ≤ m * 2 ^ (23 - Nat.log2 m) :=
    hpow ▸ Nat.mul_le_mul_right _ (Nat.log2_self_le hm)
  have hhigh : m * 2 ^ (23 - Nat.log2 m) < 2 * 2 ^ 23 := by
    rw [← hpow, ← Nat.mul_assoc, ← Nat.pow_succ']
    exact Nat.mul_lt_mul_of_pos_right Nat.lt_log2_self (Nat.two_pow_pos _)
  rw [BitVec.toNat_ofNat, Nat.shiftLeft_eq]
  omega

/-- The pattern of a sign and a magnitude of at most 24 significant bits is exact: nothing is rounded (R236). -/
theorem f32Value_normalised (sign : Bool) {m : Nat} (hm : m ≠ 0) (hlog : Nat.log2 m ≤ 23) :
    f32Value ((BitVec.ofBool sign ++ BitVec.ofNat 8 (Nat.log2 m + 104))
        ++ BitVec.ofNat 23 (m <<< (23 - Nat.log2 m)))
      = (if sign then -1 else 1) * ((m : ℚ) / 2 ^ 23) := by
  have hexp : (BitVec.ofNat 8 (Nat.log2 m + 104)).toNat = Nat.log2 m + 104 := by
    rw [BitVec.toNat_ofNat]
    omega
  have hfrac : (2 : ℚ) ^ 23 + ((BitVec.ofNat 23 (m <<< (23 - Nat.log2 m))).toNat : ℚ)
      = m * 2 ^ (23 - Nat.log2 m) := by
    exact_mod_cast hiddenOne_add_fraction hm hlog
  have hscale : (2 : ℚ) ^ (23 - Nat.log2 m) * 2 ^ (((Nat.log2 m + 104 : Nat) : ℤ) - 127) = 1 := by
    rw [← zpow_natCast, ← zpow_add₀ two_ne_zero]
    have : ((23 - Nat.log2 m : Nat) : ℤ) + (((Nat.log2 m + 104 : Nat) : ℤ) - 127) = 0 := by omega
    rw [this, zpow_zero]
  rw [f32Value_of_fields _ _ (by omega), hexp, mul_assoc]
  congr 1
  calc _ = ((2 : ℚ) ^ 23 + ((BitVec.ofNat 23 (m <<< (23 - Nat.log2 m))).toNat : ℚ)) / 2 ^ 23
        * 2 ^ (((Nat.log2 m + 104 : Nat) : ℤ) - 127) := by rw [add_div, div_self (by positivity)]
    _ = m * (2 ^ (23 - Nat.log2 m) * 2 ^ (((Nat.log2 m + 104 : Nat) : ℤ) - 127)) / 2 ^ 23 := by rw [hfrac]; ring
    _ = m / 2 ^ 23 := by rw [hscale, mul_one]

/-- A sign and a magnitude make an integer. -/
theorem sign_mul_natAbs (y : Int) : (if decide (y < 0) then -1 else 1 : ℚ) * (y.natAbs : ℚ) = y := by
  rw [Nat.cast_natAbs, Int.cast_abs]
  by_cases hy : y < 0
  · rw [if_pos (decide_eq_true hy), abs_of_neg (Int.cast_lt_zero.2 hy), neg_one_mul, neg_neg]
  · rw [if_neg (by simpa using hy), abs_of_nonneg (Int.cast_nonneg (not_lt.1 hy)), one_mul]

/-- `ToF32` stands for the saturated accumulator divided by 2^23, exactly (R236, R237). -/
theorem f32Value_toF32 (x : AccWord) :
    f32Value (toF32 x) = (clamp x.toInt (-8388608) 8388607 : ℚ) / 2 ^ 23 := by
  unfold toF32
  generalize hy : clamp x.toInt (-8388608) 8388607 = y
  have hrange : -8388608 ≤ y ∧ y ≤ 8388607 := by
    unfold clamp at hy
    omega
  by_cases hzero : y = 0
  · rw [if_pos hzero, hzero]
    simp [f32Value]
  · have hm : y.natAbs ≠ 0 := Int.natAbs_ne_zero.2 hzero
    have hlog : Nat.log2 y.natAbs ≤ 23 := Nat.lt_succ_iff.1 ((Nat.log2_lt hm).2 (by omega))
    rw [if_neg hzero]
    calc _ = (if decide (y < 0) then -1 else 1) * ((y.natAbs : ℚ) / 2 ^ 23) := f32Value_normalised _ hm hlog
      _ = y / 2 ^ 23 := by rw [← mul_div_assoc, sign_mul_natAbs]

/-- Settles O35: the value is exact, and the saturation puts it in [-1, 1). -/
theorem toF32IsExactAndSaturates : Obligations.ToF32IsExactAndSaturates := by
  intro x
  have hvalue := f32Value_toF32 x
  unfold clamp at hvalue
  have hlow : -8388608 ≤ min (max x.toInt (-8388608)) 8388607 := by omega
  have hhigh : min (max x.toInt (-8388608)) 8388607 < 8388608 := by omega
  refine ⟨hvalue, ?_, ?_, fun hzero => ?_⟩
  · rw [hvalue, le_div_iff₀ (by positivity)]
    exact_mod_cast hlow
  · rw [hvalue, div_lt_one (by positivity)]
    exact_mod_cast hhigh
  · have hclamp : clamp x.toInt (-8388608) 8388607 = 0 := by rw [hzero]; rfl
    exact if_pos hclamp

end Sys2Proof.Machine
end

section
/-! ## The round trip of the encoding (`spec/30_encoding.md` R92 to R102, R108) -/

namespace Sys2Proof

open Sys2Proof.Laws

/-- Every command is read back from its own beat on the port it belongs to. -/
theorem decodeBeat_encode (i : Instr) : decodeBeat i.port (encode i) = .ok i := by
  cases i with
  | pushfDma l r => exact RoundTrip.pushfDma l r
  | pushfStr l r => exact RoundTrip.pushfStr l r
  | pushfAux l r => exact RoundTrip.pushfAux l r
  | mixS16 rc n => exact RoundTrip.mixS16 rc n
  | mixF32 rc n => exact RoundTrip.mixF32 rc n
  | nop => exact RoundTrip.nop
  | setrate c rate => exact RoundTrip.setrate c rate
  | setvol c l r => exact RoundTrip.setvol c l r
  | setspeed q => exact RoundTrip.setspeed q
  | getspeed => exact RoundTrip.getspeed
  | getavail c => exact RoundTrip.getavail c
  | logstart c => exact RoundTrip.logstart c
  | logstop c => exact RoundTrip.logstop c
  | cfgbegin => exact RoundTrip.cfgbegin
  | cfgcommit => exact RoundTrip.cfgcommit

/-- Settles O1: a command well formed on a port belongs to it, and is read back there. -/
theorem decodeOfEncodeIsTheCommand : Obligations.DecodeOfEncodeIsTheCommand := by
  intro p i h
  obtain rfl : i.port = p := by simpa [Instr.wellFormedOn] using h
  exact decodeBeat_encode i

/-- Settles O5: each word is closed, so the decoder is run on it. -/
theorem wordsOfTheSpecDecode : Obligations.WordsOfTheSpecDecode := by
  unfold Obligations.WordsOfTheSpecDecode
  decide

end Sys2Proof
end

section
/-! ## Many pushes to one channel (`spec/40_channel_buffer.md` R120, R127, `spec/43_mixer.md` R210) -/

namespace Sys2Proof.Machine

/-! ### Slots (`spec/20_memory.md` R61, R67) -/

/-- The next index uses the next slot, cyclically, across the index wrap too. -/
theorem slot_succ (i : Index) : slot (i + 1#32) = (slot i + 1) % 4096 := by
  rw [slot_eq, slot_eq, BitVec.toNat_add, BitVec.toNat_ofNat]
  omega

/-- Settles O6: an even slot is never the last one, so its frame does not straddle the end of the ring. -/
theorem slotsFollowTheSampleIndex : Obligations.SlotsFollowTheSampleIndex := by
  intro i
  refine ⟨slot_eq i, slot_lt i, slot_succ i, fun heven => ⟨?_, slot_succ_of_even heven⟩⟩
  rw [slot_eq]
  omega

/-- `m` frames after an even index there is an even index again, also across the index wrap. -/
theorem toNat_add_frames_even {w : Index} (h : w.toNat % 2 = 0) (m : Nat) :
    (w + BitVec.ofNat 32 (2 * m)).toNat % 2 = 0 := by
  rw [BitVec.toNat_add, BitVec.toNat_ofNat]
  omega

/-- Fewer than 2048 frames apart, two frames never share a slot. -/
theorem slot_add_frames_ne (w : Index) {a b : Nat} (hab : a < b) (hb : b < a + 2048) :
    slot (w + BitVec.ofNat 32 (2 * a)) ≠ slot (w + BitVec.ofNat 32 (2 * b)) := by
  rw [slot_eq, slot_eq, BitVec.toNat_add, BitVec.toNat_add, BitVec.toNat_ofNat, BitVec.toNat_ofNat]
  omega

/-! ### The state after a list of pushes -/

/-- The frames of a list pushed to one channel, one after the other. -/
def pushAll (c : Chan) (frames : List (Sample × Sample)) (s : State) : State :=
  frames.foldl (fun u x => pushFrame c x.1 x.2 u) s

@[simp] theorem pushAll_nil (c : Chan) (s : State) : pushAll c [] s = s := rfl

@[simp] theorem pushAll_cons (c : Chan) (x : Sample × Sample) (frames : List (Sample × Sample)) (s : State) :
    pushAll c (x :: frames) s = pushAll c frames (pushFrame c x.1 x.2 s) := rfl

@[simp] theorem pushAll_concat (c : Chan) (frames : List (Sample × Sample)) (x : Sample × Sample) (s : State) :
    pushAll c (frames ++ [x]) s = pushFrame c x.1 x.2 (pushAll c frames s) :=
  List.foldl_concat ..

/-- Every push succeeds, so the commands of a list of frames lead to the state after them. -/
theorem execAll_pushes (c : Chan) (frames : List (Sample × Sample)) (s : State) :
    execAll (pushes c frames) s = .next (pushAll c frames s) := by
  induction frames generalizing s with
  | nil => rfl
  | cons x frames ih =>
    have hpush : pushes c (x :: frames) = pushInstr c x.1 x.2 :: pushes c frames := rfl
    rw [hpush, execAll_cons (exec_pushInstr c x.1 x.2 s), ih, pushAll_cons]

/-- The write index advances by two samples for each frame (R120). -/
theorem pushAll_widx (c : Chan) (frames : List (Sample × Sample)) (s : State) :
    (pushAll c frames s).widx = s.widx.set c (s.widx.get c + BitVec.ofNat 32 (2 * frames.length)) := by
  induction frames using List.reverseRecOn with
  | nil => simp
  | append_singleton frames x ih =>
    rw [pushAll_concat, pushFrame_widx, ih, PerChan.set_set, PerChan.get_set_same, List.length_append,
      List.length_singleton, Nat.mul_add, BitVec.ofNat_add, BitVec.add_assoc]

@[simp] theorem pushAll_ridx (c : Chan) (frames : List (Sample × Sample)) (s : State) :
    (pushAll c frames s).ridx = s.ridx := by
  induction frames using List.reverseRecOn with
  | nil => rfl
  | append_singleton frames x ih => rw [pushAll_concat, pushFrame_ridx, ih]

@[simp] theorem pushAll_logen (c : Chan) (frames : List (Sample × Sample)) (s : State) :
    (pushAll c frames s).logen = s.logen := by
  induction frames using List.reverseRecOn with
  | nil => rfl
  | append_singleton frames x ih => rw [pushAll_concat, pushFrame_logen, ih]

theorem pushFrame_wf {s : State} (h : s.mem.wf = true) (c : Chan) (l r : Sample) :
    (pushFrame c l r s).mem.wf = true := by
  rw [pushFrame_mem]
  exact ringWrite_wf c _ l r s h

theorem pushAll_wf {s : State} (h : s.mem.wf = true) (c : Chan) (frames : List (Sample × Sample)) :
    (pushAll c frames s).mem.wf = true := by
  induction frames using List.reverseRecOn with
  | nil => exact h
  | append_singleton frames x ih =>
    rw [pushAll_concat]
    exact pushFrame_wf ih c x.1 x.2

/-! ### The log (R210) -/

/-- While logging is active, one push appends its FRAME beat to the channel's log (R120). -/
theorem pushFrame_logOut_of_on {c : Chan} {s : State} (h : s.logen.get c = true) (l r : Sample) :
    (pushFrame c l r s).logOut = s.logOut.set c (s.logOut.get c ++ [(0#2 ++ (r ++ l) : BitVec 34)]) := by
  rw [pushFrame_logOut, if_pos h]
  rfl

theorem pushAll_logOut {c : Chan} {s : State} (h : s.logen.get c = true) (frames : List (Sample × Sample)) :
    (pushAll c frames s).logOut
      = s.logOut.set c (s.logOut.get c ++ frames.map fun x => (0#2 ++ (x.2 ++ x.1) : BitVec 34)) := by
  induction frames using List.reverseRecOn with
  | nil => simp
  | append_singleton frames x ih =>
    have hon : (pushAll c frames s).logen.get c = true := by rw [pushAll_logen, h]
    rw [pushAll_concat, pushFrame_logOut_of_on hon, ih, PerChan.set_set, PerChan.get_set_same, List.map_append,
      List.append_assoc]
    rfl

/-- Settles O10, by induction on the list of frames for the log and for the write index. -/
theorem logCarriesEveryPushedFrame : Obligations.LogCarriesEveryPushedFrame := fun c frames s hon =>
  ⟨pushAll c frames s, execAll_pushes c frames s, pushAll_logOut hon frames, pushAll_widx c frames s⟩

/-! ### What the ring holds (R127) -/

/-- Pushes that do not wrap past the lag lengthen it by two samples each (`spec/10_state.md` R40, I3). -/
theorem lag_pushAll {c : Chan} {frames : List (Sample × Sample)} {s : State}
    (h : lag c s + 2 * frames.length < 2 ^ 32) : lag c (pushAll c frames s) = lag c s + 2 * frames.length := by
  unfold lag at h ⊢
  rw [pushAll_widx, pushAll_ridx, PerChan.get_set_same, BitVec.toNat_sub, BitVec.toNat_add, BitVec.toNat_ofNat]
  rw [BitVec.toNat_sub] at h ⊢
  have hw := (s.widx.get c).isLt
  have hr := (s.ridx.get c).isLt
  omega

/-- A frame pushed is read back unless 2048 frames or more were pushed after it: each later one lies in another slot
pair (R127). -/
theorem ringRead_pushAll {c : Chan} {s : State} (hwf : s.mem.wf = true) (heven : (s.widx.get c).toNat % 2 = 0)
    {frames : List (Sample × Sample)} {m : Nat} (hm : m < frames.length) (hlast : frames.length ≤ m + 2048) :
    ringRead c (s.widx.get c + BitVec.ofNat 32 (2 * m)) (pushAll c frames s) = frames[m] := by
  induction frames using List.reverseRecOn with
  | nil => exact absurd hm (Nat.not_lt_zero m)
  | append_singleton frames x ih =>
    rw [List.length_append, List.length_singleton] at hm hlast
    have hw : (pushAll c frames s).widx.get c = s.widx.get c + BitVec.ofNat 32 (2 * frames.length) := by
      rw [pushAll_widx, PerChan.get_set_same]
    rw [pushAll_concat, ringRead_congr (pushFrame_mem c x.1 x.2 (pushAll c frames s)), hw,
      ringRead_ringWrite c c x.1 x.2 _ (pushAll_wf hwf c frames) (toNat_add_frames_even heven _)
        (toNat_add_frames_even heven _)]
    rcases Nat.lt_succ_iff_lt_or_eq.1 hm with hlt | rfl
    · rw [if_neg (fun h => slot_add_frames_ne (s.widx.get c) hlt (by omega) h.2), ih hlt (by omega),
        List.getElem_append_left hlt]
    · simp

/-- Settles O9: the lag exceeds the ring, so the repair puts the cursor 2048 frames before the write index, and each
of those frames is still in the ring. -/
theorem overflowKeepsTheNewestFrames : Obligations.OverflowKeepsTheNewestFrames := by
  intro c frames s hwf heven hlag hlen
  have hover : 4096 < lag c (pushAll c frames s) := by
    rw [lag_pushAll hlag]
    omega
  have hsync := resync_of_lt_lag hover
  refine ⟨pushAll c frames s, execAll_pushes c frames s, ?_, fun j hj => ?_⟩
  · rcases resync_cases c (pushAll c frames s) with ⟨hle, -⟩ | ⟨-, -, hlag'⟩
    · omega
    · rw [backlog_eq, hlag']
  · have hm : frames.length - 2048 + j < frames.length := by omega
    have hcursor : s.widx.get c + BitVec.ofNat 32 (2 * frames.length) - 4096#32 + BitVec.ofNat 32 (2 * j)
        = s.widx.get c + BitVec.ofNat 32 (2 * (frames.length - 2048 + j)) := by
      apply BitVec.eq_of_toNat_eq
      simp only [BitVec.toNat_add, BitVec.toNat_sub, BitVec.toNat_ofNat]
      omega
    rw [List.getElem?_eq_getElem hm, ringRead_congr (resync_mem _ c), hsync, setRidx_ridx, PerChan.get_set_same,
      pushAll_widx, PerChan.get_set_same, hcursor, ringRead_pushAll hwf heven hm (by omega)]

end Sys2Proof.Machine
end

section
/-! ## Configuration commands (`spec/43_mixer.md` R203 to R208, `spec/40_channel_buffer.md` R124) -/

namespace Sys2Proof.Machine

/-! ### Commands that answer -/

theorem availAnswer_eq (c : Chan) (s : State) : availAnswer c s = min (lag c s) 4096 / 2 := by
  rw [availAnswer, Nat.shiftRight_eq_div_pow, pow_one]
  rfl

/-- Settles O11: NOP is the empty step, and each of the other two is one beat on CFGRSP. -/
theorem readCommandsAnswerAndChangeNothingElse : Obligations.ReadCommandsAnswerAndChangeNothingElse := by
  intro c s
  have havail : exec (.getavail c) s = .next (emitRsp (BitVec.ofNat 32 (min (lag c s) 4096 / 2)) s) := by
    rw [← availAnswer_eq]
    rfl
  have hspeed : exec .getspeed s = .next (emitRsp (BitVec.ofNat 32 s.speed.toNat) s) := by
    rw [BitVec.ofNat_toNat]
    rfl
  exact ⟨rfl, hspeed, havail, by omega⟩

/-! ### Opening a transaction (R204, R253) -/

theorem exec_cfgbegin_of_closed {s : State} (h : s.txn = false) : exec .cfgbegin s = .next (setTxn true s) :=
  congrArg Host.Outcome.next (if_neg (by simp [h]))

/-- Settles O13: an open transaction is left as it is, with the diagnostic CFG_SEQ(0). -/
theorem cfgbeginOpensATransaction : Obligations.CfgbeginOpensATransaction := fun _ =>
  ⟨exec_cfgbegin_of_closed, fun hopen => congrArg Host.Outcome.next (if_pos hopen)⟩

/-! ### Closing it (R205, R253) -/

theorem exec_cfgcommit_of_open {s : State} (h : s.txn = true) :
    exec .cfgcommit s = .next (setTxn false (copyShadows s)) :=
  congrArg Host.Outcome.next (if_pos h)

theorem copyShadows_rate_get (s : State) (c : Chan) :
    (copyShadows s).rate.get c = if s.dirty.getLsbD c.num then s.shRate.get c else s.rate.get c :=
  PerChan.get_build ..

theorem copyShadows_vol_get (s : State) (c : Chan) :
    (copyShadows s).vol.get c = if s.dirty.getLsbD (3 + c.num) then s.shVol.get c else s.vol.get c :=
  PerChan.get_build ..

theorem copyShadows_speed (s : State) :
    (copyShadows s).speed = if s.dirty.getLsbD 6 then s.shSpeed else s.speed := rfl

/-- Settles O14: with a transaction open the three copies, register by register; with none open the diagnostic
CFG_SEQ(1) alone. -/
theorem cfgcommitCopiesTheDirtyShadows : Obligations.CfgcommitCopiesTheDirtyShadows := by
  intro s
  refine ⟨fun hopen => ?_, fun hclosed => ?_⟩
  · exact ⟨setTxn false (copyShadows s), exec_cfgcommit_of_open hopen, copyShadows_rate_get s, copyShadows_vol_get s,
      copyShadows_speed s, rfl, rfl, rfl⟩
  · exact congrArg Host.Outcome.next (if_neg (by simp [hclosed]))

/-! ### Logs (R206, R207) -/

/-- Settles O16: the first command of each kind switches the log and emits, a repeated one raises its diagnostic. -/
theorem logTogglesStartAndStop : Obligations.LogTogglesStartAndStop := by
  intro c s
  refine ⟨fun hoff => ?_, fun hon => ?_, fun hon => ?_, fun hoff => ?_⟩
  · rw [exec_logstart_of_off hoff, BitVec.ofNat_toNat]
    rfl
  · rw [exec_logstart_of_on hon, raiseDiag, diagBeat_chanArg]
    rfl
  · rw [exec_logstop_of_on hon]
    rfl
  · rw [exec_logstop_of_off hoff, raiseDiag, diagBeat_chanArg]
    rfl

end Sys2Proof.Machine
end

section
/-! ## A transaction and its setters one by one (`spec/43_mixer.md` R199, R204, R205) -/

namespace Sys2Proof.Machine

/-! ### Runs of commands -/

theorem execAll_append {is js : List Instr} {s t : State} (h : execAll is s = .next t) :
    execAll (is ++ js) s = execAll js t := by
  induction is generalizing s with
  | nil =>
    cases h
    rfl
  | cons i is ih =>
    obtain ⟨u, hu⟩ := exec_next i s
    rw [execAll_cons hu] at h
    rw [List.cons_append, execAll_cons hu, ih h]

/-- A setter is one `CfgWrite`, of an item that the state has no part in (R200 to R202). -/
theorem exec_setter {i : Instr} (h : isSetter i = true) : ∃ x, ∀ s, exec i s = .next (cfgWrite x s) := by
  cases i with
  | setrate c rate => exact ⟨.rate c rate, fun _ => rfl⟩
  | setvol c l r => exact ⟨.vol c (volumePair l r), fun _ => rfl⟩
  | setspeed q => exact ⟨.speed q, fun _ => rfl⟩
  | _ => cases h

/-! ### Registers by number (`spec/10_state.md` R23, R29) -/

theorem chan_num_lt (c : Chan) : c.num < 3 := by
  cases c <;> decide

theorem chan_num_inj {c d : Chan} : c.num = d.num ↔ c = d := by
  cases c <;> cases d <;> decide

theorem cr_rate_eq_cr_rate {c d : Chan} {v w : Rate} : (CfgItem.rate c v).cr = (CfgItem.rate d w).cr ↔ c = d :=
  chan_num_inj

theorem cr_vol_eq_cr_vol {c d : Chan} {v w : Vol} : (CfgItem.vol c v).cr = (CfgItem.vol d w).cr ↔ c = d :=
  Nat.add_left_cancel_iff.trans chan_num_inj

/-- CR0 to CR2 come before CR3 to CR5, and these before CR6. -/
theorem cr_rate_lt_cr_vol (c d : Chan) (v : Rate) (w : Vol) : (CfgItem.rate c v).cr < (CfgItem.vol d w).cr :=
  Nat.lt_of_lt_of_le (chan_num_lt c) (Nat.le_add_right ..)

theorem cr_vol_lt_cr_speed (c : Chan) (v : Vol) (q : Speed) : (CfgItem.vol c v).cr < (CfgItem.speed q).cr :=
  Nat.add_lt_add_left (chan_num_lt c) 3

theorem cr_rate_lt_cr_speed (c : Chan) (v : Rate) (q : Speed) : (CfgItem.rate c v).cr < (CfgItem.speed q).cr :=
  Nat.lt_of_lt_of_le (chan_num_lt c) (by decide : 3 ≤ 6)

theorem cr_lt (x : CfgItem) : x.cr < 7 := by
  cases x with
  | rate c v => exact (cr_rate_lt_cr_speed c v 0#26).trans (Nat.lt_succ_self 6)
  | vol c v => exact (cr_vol_lt_cr_speed c v 0#26).trans (Nat.lt_succ_self 6)
  | speed q => exact Nat.lt_succ_self 6

/-- The live value of an item's register. -/
def liveItem (s : State) : CfgItem → CfgItem
  | .rate c _ => .rate c (s.rate.get c)
  | .vol c _ => .vol c (s.vol.get c)
  | .speed _ => .speed s.speed

/-- The shadow value of an item's register. -/
def shadowItem (s : State) : CfgItem → CfgItem
  | .rate c _ => .rate c (s.shRate.get c)
  | .vol c _ => .vol c (s.shVol.get c)
  | .speed _ => .speed s.shSpeed

/-- A live write shows in its own register alone. -/
theorem liveItem_writeLive (x y : CfgItem) (s : State) :
    liveItem (writeLive x s) y = if y.cr = x.cr then x else liveItem s y := by
  cases x with
  | rate c v =>
    cases y with
    | rate d w => by_cases h : d = c <;> simp [liveItem, writeLive, cr_rate_eq_cr_rate, PerChan.get_set, h]
    | vol d w => exact (if_neg (cr_rate_lt_cr_vol ..).ne').symm
    | speed q => exact (if_neg (cr_rate_lt_cr_speed ..).ne').symm
  | vol c v =>
    cases y with
    | rate d w => exact (if_neg (cr_rate_lt_cr_vol ..).ne).symm
    | vol d w => by_cases h : d = c <;> simp [liveItem, writeLive, cr_vol_eq_cr_vol, PerChan.get_set, h]
    | speed q => exact (if_neg (cr_vol_lt_cr_speed ..).ne').symm
  | speed p =>
    cases y with
    | rate d w => exact (if_neg (cr_rate_lt_cr_speed ..).ne).symm
    | vol d w => exact (if_neg (cr_vol_lt_cr_speed ..).ne).symm
    | speed q => rfl

/-- A shadow has the registers of the live side, so a write to it shows in the same way. -/
theorem shadowItem_writeShadow (x y : CfgItem) (s : State) :
    shadowItem (writeShadow x s) y = if y.cr = x.cr then x else shadowItem s y := by
  have h := liveItem_writeLive x y { s with rate := s.shRate, vol := s.shVol, speed := s.shSpeed }
  cases x <;> cases y <;> exact h

/-- CFGCOMMIT, register by register (R205). -/
theorem liveItem_copyShadows (s : State) (y : CfgItem) :
    liveItem (copyShadows s) y = if s.dirty.getLsbD y.cr then shadowItem s y else liveItem s y := by
  cases y with
  | rate c v => rw [liveItem, copyShadows_rate_get, apply_ite (CfgItem.rate c)]; rfl
  | vol c v => rw [liveItem, copyShadows_vol_get, apply_ite (CfgItem.vol c)]; rfl
  | speed q => rw [liveItem, copyShadows_speed, apply_ite CfgItem.speed]; rfl

/-- Setting a dirty bit leaves the others as they are. -/
theorem setDirty_getLsbD {a : Nat} (ha : a < 7) (b : Nat) (s : State) :
    (setDirty a s).dirty.getLsbD b = (decide (b = a) || s.dirty.getLsbD b) := by
  rw [setDirty_dirty, BitVec.getLsbD_or, BitVec.getLsbD_shiftLeft, BitVec.getLsbD_one, Bool.or_comm]
  congr 1
  by_cases hb : b = a
  · simp [hb, ha]
  · simp only [hb, decide_false, Bool.and_eq_false_iff, Bool.not_eq_false', decide_eq_false_iff_not, decide_eq_true_eq]
    omega

/-! ### Writing a shadow and committing it -/

/-- The live registers of two states agree. -/
def SameLive (s t : State) : Prop := ∀ y, liveItem s y = liveItem t y

theorem sameLive_iff {s t : State} : SameLive s t ↔ s.rate = t.rate ∧ s.vol = t.vol ∧ s.speed = t.speed := by
  constructor
  · intro h
    exact ⟨PerChan.ext_get fun c => (CfgItem.rate.inj (h (.rate c 0#26))).2,
      PerChan.ext_get fun c => (CfgItem.vol.inj (h (.vol c ⟨0#8, 0#8⟩))).2, CfgItem.speed.inj (h (.speed 0#26))⟩
  · rintro ⟨hrate, hvol, hspeed⟩ y
    cases y <;> simp only [liveItem, hrate, hvol, hspeed]

/-- A setter inside a transaction, as the commit will show it, is the setter outside one (R199, R205). -/
theorem sameLive_cfgWrite {s t : State} (h : SameLive (copyShadows s) t) (hs : s.txn = true) (ht : t.txn = false)
    (x : CfgItem) : SameLive (copyShadows (cfgWrite x s)) (cfgWrite x t) := by
  intro y
  have hlive : liveItem (setDirty x.cr (writeShadow x s)) y = liveItem s y := by
    cases x <;> cases y <;> rfl
  have hshadow : shadowItem (setDirty x.cr (writeShadow x s)) y = shadowItem (writeShadow x s) y := by
    cases y <;> rfl
  rw [cfgWrite, if_pos hs, cfgWrite_of_txn_eq_false ht, liveItem_writeLive, ← h y, liveItem_copyShadows,
    liveItem_copyShadows, setDirty_getLsbD (cr_lt x), writeShadow_dirty, hlive, hshadow, shadowItem_writeShadow]
  by_cases hcr : y.cr = x.cr
  · simp only [hcr, decide_true, Bool.true_or, if_true]
  · simp only [hcr, decide_false, Bool.false_or, if_false]

/-! ### The whole transaction -/

/-- What setters run outside a transaction (`u`) and inside one (`v`) keep between them: the open transaction has not
touched the live registers `s` has, and its commit would give those of `u`. -/
structure TransactionOf (s u v : State) : Prop where
  closed : u.txn = false
  isOpen : v.txn = true
  live : SameLive v s
  commit : SameLive (copyShadows v) u

theorem transactionOf_setTxn {s : State} (h : s.txn = false) : TransactionOf s s (setTxn true s) where
  closed := h
  isOpen := rfl
  live := fun y => by cases y <;> rfl
  commit := fun y => by
    rw [liveItem_copyShadows, setTxn_dirty, BitVec.getLsbD_zero, if_neg Bool.false_ne_true]
    cases y <;> rfl

theorem TransactionOf.cfgWrite {s u v : State} (h : TransactionOf s u v) (x : CfgItem) :
    TransactionOf s (cfgWrite x u) (cfgWrite x v) where
  closed := (cfgWrite_txn u x).trans h.closed
  isOpen := (cfgWrite_txn v x).trans h.isOpen
  live := fun y => by
    rw [← h.live y, Machine.cfgWrite, if_pos h.isOpen]
    cases x <;> cases y <;> rfl
  commit := sameLive_cfgWrite h.commit h.isOpen h.closed x

/-- Any list of setters, run outside a transaction and inside one. -/
theorem TransactionOf.execAll {xs : List Instr} (hxs : ∀ x ∈ xs, isSetter x = true) {s u v : State}
    (h : TransactionOf s u v) :
    ∃ u' v', execAll xs u = .next u' ∧ execAll xs v = .next v' ∧ TransactionOf s u' v' := by
  induction xs generalizing u v with
  | nil => exact ⟨u, v, rfl, rfl, h⟩
  | cons i xs ih =>
    obtain ⟨hi, hrest⟩ := List.forall_mem_cons.1 hxs
    obtain ⟨x, hx⟩ := exec_setter hi
    rw [execAll_cons (hx u), execAll_cons (hx v)]
    exact ih hrest (h.cfgWrite x)

/-- Settles O15: each setter keeps what relates the two runs, and the commit then makes their live registers the
same. -/
theorem transactionEqualsItsSettersAtOnce : Obligations.TransactionEqualsItsSettersAtOnce := by
  intro xs s hxs hclosed
  obtain ⟨u, v, hu, hv, hrel⟩ := (transactionOf_setTxn hclosed).execAll hxs
  obtain ⟨hvrate, hvvol, hvspeed⟩ := sameLive_iff.1 hrel.live
  obtain ⟨hrate, hvol, hspeed⟩ := sameLive_iff.1 hrel.commit
  refine ⟨u, v, setTxn false (copyShadows v), hu, ?_, ?_, hvrate, hvvol, hvspeed, hrel.isOpen, hrate, hvol, hspeed,
    rfl, rfl⟩
  · rw [execAll_cons (exec_cfgbegin_of_closed hclosed), hv]
  · rw [execAll_cons (exec_cfgbegin_of_closed hclosed), execAll_append hv,
      execAll_cons (exec_cfgcommit_of_open hrel.isOpen)]
    rfl

end Sys2Proof.Machine
end

section
/-! ## What the consumer does, by the state of `SEQ` and of `MIXPORT` (`spec/43_mixer.md` R191) -/

namespace Sys2Proof.Machine

theorem consumer_busy {s : State} (h : s.seq ≠ .idle) : agentStep .consumer s = .next (mixAdvance s) := if_neg h

/-- With no MIX in progress and no beat pending the consumer takes no step (`spec/60_exceptions.md` R266). -/
theorem consumer_waits {s : State} (hseq : s.seq = .idle) (hmix : s.mixIn = []) :
    agentStep .consumer s = .next s := by
  have hp : pending .mix s = [] := hmix
  rw [agentStep, if_pos hseq, servePort, hp]

theorem consumer_illegal {s : State} {w : Beat} {rest : List Beat} {e : Illegal} (hseq : s.seq = .idle)
    (hmix : s.mixIn = w :: rest) (hdec : decodeBeat .mix w = .error e) :
    agentStep .consumer s = .next (illegalStep .mix (setPending .mix rest s)) := by
  have hp : pending .mix s = w :: rest := hmix
  rw [agentStep, if_pos hseq, servePort_cons hp, runBeat_of_decodeBeat_error hdec]

end Sys2Proof.Machine
end

section
/-! ## The transaction is hidden from the consumer (`spec/43_mixer.md` R198) -/

namespace Sys2Proof.Machine

/-- What agent `K` keeps for itself while a transaction is open: `TXN`, `DIRTY` and the shadows (`spec/10_state.md`
R29). -/
structure Transaction where
  txn : Bool
  dirty : BitVec 7
  shRate : PerChan Rate
  shVol : PerChan Vol
  shSpeed : Speed

/-- The state with another transaction. -/
def State.withTransaction (x : Transaction) (s : State) : State :=
  { s with txn := x.txn, dirty := x.dirty, shRate := x.shRate, shVol := x.shVol, shSpeed := x.shSpeed }

section Hidden

variable (x : Transaction) (s : State)

/-- A case split with the transaction replaced in both outcomes. -/
theorem ite_withTransaction {p : Prop} [Decidable p] {s t s' t' : State} (hs : s' = s.withTransaction x)
    (ht : t' = t.withTransaction x) : (if p then s' else t') = (if p then s else t).withTransaction x := by
  rw [hs, ht, apply_ite (State.withTransaction x)]

theorem raiseFlow_withTransaction (code : DiagCode) (c : Chan) :
    raiseFlow code c (s.withTransaction x) = (raiseFlow code c s).withTransaction x :=
  ite_withTransaction x rfl rfl

theorem resync_withTransaction (c : Chan) : resync c (s.withTransaction x) = (resync c s).withTransaction x :=
  ite_withTransaction x rfl rfl

theorem pullHeld_withTransaction (c : Chan) (k : Nat) :
    pullHeld c k (s.withTransaction x) = (pullHeld c k s).withTransaction x := by
  rw [pullHeld, raiseFlow_withTransaction]
  rfl

theorem pullFresh_withTransaction (c : Chan) (k : Nat) (rc : Bool) (avail : Nat) :
    pullFresh c k rc avail (s.withTransaction x) = (pullFresh c k rc avail s).withTransaction x := rfl

theorem pullFrame_withTransaction (c : Chan) (k : Nat) (rc : Bool) :
    pullFrame c k rc (s.withTransaction x) = (pullFrame c k rc s).withTransaction x := by
  rw [pullFrame, resync_withTransaction]
  exact ite_withTransaction x (pullHeld_withTransaction ..) (pullFresh_withTransaction ..)

theorem emitFrame_withTransaction (fmt : MixFormat) (k : Nat) :
    emitFrame fmt k (s.withTransaction x) = (emitFrame fmt k s).withTransaction x := by
  cases fmt <;> rfl

theorem mixAdvance_withTransaction : mixAdvance (s.withTransaction x) = (mixAdvance s).withTransaction x := by
  have hseq : (s.withTransaction x).seq = s.seq := rfl
  unfold mixAdvance
  rw [hseq]
  cases s.seq with
  | idle => rfl
  | pull fmt rc n c k => exact congrArg (setSeq _) (pullFrame_withTransaction x s c k rc)
  | emit fmt n k => exact congrArg (setSeq _) (emitFrame_withTransaction x s fmt k)
  | done n => rfl

end Hidden

/-- Each thing a step of the consumer can do, it does the same with another transaction. -/
theorem consumer_withTransaction (x : Transaction) {s t : State} (h : agentStep .consumer s = .next t) :
    agentStep .consumer (s.withTransaction x) = .next (t.withTransaction x) := by
  rcases consumer_cases h with ⟨hbusy, rfl⟩ | ⟨hidle, hempty, rfl⟩ | ⟨hidle, w, rest, hmix, hrun⟩
  · exact (consumer_busy (s := s.withTransaction x) hbusy).trans
      (congrArg Host.Outcome.next (mixAdvance_withTransaction x s))
  · exact consumer_waits (s := t.withTransaction x) hidle hempty
  · rcases hrun with ⟨fmt, rc, n, hdec, rfl⟩ | ⟨⟨e, hdec⟩, rfl⟩
    · exact consumer_start (s := s.withTransaction x) hidle hmix hdec
    · exact consumer_illegal (s := s.withTransaction x) hidle hmix hdec

/-- Settles O47: the replaced values are a transaction. -/
theorem consumerIgnoresTheTransaction : Obligations.ConsumerIgnoresTheTransaction :=
  fun _ _ txn dirty shRate shVol shSpeed h => consumer_withTransaction ⟨txn, dirty, shRate, shVol, shSpeed⟩ h

end Sys2Proof.Machine
end

section
/-! ## Who writes what, and who can step (`spec/10_state.md` section 5, `spec/20_memory.md` section 3) -/

namespace Sys2Proof.Machine

/-! ### The frames of the consumer's steps (`spec/43_mixer.md` R191) -/

/-- A step of the sequencer writes the read side, the accumulator, `SEQ`, the dither state, MIXOUT and DIAGOUT. -/
theorem mixAdvance_frame (s : State) :
    let t := mixAdvance s
    t = { s with
      mem := t.mem, ridx := t.ridx, frac := t.frac, holdL := t.holdL, holdR := t.holdR, seq := t.seq
      dprevL := t.dprevL, dprevR := t.dprevR, prng := t.prng, mixOut := t.mixOut, diagOut := t.diagOut } := by
  unfold mixAdvance
  cases s.seq with
  | idle => rfl
  | pull fmt rc n c k => ext1; all_goals simp [pullStep]
  | emit fmt n k => ext1; all_goals simp [emitStep]
  | done n => rfl

/-- The sequencer never writes a ring. -/
theorem mixAdvance_ring (s : State) : (mixAdvance s).mem.ring = s.mem.ring := by
  unfold mixAdvance
  cases s.seq with
  | idle => rfl
  | pull fmt rc n c k => exact pullFrame_ring c k rc s
  | emit fmt n k => exact congrArg Memory.ring (emitFrame_mem s fmt k)
  | done n => rfl

theorem consumer_frame {s t : State} (h : agentStep .consumer s = .next t) :
    t.mem.ring = s.mem.ring
      ∧ t = { s with
          mem := t.mem, ridx := t.ridx, frac := t.frac, holdL := t.holdL, holdR := t.holdR, seq := t.seq
          dprevL := t.dprevL, dprevR := t.dprevR, prng := t.prng, mixOut := t.mixOut, diagOut := t.diagOut
          mixIn := t.mixIn } := by
  rcases consumer_cases h with ⟨-, rfl⟩ | ⟨-, -, rfl⟩ | ⟨-, w, rest, -, ⟨fmt, rc, n, -, rfl⟩ | ⟨-, rfl⟩⟩
  · refine ⟨mixAdvance_ring s, ?_⟩
    rw [mixAdvance_frame]
  · exact ⟨rfl, rfl⟩
  · exact ⟨rfl, rfl⟩
  · exact ⟨rfl, rfl⟩

/-! ### The frames of the other agents -/

theorem config_frame {s t : State} (h : agentStep .config s = .next t) :
    t = { s with
      rate := t.rate, vol := t.vol, speed := t.speed, logen := t.logen, txn := t.txn, dirty := t.dirty
      shRate := t.shRate, shVol := t.shVol, shSpeed := t.shSpeed, cfgRsp := t.cfgRsp, logOut := t.logOut
      diagOut := t.diagOut, cfgIn := t.cfgIn } := by
  rcases config_cases h with rfl | ⟨w, rest, -, heffect⟩
  · rfl
  · cases heffect with
    | write x =>
      ext1
      all_goals simp [setPending]
    | _ => rfl

theorem producer_frame {c : Chan} {s t : State} (h : agentStep (.producer c) s = .next t) :
    (∀ d, d ≠ c → t.mem.ring.get d = s.mem.ring.get d ∧ t.widx.get d = s.widx.get d
        ∧ t.logOut.get d = s.logOut.get d ∧ t.pushIn.get d = s.pushIn.get d)
      ∧ t.mem.accL = s.mem.accL ∧ t.mem.accR = s.mem.accR
      ∧ t = { s with
          mem := t.mem, widx := t.widx, logOut := t.logOut, diagOut := t.diagOut, pushIn := t.pushIn } := by
  rcases producer_cases h with rfl | ⟨w, rest, -, rfl⟩
  · exact ⟨fun _ _ => ⟨rfl, rfl, rfl, rfl⟩, rfl, rfl, rfl⟩
  · refine ⟨fun d hd => ⟨?_, ?_, ?_, ?_⟩, ?_, ?_, ?_⟩
    · rw [pushFrame_mem]
      exact PerChan.get_set_ne _ _ hd
    · rw [pushFrame_widx]
      exact PerChan.get_set_ne _ _ hd
    · rw [pushFrame_logOut]
      split
      · exact PerChan.get_set_ne _ _ hd
      · rfl
    · rw [pushFrame_pushIn]
      exact PerChan.get_set_ne _ _ hd
    · rw [pushFrame_mem]
      rfl
    · rw [pushFrame_mem]
      rfl
    · rw [pushFrame_frame]
      rfl

/-- Settles O46, agent by agent. -/
theorem eachPieceOfStateHasOneWriter : Obligations.EachPieceOfStateHasOneWriter := fun _ _ =>
  ⟨fun _ => producer_frame, consumer_frame, config_frame⟩

/-! ### Parameters (`spec/00_scope.md` R9) -/

theorem agentStep_parameters {a : Agent} {s t : State} (h : agentStep a s = .next t) :
    t.outRate = s.outRate ∧ t.tuning = s.tuning := by
  cases a with
  | producer c =>
    obtain ⟨-, -, -, hframe⟩ := producer_frame h
    rw [hframe]
    exact ⟨rfl, rfl⟩
  | consumer =>
    rw [(consumer_frame h).2]
    exact ⟨rfl, rfl⟩
  | config =>
    rw [config_frame h]
    exact ⟨rfl, rfl⟩

theorem step_parameters {s t : State} (h : step s = .next t) : t.outRate = s.outRate ∧ t.tuning = s.tuning := by
  rcases step_cases h with ⟨-, rfl⟩ | ⟨a, -, hagent⟩
  · exact ⟨rfl, rfl⟩
  · exact agentStep_parameters (s := takeTurn s) hagent

/-- Settles O50, by the frames of the agents' steps. -/
theorem parametersNeverChange : Obligations.ParametersNeverChange := fun _ _ => step_parameters

/-! ### Enabled steps (`spec/60_exceptions.md` R266) -/

/-- No agent takes or gives beats of a port that another drives. -/
theorem pending_of_other_agentStep {a b : Agent} (hab : a ≠ b) {s t : State} (h : agentStep a s = .next t) :
    pending b.port t = pending b.port s := by
  cases a with
  | producer c =>
    obtain ⟨hother, -, -, hframe⟩ := producer_frame h
    cases b with
    | producer d => exact (hother d fun hdc => hab (congrArg Agent.producer hdc.symm)).2.2.2
    | consumer => rw [hframe]; rfl
    | config => rw [hframe]; rfl
  | consumer =>
    rw [(consumer_frame h).2]
    cases b with
    | consumer => exact absurd rfl hab
    | producer d => rfl
    | config => rfl
  | config =>
    rw [config_frame h]
    cases b with
    | config => exact absurd rfl hab
    | producer d => rfl
    | consumer => rfl

/-- Settles O45: another agent's step leaves the beats an agent waits for, and leaves `SEQ` to the consumer. -/
theorem noStepDisablesAnotherAgent : Obligations.NoStepDisablesAnotherAgent := by
  intro s t a b hab hb h
  have hpending := pending_of_other_agentStep hab h
  have hseq : b = .consumer → t.seq = s.seq := fun hcons => (agentStep_mix_frame (hcons ▸ hab) h).1
  unfold enabled at hb ⊢
  rw [hpending]
  by_cases hcons : b = .consumer
  · rwa [hseq hcons]
  · simpa [hcons] using hb

/-- Settles O44: every agent's step answers a next state, and so does the step of a block in which none is enabled. -/
theorem everyStepHasANextState : Obligations.EveryStepHasANextState := step_next

end Sys2Proof.Machine
end

section
/-! ## Flow diagnostics (`spec/60_exceptions.md` R250, R254) -/

namespace Sys2Proof.Machine

/-- The state without what flow diagnostics may differ in: the parameter that enables them, and DIAGOUT. -/
def State.quiet (s : State) : State := { s.withFlow false with diagOut := [] }

/-- The state is put together again from the rest, its parameter and its DIAGOUT beats. -/
theorem withFlow_quiet {s : State} {b : Bool} (h : s.tuning.diagFlowEn = b) :
    s.quiet.withFlow b = { s with diagOut := [] } := by
  subst h
  rfl

@[simp] theorem State.quiet_quiet (s : State) : s.quiet.quiet = s.quiet := rfl

/-! ### What the parameter and DIAGOUT do not reach

Each operation gives, on the state without them, what it gives on the state itself but for them. -/

theorem raiseDiag_quiet (code : DiagCode) (arg : BitVec 4) (s : State) : (raiseDiag code arg s).quiet = s.quiet := rfl

@[simp] theorem raiseFlow_quiet (code : DiagCode) (c : Chan) (s : State) : (raiseFlow code c s).quiet = s.quiet := by
  unfold raiseFlow
  split
  · exact raiseDiag_quiet code (chanArg c) s
  · rfl

@[simp] theorem overflowCheck_quiet (c : Chan) (s : State) : (overflowCheck c s).quiet = s.quiet := by
  unfold overflowCheck
  split
  · exact raiseFlow_quiet .overflow c s
  · rfl

/-- A case split whose outcomes agree but for the diagnostics. -/
theorem ite_quiet {p : Prop} [Decidable p] {s t s' t' : State} (hs : s'.quiet = s.quiet) (ht : t'.quiet = t.quiet) :
    (if p then s' else t').quiet = (if p then s else t).quiet := by
  rw [apply_ite State.quiet, apply_ite State.quiet, hs, ht]

theorem ringWrite_quiet (c : Chan) (i : Index) (l r : Sample) (s : State) :
    (ringWrite c i l r s).quiet = ringWrite c i l r s.quiet := rfl

theorem setWidx_quiet (c : Chan) (v : Index) (s : State) : (setWidx c v s).quiet = setWidx c v s.quiet := rfl

theorem logCopy_quiet (c : Chan) (l r : Sample) (s : State) : (logCopy c l r s.quiet).quiet = (logCopy c l r s).quiet :=
  ite_quiet rfl rfl

theorem pushFrame_quiet (c : Chan) (l r : Sample) (s : State) :
    (pushFrame c l r s.quiet).quiet = (pushFrame c l r s).quiet := by
  have hwidx : s.quiet.widx = s.widx := rfl
  rw [pushFrame, pushFrame, ← logCopy_quiet, ← logCopy_quiet c l r (setWidx ..), setWidx_quiet, setWidx_quiet,
    ringWrite_quiet, ringWrite_quiet, overflowCheck_quiet, overflowCheck_quiet, State.quiet_quiet, hwidx]

theorem cfgWrite_quiet (x : CfgItem) (s : State) : (cfgWrite x s.quiet).quiet = (cfgWrite x s).quiet := by
  cases x
  all_goals exact ite_quiet rfl rfl

theorem mixStart_quiet (fmt : MixFormat) (rc : Bool) (n : Nat) (s : State) :
    (mixStart fmt rc n s.quiet).quiet = (mixStart fmt rc n s).quiet :=
  ite_quiet rfl rfl

theorem resync_quiet (c : Chan) (s : State) : resync c s.quiet = (resync c s).quiet := by
  rw [resync, resync, apply_ite State.quiet]
  rfl

theorem accumulate_quiet (c : Chan) (k : Nat) (pair : Hold × Hold) (s : State) :
    (accumulate c k pair s).quiet = accumulate c k pair s.quiet := rfl

theorem pullHeld_quiet (c : Chan) (k : Nat) (s : State) : (pullHeld c k s.quiet).quiet = (pullHeld c k s).quiet := by
  rw [pullHeld, pullHeld, accumulate_quiet, accumulate_quiet, raiseFlow_quiet, raiseFlow_quiet]
  rfl

/-- The step value reads other parameters than the one that enables flow diagnostics (R161, R162). -/
theorem nextPos_quiet (c : Chan) (avail : Nat) (rc : Bool) (s : State) :
    nextPos c avail rc s.quiet = nextPos c avail rc s := by
  have hshift : shift s.quiet.tuning avail = shift s.tuning avail := rfl
  rw [nextPos, nextPos, stepValue, stepValue, stepNum, stepNum, hshift]
  rfl

theorem advance_quiet (c : Chan) (avail : Nat) (rc : Bool) (s : State) :
    (advance c avail rc s).quiet = advance c avail rc s.quiet := by
  rw [advance, advance, nextPos_quiet]
  rfl

theorem pullFresh_quiet (c : Chan) (k : Nat) (rc : Bool) (avail : Nat) (s : State) :
    (pullFresh c k rc avail s.quiet).quiet = (pullFresh c k rc avail s).quiet := by
  have hinterp : interp c avail s.quiet = interp c avail s := interp_congr rfl rfl rfl
  rw [pullFresh, pullFresh, hinterp, accumulate_quiet, accumulate_quiet, advance_quiet, advance_quiet]
  rfl

theorem pullFrame_quiet (c : Chan) (k : Nat) (rc : Bool) (s : State) :
    (pullFrame c k rc s.quiet).quiet = (pullFrame c k rc s).quiet := by
  rw [pullFrame, pullFrame, resync_quiet]
  exact ite_quiet (pullHeld_quiet ..) (pullFresh_quiet ..)

theorem emitFrame_quiet (fmt : MixFormat) (k : Nat) (s : State) :
    (emitFrame fmt k s.quiet).quiet = (emitFrame fmt k s).quiet := by
  cases fmt <;> rfl

theorem mixAdvance_quiet (s : State) : (mixAdvance s.quiet).quiet = (mixAdvance s).quiet := by
  have hseq : s.quiet.seq = s.seq := rfl
  unfold mixAdvance
  rw [hseq]
  cases s.seq with
  | idle => rfl
  | pull fmt rc n c k => exact congrArg (setSeq (nextPull fmt rc n c k)) (pullFrame_quiet c k rc s)
  | emit fmt n k => exact congrArg (setSeq (nextEmit fmt n k)) (emitFrame_quiet fmt k s)
  | done n => rfl

/-! ### Steps and runs -/

theorem exec_quiet {i : Instr} {s t : State} (h : exec i s = .next t) :
    ∃ u, exec i s.quiet = .next u ∧ u.quiet = t.quiet := by
  cases i with
  | pushfDma l r => cases h; exact ⟨_, rfl, pushFrame_quiet ..⟩
  | pushfStr l r => cases h; exact ⟨_, rfl, pushFrame_quiet ..⟩
  | pushfAux l r => cases h; exact ⟨_, rfl, pushFrame_quiet ..⟩
  | mixS16 rc n => cases h; exact ⟨_, rfl, mixStart_quiet ..⟩
  | mixF32 rc n => cases h; exact ⟨_, rfl, mixStart_quiet ..⟩
  | setrate c rate => cases h; exact ⟨_, rfl, cfgWrite_quiet ..⟩
  | setvol c l r => cases h; exact ⟨_, rfl, cfgWrite_quiet ..⟩
  | setspeed q => cases h; exact ⟨_, rfl, cfgWrite_quiet ..⟩
  | nop => cases h; exact ⟨_, rfl, rfl⟩
  | getspeed => cases h; exact ⟨_, rfl, rfl⟩
  | getavail c => cases h; exact ⟨_, rfl, rfl⟩
  | logstart c => cases h; exact ⟨_, rfl, ite_quiet rfl rfl⟩
  | logstop c => cases h; exact ⟨_, rfl, ite_quiet rfl rfl⟩
  | cfgbegin => cases h; exact ⟨_, rfl, ite_quiet rfl rfl⟩
  | cfgcommit => cases h; exact ⟨_, rfl, ite_quiet rfl rfl⟩

theorem runBeat_quiet {p : Port} {w : Beat} {s t : State} (h : runBeat p w s = .next t) :
    ∃ u, runBeat p w s.quiet = .next u ∧ u.quiet = t.quiet := by
  cases hdec : decodeBeat p w with
  | ok i =>
    rw [runBeat_of_decodeBeat_ok hdec] at h ⊢
    exact exec_quiet h
  | error e =>
    rw [runBeat_of_decodeBeat_error hdec] at h ⊢
    cases h
    exact ⟨_, rfl, rfl⟩

theorem setPending_quiet (p : Port) (beats : List Beat) (s : State) :
    (setPending p beats s).quiet = setPending p beats s.quiet := by
  cases p <;> rfl

theorem pending_quiet (p : Port) (s : State) : pending p s.quiet = pending p s := by
  cases p <;> rfl

theorem servePort_quiet {p : Port} {s t : State} (h : servePort p s = .next t) :
    ∃ u, servePort p s.quiet = .next u ∧ u.quiet = t.quiet := by
  rcases servePort_cases h with ⟨hp, rfl⟩ | ⟨w, rest, hp, hrun⟩
  · refine ⟨t.quiet, ?_, rfl⟩
    rw [servePort, pending_quiet, hp]
  · rw [servePort_cons ((pending_quiet p s).trans hp), ← setPending_quiet]
    exact runBeat_quiet hrun

theorem agentStep_quiet {a : Agent} {s t : State} (h : agentStep a s = .next t) :
    ∃ u, agentStep a s.quiet = .next u ∧ u.quiet = t.quiet := by
  cases a with
  | producer c => exact servePort_quiet h
  | config => exact servePort_quiet h
  | consumer =>
    by_cases hidle : s.seq = .idle
    · rw [agentStep, if_pos hidle] at h
      obtain ⟨u, hu, hut⟩ := servePort_quiet h
      exact ⟨u, (if_pos hidle).trans hu, hut⟩
    · rw [consumer_busy hidle] at h
      cases h
      exact ⟨_, consumer_busy (s := s.quiet) hidle, mixAdvance_quiet s⟩

/-- Who steps next does not depend on the diagnostics. -/
theorem nextAgent_quiet (s : State) : nextAgent s.quiet = nextAgent s := by
  have henabled : enabled s.quiet = enabled s := by
    funext a
    rw [enabled, enabled, pending_quiet]
    rfl
  unfold nextAgent
  rw [henabled]
  rfl

theorem step_quiet {s t : State} (h : step s = .next t) : ∃ u, step s.quiet = .next u ∧ u.quiet = t.quiet := by
  rcases step_cases h with ⟨hnone, rfl⟩ | ⟨a, hagent, hstep⟩
  · exact ⟨t.quiet, by rw [step, blockStep, nextAgent_quiet, hnone], rfl⟩
  · rw [step_agent ((nextAgent_quiet s).trans hagent)]
    exact agentStep_quiet hstep

/-- Runs from states that agree but for the diagnostics agree but for them, and each keeps its own parameters. -/
theorem run_quiet (k : Nat) {a b : State} (h : a.quiet = b.quiet) :
    ∃ a' b', core.run k a = .next a' ∧ core.run k b = .next b' ∧ a'.quiet = b'.quiet ∧ b'.tuning = b.tuning := by
  induction k generalizing a b with
  | zero => exact ⟨a, b, rfl, rfl, h, rfl⟩
  | succ k ih =>
    obtain ⟨a₁, ha⟩ := step_next a
    obtain ⟨b₁, hb⟩ := step_next b
    obtain ⟨u, hu, hua⟩ := step_quiet ha
    obtain ⟨v, hv, hvb⟩ := step_quiet hb
    rw [← h, hu] at hv
    cases hv
    obtain ⟨a', b', ha', hb', hab, htuning⟩ := ih (hua.symm.trans hvb)
    exact ⟨a', b', (run_succ k ha).trans ha', (run_succ k hb).trans hb', hab, htuning.trans (step_parameters hb).2⟩

/-- Settles O48: the two runs agree but for the diagnostics, and the second keeps the value `b` of the parameter. -/
theorem flowDiagnosticsDecideNothing : Obligations.FlowDiagnosticsDecideNothing := by
  intro b k s
  obtain ⟨t, t', ht, ht', hquiet, htuning⟩ := run_quiet k (a := s) (b := s.withFlow b) rfl
  have hflow : t'.tuning.diagFlowEn = b := congrArg Tuning.diagFlowEn htuning
  refine ⟨t, t', ht, ht', ?_⟩
  rw [← withFlow_quiet hflow, ← hquiet]
  rfl

end Sys2Proof.Machine
end

section
/-! ## The output streams (`spec/60_exceptions.md` R251, R256, `spec/30_encoding.md` R104, R106) -/

namespace Sys2Proof.Machine

/-- A stream grows by at most one beat, and that beat is an allowed one. -/
def AppendsAtMostOne {α : Type} (allowed : α → Prop) (old new : List α) : Prop :=
  ∃ beats, new = old ++ beats ∧ beats.length ≤ 1 ∧ ∀ b ∈ beats, allowed b

theorem AppendsAtMostOne.refl {α : Type} (allowed : α → Prop) (l : List α) : AppendsAtMostOne allowed l l :=
  ⟨[], (List.append_nil l).symm, Nat.zero_le 1, by simp⟩

theorem AppendsAtMostOne.one {α : Type} {allowed : α → Prop} {b : α} (h : allowed b) (l : List α) :
    AppendsAtMostOne allowed l (l ++ [b]) :=
  ⟨[b], rfl, Nat.le_refl 1, by simpa using h⟩

/-- What a step can do to the output streams. -/
structure OnlyAppends (s t : State) : Prop where
  diag : AppendsAtMostOne (· ∈ diagBeats) s.diagOut t.diagOut
  mix : ∃ beats, t.mixOut = s.mixOut ++ beats ∧ ∀ b ∈ beats, b.extractLsb' 32 2 ≠ 3#2
  rsp : AppendsAtMostOne (fun _ => True) s.cfgRsp t.cfgRsp
  log : ∀ c, AppendsAtMostOne (fun b => b.extractLsb' 32 2 ≠ 3#2) (s.logOut.get c) (t.logOut.get c)

/-- A step that answers on DIAGOUT at most. -/
theorem OnlyAppends.of_diag {s t : State} (hdiag : AppendsAtMostOne (· ∈ diagBeats) s.diagOut t.diagOut)
    (hmix : t.mixOut = s.mixOut) (hrsp : t.cfgRsp = s.cfgRsp) (hlog : t.logOut = s.logOut) : OnlyAppends s t where
  diag := hdiag
  mix := ⟨[], by rw [hmix, List.append_nil], by simp⟩
  rsp := hrsp ▸ .refl ..
  log := fun _ => hlog ▸ .refl ..

/-- A step that answers on MIXOUT at most. -/
theorem OnlyAppends.of_mix {s t : State}
    (hmix : ∃ beats, t.mixOut = s.mixOut ++ beats ∧ ∀ b ∈ beats, b.extractLsb' 32 2 ≠ 3#2)
    (hdiag : t.diagOut = s.diagOut) (hrsp : t.cfgRsp = s.cfgRsp) (hlog : t.logOut = s.logOut) : OnlyAppends s t where
  diag := hdiag ▸ .refl ..
  mix := hmix
  rsp := hrsp ▸ .refl ..
  log := fun _ => hlog ▸ .refl ..

theorem OnlyAppends.refl (s : State) : OnlyAppends s s := .of_diag (.refl ..) rfl rfl rfl

/-! ### Diagnostics and kinds -/

/-- Each flow diagnostic is of the closed set, for every channel (R251). -/
theorem flowDiag_known (c : Chan) :
    diagBeat .overflow (chanArg c) ∈ diagBeats ∧ diagBeat .underrun (chanArg c) ∈ diagBeats := by
  cases c <;> decide

theorem illegalDiag_known (p : Port) : diagBeat .illegalCmd (illegalArg p) ∈ diagBeats := by
  rw [diagBeat_illegalCmd]
  split <;> decide

theorem raiseFlow_appends {code : DiagCode} {c : Chan} (h : diagBeat code (chanArg c) ∈ diagBeats) (s : State) :
    AppendsAtMostOne (· ∈ diagBeats) s.diagOut (raiseFlow code c s).diagOut := by
  unfold raiseFlow
  split
  · exact .one h _
  · exact .refl ..

theorem overflowCheck_appends (c : Chan) (s : State) :
    AppendsAtMostOne (· ∈ diagBeats) s.diagOut (overflowCheck c s).diagOut := by
  unfold overflowCheck
  split
  · exact raiseFlow_appends (flowDiag_known c).1 s
  · exact .refl ..

/-- UNDERRUN is the one diagnostic of a pull (`spec/42_resampler.md` R166). -/
theorem pullFrame_appends (c : Chan) (k : Nat) (rc : Bool) (s : State) :
    AppendsAtMostOne (· ∈ diagBeats) s.diagOut (pullFrame c k rc s).diagOut := by
  rcases Nat.lt_or_ge (lag c s) 2 with hempty | hfresh
  · rw [pullFrame_empty hempty]
    exact raiseFlow_appends (flowDiag_known c).2 s
  · rw [pullFrame_fresh hfresh, pullFresh, accumulate_diagOut, advance_diagOut, setHold_diagOut, resync_diagOut]
    exact .refl ..

/-- No kind of a MIXOUT beat is 3 (R104). -/
theorem mixBeat_kind_ne_three (kind : MixKind) (d : BitVec 32) : (mixBeat kind d).extractLsb' 32 2 ≠ 3#2 := by
  rw [mixBeat_kind]
  cases kind <;> decide

/-- No kind of a LOGOUT beat is 3 (R106). -/
theorem logBeat_kind_ne_three (kind : LogKind) (d : BitVec 32) : (logBeat kind d).extractLsb' 32 2 ≠ 3#2 := by
  rw [logBeat_kind]
  cases kind <;> decide

theorem emitLog_appends (c d : Chan) (kind : LogKind) (data : BitVec 32) (s : State) :
    AppendsAtMostOne (fun b => b.extractLsb' 32 2 ≠ 3#2) (s.logOut.get d) ((emitLog c kind data s).logOut.get d) := by
  rw [emitLog_logOut, PerChan.get_set]
  split
  case isTrue hdc =>
    rw [hdc]
    refine .one ?_ _
    exact logBeat_kind_ne_three kind data
  case isFalse => exact .refl ..

/-! ### The agents -/

theorem pushFrame_onlyAppends (c : Chan) (l r : Sample) (s : State) : OnlyAppends s (pushFrame c l r s) where
  diag := by
    rw [pushFrame_diagOut]
    exact overflowCheck_appends c s
  mix := ⟨[], by simp, by simp⟩
  rsp := by
    rw [pushFrame_cfgRsp]
    exact .refl ..
  log := fun d => by
    rw [pushFrame_logOut]
    split
    · exact emitLog_appends c d .frame (frameWord l r) s
    · exact .refl ..

theorem ConfigEffect.onlyAppends {s t : State} (h : ConfigEffect s t) : OnlyAppends s t := by
  cases h with
  | nothing => exact .refl s
  | write x => exact .of_diag (by rw [cfgWrite_diagOut]; exact .refl ..) (by simp) (by simp) (by simp)
  | answer data => exact ⟨.refl .., ⟨[], by simp, by simp⟩, .one trivial _, fun _ => .refl ..⟩
  | logStart c off => exact ⟨.refl .., ⟨[], by simp, by simp⟩, .refl .., fun d => emitLog_appends c d .start _ _⟩
  | logStop c on => exact ⟨.refl .., ⟨[], by simp, by simp⟩, .refl .., fun d => emitLog_appends c d .stop _ _⟩
  | warn code arg known => exact .of_diag (.one known _) rfl rfl rfl
  | opened closed => exact .of_diag (.refl ..) rfl rfl rfl
  | committed isOpen => exact .of_diag (.refl ..) rfl rfl rfl

theorem mixAdvance_onlyAppends (s : State) : OnlyAppends s (mixAdvance s) := by
  unfold mixAdvance
  cases s.seq with
  | idle => exact .refl s
  | pull fmt rc n c k =>
    exact .of_diag (pullFrame_appends c k rc s) (pullFrame_mixOut ..) (pullFrame_cfgRsp ..) (pullFrame_logOut ..)
  | emit fmt n k =>
    obtain ⟨frame, hout, -, hkind⟩ := emitFrame_mixOut fmt k s
    have hne : fmt.frameKind.code ≠ 3#2 := by cases fmt <;> decide
    exact .of_mix ⟨frame, hout, fun b hb => hkind b hb ▸ hne⟩ (emitFrame_diagOut ..) (emitFrame_cfgRsp ..)
      (emitFrame_logOut ..)
  | done n =>
    exact .of_mix ⟨[_], rfl, by simpa using mixBeat_kind_ne_three .done (BitVec.ofNat 32 n)⟩ rfl rfl rfl

/-- The streams of a state without a beat or a turn are those of the state. -/
theorem OnlyAppends.of_setPending {p : Port} {beats : List Beat} {s t : State}
    (h : OnlyAppends (setPending p beats s) t) : OnlyAppends s t := by
  obtain ⟨hdiag, hmix, hrsp, hlog⟩ := h
  simp only [setPending_diagOut, setPending_mixOut, setPending_cfgRsp, setPending_logOut] at hdiag hmix hrsp hlog
  exact ⟨hdiag, hmix, hrsp, hlog⟩

theorem OnlyAppends.of_takeTurn {s t : State} (h : OnlyAppends (takeTurn s) t) : OnlyAppends s t :=
  ⟨h.diag, h.mix, h.rsp, h.log⟩

theorem agentStep_onlyAppends {a : Agent} {s t : State} (h : agentStep a s = .next t) : OnlyAppends s t := by
  cases a with
  | producer c =>
    rcases producer_cases h with rfl | ⟨w, rest, -, rfl⟩
    · exact .refl t
    · exact (pushFrame_onlyAppends ..).of_setPending
  | config =>
    rcases config_cases h with rfl | ⟨w, rest, -, heffect⟩
    · exact .refl t
    · exact heffect.onlyAppends.of_setPending
  | consumer =>
    rcases consumer_cases h with ⟨-, rfl⟩ | ⟨-, -, rfl⟩ | ⟨-, w, rest, -, ⟨fmt, rc, n, -, rfl⟩ | ⟨-, rfl⟩⟩
    · exact mixAdvance_onlyAppends s
    · exact .refl t
    · exact .of_diag (.refl ..) rfl rfl rfl
    · exact .of_diag (.one (illegalDiag_known .mix) _) rfl rfl rfl

/-- Settles O49, agent by agent. -/
theorem stepsOnlyAppendAndRaiseAtMostOneDiagnostic : Obligations.StepsOnlyAppendAndRaiseAtMostOneDiagnostic := by
  intro s t h
  have happends : OnlyAppends s t := by
    rcases step_cases h with ⟨-, rfl⟩ | ⟨a, -, hagent⟩
    · exact .refl t
    · exact (agentStep_onlyAppends hagent).of_takeTurn
  obtain ⟨rs, hrs, hlen, -⟩ := happends.rsp
  exact ⟨happends.diag, happends.mix, ⟨rs, hrs, hlen⟩, happends.log⟩

end Sys2Proof.Machine
end

section
/-! ## The steps of a MIX command, one by one (`spec/43_mixer.md` R191) -/

namespace Sys2Proof.Machine

theorem mixStart_of_idle {s : State} (h : s.seq = .idle) (fmt : MixFormat) (rc : Bool) (n : Nat) :
    mixStart fmt rc n s = setSeq (startSeq fmt rc n) (accClear n s) := if_pos h

/-- Settles O37: START is the clear of the accumulator and the latch in `SEQ`. -/
theorem mixStartClearsTheAccumulatorAndLatches : Obligations.MixStartClearsTheAccumulatorAndLatches := by
  intro fmt rc n s hidle
  refine ⟨setSeq (startSeq fmt rc n.toNat) (accClear n.toNat s), ?_, rfl, fun side j => ?_, fun c a => rfl, rfl⟩
  · rw [exec_mixInstr, mixStart_of_idle hidle]
  · exact (accCell_congr (setSeq_mem ..) side j).trans (accCell_accClear n.toNat j side s)

/-- Settles O38: START has the premise `SEQ = IDLE`, and the sequencer takes no beat. -/
theorem mixportWaitsWhileAMixIsInProgress : Obligations.MixportWaitsWhileAMixIsInProgress := by
  intro fmt rc n s hbusy
  refine ⟨?_, mixAdvance s, consumer_busy hbusy, ?_⟩
  · rw [exec_mixInstr, mixStart, if_neg hbusy]
  · rw [mixAdvance_frame]

/-- Settles O34: the two conversions read the accumulator alone, so the second is not touched by the first. -/
theorem emitStepOfMixF32EmitsTheTwoSamples : Obligations.EmitStepOfMixF32EmitsTheTwoSamples := by
  intro s n k hseq
  have hout : (emitF32 k s).mixOut = s.mixOut ++ [(1#2 ++ toF32 (accCell .left k s) : BitVec 34),
      (1#2 ++ toF32 (accCell .right k s) : BitVec 34)] := List.append_assoc ..
  rw [consumer_emit hseq, ← hout]
  rfl

/-- The agent's step serves its port, but for the consumer while a MIX is in progress (`spec/30_encoding.md` R90). -/
theorem agentStep_eq_servePort {a : Agent} {s : State} (h : a = .consumer → s.seq = .idle) :
    agentStep a s = servePort a.port s := by
  cases a with
  | consumer => exact if_pos (h rfl)
  | producer c => rfl
  | config => rfl

/-- Settles O42: the step is the agent's, which serves its port with the first beat pending there. -/
theorem stepRunsTheDecodedCommand : Obligations.StepRunsTheDecodedCommand := by
  intro s a w rest hagent hidle hpending
  have hpending' : pending a.port (takeTurn s) = w :: rest := by
    rw [← hpending]
    cases a <;> rfl
  have hstep : step s = runBeat a.port w (setPending a.port rest (takeTurn s)) := by
    rw [step_agent hagent, agentStep_eq_servePort (s := takeTurn s) hidle, servePort_cons hpending']
  rw [hstep]
  exact ⟨fun i hdec => runBeat_of_decodeBeat_ok hdec _, fun e hdec => runBeat_of_decodeBeat_error hdec _⟩

/-- Settles O43: the step is the sequencer's, and each step of the sequencer takes one from those left. -/
theorem stepOfTheConsumerCarriesOnTheMix : Obligations.StepOfTheConsumerCarriesOnTheMix := by
  intro s hagent hbusy hlegal
  have hadvance : agentStep .consumer (takeTurn s) = .next (mixAdvance (takeTurn s)) := consumer_busy hbusy
  obtain ⟨t, -, ht, hlegal', hleft, -⟩ := consumer_carriesOn (s := takeTurn s) hbusy hlegal
  rw [hadvance] at ht
  cases ht
  exact ⟨(step_agent hagent).trans hadvance, hlegal', hleft⟩

end Sys2Proof.Machine
end

section
/-! ## A pull (`spec/42_resampler.md` R165 to R168) -/

namespace Sys2Proof.Machine

/-! ### The pair a pull adds -/

/-- The pair a pull adds to the accumulator: the held one on an empty channel, else the interpolation in the repaired
state (R165, R166). -/
def pulledPair (c : Chan) (s : State) : Hold × Hold :=
  if lag c s < 2 then heldPair c s else interp c (backlog c (resync c s)) (resync c s)

theorem pulledPair_of_empty {c : Chan} {s : State} (h : lag c s < 2) : pulledPair c s = heldPair c s := if_pos h

theorem pulledPair_of_fresh {c : Chan} {s : State} (h : 2 ≤ lag c s) :
    pulledPair c s = interp c (backlog c (resync c s)) (resync c s) := if_neg (Nat.not_lt.2 h)

/-- What one side of a pair adds to its accumulator cell at a volume (R165, R168). -/
def contribution (side : Side) (pair : Hold × Hold) (v : Vol) : Int :=
  match side with
  | .left => pair.1.toInt * (v.left.toNat : Int)
  | .right => pair.2.toInt * (v.right.toNat : Int)

theorem pullHeld_mem (c : Chan) (k : Nat) (s : State) :
    (pullHeld c k s).mem = (accumulate c k (heldPair c s) s).mem := by
  simp [pullHeld, accumulate]

/-- Empty or not, a pull writes the memory by adding its pair at frame `k`. -/
theorem pullFrame_mem (c : Chan) (k : Nat) (rc : Bool) (s : State) :
    (pullFrame c k rc s).mem = (accumulate c k (pulledPair c s) s).mem := by
  rcases Nat.lt_or_ge (lag c s) 2 with hempty | hfresh
  · rw [pullFrame_empty hempty, pulledPair_of_empty hempty, pullHeld_mem]
  · rw [pullFrame_fresh hfresh, pulledPair_of_fresh hfresh, pullFresh_mem]
    simp [accumulate]

theorem accCell_pullFrame (c : Chan) (k : Nat) (rc : Bool) (side : Side) (j : Nat) (s : State) (h : s.mem.wf = true) :
    accCell side j (pullFrame c k rc s) =
      if j = k then
        BitVec.ofInt 32 ((accCell side k s).toInt + contribution side (pulledPair c s) (s.vol.get c))
      else accCell side j s := by
  rw [accCell_congr (pullFrame_mem c k rc s), accumulate, accCell_accAdd _ _ _ _ _ _ h]
  cases side <;> rfl

theorem ringCell_pullFrame (c d : Chan) (k : Nat) (rc : Bool) (a : Nat) (s : State) :
    ringCell d a (pullFrame c k rc s) = ringCell d a s := by
  rw [ringCell, pullFrame_ring]
  rfl

/-- A pull keeps the pair it adds, and touches no other channel's (R165, R166). -/
theorem pullFrame_hold (c : Chan) (k : Nat) (rc : Bool) (s : State) :
    (pullFrame c k rc s).holdL = s.holdL.set c (pulledPair c s).1
      ∧ (pullFrame c k rc s).holdR = s.holdR.set c (pulledPair c s).2 := by
  rcases Nat.lt_or_ge (lag c s) 2 with hempty | hfresh
  · rw [pullFrame_empty hempty, pulledPair_of_empty hempty]
    simp [pullHeld, heldPair]
  · rw [pullFrame_fresh hfresh, pulledPair_of_fresh hfresh]
    obtain ⟨hleft, hright, -⟩ := pullFresh_read c k rc (backlog c (resync c s)) (resync c s)
    rw [hleft, hright, resync_holdL, resync_holdR]
    exact ⟨rfl, rfl⟩

/-! ### The two cases of a PULL step -/

theorem accCell_pullStep (fmt : MixFormat) (rc : Bool) (n : Nat) (c : Chan) (k : Nat) (side : Side) (j : Nat)
    (s : State) (h : s.mem.wf = true) : accCell side j (pullStep fmt rc n c k s) =
      if j = k then
        BitVec.ofInt 32 ((accCell side k s).toInt + contribution side (pulledPair c s) (s.vol.get c))
      else accCell side j s :=
  (accCell_congr (setSeq_mem ..) side j).trans (accCell_pullFrame c k rc side j s h)

theorem raiseFlow_diagOut (code : DiagCode) (c : Chan) (s : State) :
    (raiseFlow code c s).diagOut
      = if s.tuning.diagFlowEn then s.diagOut ++ [diagBeat code (chanArg c)] else s.diagOut := by
  rw [raiseFlow, apply_ite State.diagOut]
  rfl

/-- On an empty channel a pull writes the memory and DIAGOUT alone (R166). -/
theorem pullHeld_frame (c : Chan) (k : Nat) (s : State) :
    pullHeld c k s = { s with mem := (pullHeld c k s).mem, diagOut := (raiseFlow .underrun c s).diagOut } := by
  ext1
  all_goals simp [pullHeld]

@[simp] theorem pullHeld_ridx (c : Chan) (k : Nat) (s : State) : (pullHeld c k s).ridx = s.ridx := by
  simp [pullHeld]

@[simp] theorem pullHeld_frac (c : Chan) (k : Nat) (s : State) : (pullHeld c k s).frac = s.frac := by
  simp [pullHeld]

/-- Settles O28: the pull takes its empty case, and adds the held pair. -/
theorem pullStepOfAnEmptyChannelHoldsTheLastPair : Obligations.PullStepOfAnEmptyChannelHoldsTheLastPair := by
  intro s fmt rc n c k hwf hseq hempty
  have hcell := fun side j => accCell_pullStep fmt rc n c k side j s hwf
  rw [pulledPair_of_empty hempty] at hcell
  have hstate : pullStep fmt rc n c k s = setSeq (nextPull fmt rc n c k) (pullHeld c k s) := by
    rw [pullStep, pullFrame_empty hempty]
  have hdiag : (pullStep fmt rc n c k s).diagOut
      = if s.tuning.diagFlowEn then s.diagOut ++ [0x40#8 + BitVec.ofNat 8 c.num] else s.diagOut := by
    rw [hstate, setSeq_diagOut, pullHeld_frame, raiseFlow_diagOut, diagBeat_chanArg]
    rfl
  refine ⟨pullStep fmt rc n c k s, consumer_pull hseq, hcell .left, hcell .right,
    fun d a => ringCell_pullFrame c d k rc a s, hdiag, ?_⟩
  rw [hstate, pullHeld_frame]
  rfl

/-- With frames unread a pull, its repair included, writes the memory and the read side of its channel alone (R165). -/
theorem pullFresh_resync_frame (c : Chan) (k : Nat) (rc : Bool) (avail : Nat) (s : State) :
    let t := pullFresh c k rc avail (resync c s)
    t = { s with mem := t.mem, holdL := t.holdL, holdR := t.holdR, frac := t.frac, ridx := t.ridx } := by
  ext1
  all_goals simp [pullFresh]

/-- The repair touches no other channel's cursor (R126). -/
theorem resync_ridx_set (c : Chan) (v : Index) (s : State) : (resync c s).ridx.set c v = s.ridx.set c v := by
  rcases resync_cases c s with ⟨-, heq⟩ | ⟨-, heq, -⟩
  · rw [heq]
  · rw [heq, setRidx_ridx, PerChan.set_set]

theorem ofNat_mod_frac (pos : Nat) : BitVec.ofNat 16 (pos % 65536) = BitVec.ofNat 16 pos := by
  apply BitVec.eq_of_toNat_eq
  rw [BitVec.toNat_ofNat, BitVec.toNat_ofNat]
  omega

/-- Settles O29: the pull takes its other case in the repaired state, which has the fraction and the parameters of the
state itself. -/
theorem pullStepInterpolatesThenAdvances : Obligations.PullStepInterpolatesThenAdvances := by
  intro s fmt rc n c k hwf hseq hfresh u avail pair pos adv
  have havail : backlog c u = avail := backlog_eq c u
  have hpos : nextPos c avail rc u = pos := by
    rw [nextPos, resync_frac, stepValue_congr (resync_rate s c) (resync_speed s c) (resync_tuning s c)
      (resync_outRate s c)]
  have hadv : min (pos >>> 16) avail = adv := by
    rw [Nat.shiftRight_eq_div_pow]
  have hcell := fun side j => accCell_pullStep fmt rc n c k side j s hwf
  rw [pulledPair_of_fresh hfresh, havail] at hcell
  have hstate : pullStep fmt rc n c k s = setSeq (nextPull fmt rc n c k) (pullFresh c k rc avail u) := by
    rw [pullStep, pullFrame_fresh hfresh, havail]
  obtain ⟨hleft, hright, hfrac, hridx⟩ := pullFresh_read c k rc avail u
  rw [resync_holdL] at hleft
  rw [resync_holdR] at hright
  rw [resync_frac, hpos, ← ofNat_mod_frac] at hfrac
  rw [hpos, hadv, resync_ridx_set] at hridx
  refine ⟨pullStep fmt rc n c k s, consumer_pull hseq, hcell .left, hcell .right,
    fun d a => ringCell_pullFrame c d k rc a s, ?_⟩
  rw [hstate]
  refine ⟨hleft, hright, hfrac, hridx, ?_⟩
  exact congrArg (setSeq (nextPull fmt rc n c k)) (pullFresh_resync_frame c k rc avail s)

/-! ### The cursor after a pull (R167) -/

/-- The advance stops at the write index, so it only shortens the lag (R167). -/
theorem lag_pullFresh (c : Chan) (k : Nat) (rc : Bool) (u : State) :
    lag c (pullFresh c k rc (backlog c u) u)
      = lag c u - 2 * min (nextPos c (backlog c u) rc u >>> 16) (backlog c u) := by
  obtain ⟨-, -, -, hridx⟩ := pullFresh_read c k rc (backlog c u) u
  have hwidx : (pullFresh c k rc (backlog c u) u).widx = u.widx := rfl
  have hadv : 2 * min (nextPos c (backlog c u) rc u >>> 16) (backlog c u) ≤ lag c u := by
    rw [backlog_eq]
    omega
  generalize 2 * min (nextPos c (backlog c u) rc u >>> 16) (backlog c u) = adv at hridx hadv ⊢
  rw [lag, hwidx, hridx, PerChan.get_set_same]
  unfold lag at hadv ⊢
  rw [BitVec.toNat_sub] at hadv ⊢
  rw [BitVec.toNat_add, BitVec.toNat_sub, BitVec.toNat_ofNat]
  have hw := (u.widx.get c).isLt
  have hr := (u.ridx.get c).isLt
  omega

/-- Settles O19: the repair leaves a lag in range, and the advance shortens it; an empty channel's is below 2. -/
theorem pullFrameLeavesTheLagInRange : Obligations.PullFrameLeavesTheLagInRange := by
  intro c k rc s
  rcases Nat.lt_or_ge (lag c s) 2 with hempty | hfresh
  · have hlag : lag c (pullHeld c k s) = lag c s := by
      rw [pullHeld_frame]
      rfl
    rw [pullFrame_empty hempty, hlag]
    omega
  · have hsync := lag_resync_le c s
    rw [pullFrame_fresh hfresh, lag_pullFresh]
    omega

/-! ### Another volume (R173, R211) -/

/-- The state with another volume of a channel. -/
def State.withVolume (c : Chan) (v : Vol) (s : State) : State := { s with vol := s.vol.set c v }

theorem resync_withVolume (c : Chan) (v : Vol) (s : State) :
    resync c (s.withVolume c v) = (resync c s).withVolume c v := by
  rw [resync, resync, apply_ite (State.withVolume c v)]
  rfl

theorem pulledPair_withVolume (c : Chan) (v : Vol) (s : State) :
    pulledPair c (s.withVolume c v) = pulledPair c s := by
  rw [pulledPair, pulledPair, resync_withVolume]
  rfl

theorem pullFresh_position_withVolume (c : Chan) (k : Nat) (rc : Bool) (avail : Nat) (v : Vol) (u : State) :
    (pullFresh c k rc avail (u.withVolume c v)).ridx = (pullFresh c k rc avail u).ridx
      ∧ (pullFresh c k rc avail (u.withVolume c v)).frac = (pullFresh c k rc avail u).frac := by
  have hpos : nextPos c avail rc (u.withVolume c v) = nextPos c avail rc u := rfl
  obtain ⟨-, -, hfrac, hridx⟩ := pullFresh_read c k rc avail u
  obtain ⟨-, -, hfrac', hridx'⟩ := pullFresh_read c k rc avail (u.withVolume c v)
  rw [hfrac, hridx, hfrac', hridx', hpos]
  exact ⟨rfl, rfl⟩

/-- The volume has no part in the read position (R173). -/
theorem pullFrame_position_withVolume (c : Chan) (k : Nat) (rc : Bool) (v : Vol) (s : State) :
    (pullFrame c k rc (s.withVolume c v)).ridx = (pullFrame c k rc s).ridx
      ∧ (pullFrame c k rc (s.withVolume c v)).frac = (pullFrame c k rc s).frac := by
  rcases Nat.lt_or_ge (lag c s) 2 with hempty | hfresh
  · rw [pullFrame_empty hempty, pullFrame_empty (s := s.withVolume c v) hempty]
    simp only [pullHeld_ridx, pullHeld_frac]
    exact ⟨rfl, rfl⟩
  · rw [pullFrame_fresh hfresh, pullFrame_fresh (s := s.withVolume c v) hfresh, resync_withVolume]
    exact pullFresh_position_withVolume c k rc (backlog c (resync c s)) v (resync c s)

theorem contribution_silent (side : Side) (pair : Hold × Hold) : contribution side pair ⟨0#8, 0#8⟩ = 0 := by
  cases side <;> exact Int.mul_zero _

/-- Settles O31: the pair and the position are those of the old volume, and the contribution is the pair times the new
one. -/
theorem volumeScalesTheContributionOnly : Obligations.VolumeScalesTheContributionOnly := by
  intro c k rc s v hwf q t
  have hq : q = pullFrame c k rc (s.withVolume c v) := rfl
  have hcell (side : Side) (j : Nat) : accCell side j q =
      if j = k then BitVec.ofInt 32 ((accCell side k s).toInt + contribution side (pulledPair c s) v)
      else accCell side j s := by
    have hacc (i : Nat) : accCell side i (s.withVolume c v) = accCell side i s := accCell_congr rfl side i
    have hvol : (s.withVolume c v).vol.get c = v := PerChan.get_set_same ..
    rw [hq, accCell_pullFrame c k rc side j (s.withVolume c v) hwf, pulledPair_withVolume, hacc, hacc, hvol]
  obtain ⟨hleft, hright⟩ := pullFrame_hold c k rc (s.withVolume c v)
  obtain ⟨htleft, htright⟩ := pullFrame_hold c k rc s
  rw [pulledPair_withVolume, ← hq] at hleft hright
  obtain ⟨hridx, hfrac⟩ := pullFrame_position_withVolume c k rc v s
  refine ⟨?_, ?_, hridx, hfrac, hleft.trans htleft.symm, hright.trans htright.symm⟩
  · rintro rfl side j
    rw [hcell, contribution_silent, Int.add_zero, BitVec.ofInt_toInt]
    split
    case isTrue hj => rw [hj]
    case isFalse => rfl
  · rintro rfl
    rw [hcell, hcell, if_pos rfl, if_pos rfl, hleft, hright, PerChan.get_set_same, PerChan.get_set_same]
    exact ⟨congrArg _ (congrArg _ (Int.mul_comm ..)), congrArg _ (congrArg _ (Int.mul_comm ..))⟩

/-! ### Identity resample (R171) -/

/-- At equal floored rates, speed 1.0 and no correction the step is exactly 1.0 in Q16.16 (R162). -/
theorem stepValue_identity {c : Chan} {avail : Nat} {rc : Bool} {s : State}
    (hrate : max (s.rate.get c).toNat 1 = max s.outRate.toNat 1) (hspeed : s.speed = 0x10000#26)
    (hshift : rc = false ∨ shift s.tuning avail = 0) : stepValue c avail rc s = 65536 := by
  have hnum : stepNum c avail rc s = max s.outRate.toNat 1 * 65536 := by
    have hplain : stepNum c avail false s = max s.outRate.toNat 1 * 65536 := by
      rw [stepNum_uncorrected, hrate, hspeed]
      rfl
    rcases hshift with rfl | hzero
    · exact hplain
    · cases rc with
      | false => exact hplain
      | true => rw [stepNum_corrected, hplain, hzero, Nat.zero_mul, Nat.sub_zero]
  rw [stepValue, hnum, Nat.mul_div_cancel_left _ (by omega)]
  rfl

/-- One pull at a step of exactly 1.0 from an integer position: the frame at the cursor, which moves on by one frame. -/
theorem pullFrame_identity {c : Chan} {k : Nat} {rc : Bool} {s : State} (hle : lag c s ≤ 4096) (hfresh : 2 ≤ lag c s)
    (hstep : stepValue c (backlog c s) rc s = 65536) (hfrac : s.frac.get c = 0#16) :
    let t := pullFrame c k rc s
    (t.holdL.get c).toInt = (ringRead c (s.ridx.get c) s).1.toInt
      ∧ (t.holdR.get c).toInt = (ringRead c (s.ridx.get c) s).2.toInt
      ∧ t.frac.get c = 0#16 ∧ t.ridx.get c = s.ridx.get c + 2#32 ∧ lag c t = lag c s - 2 := by
  have hpos : nextPos c (backlog c s) rc s = 65536 := by
    rw [nextPos, hstep, hfrac]
    rfl
  have hbacklog : 1 ≤ backlog c s ∧ backlog c s ≤ 2048 := by
    rw [backlog_eq]
    omega
  have hadv : min (65536 >>> 16) (backlog c s) = 1 := min_eq_left hbacklog.1
  have hpull : pullFrame c k rc s = pullFresh c k rc (backlog c s) s := by
    rw [pullFrame_fresh hfresh, resync_of_lag_le hle]
  obtain ⟨hleft, hright⟩ :=
    interpAtAnIntegerPositionIsTheFrame c (backlog c s) s hbacklog.1 hbacklog.2 hfrac
  obtain ⟨hholdL, hholdR, hfrac', hridx⟩ := pullFresh_read c k rc (backlog c s) s
  have hlag := lag_pullFresh c k rc s
  rw [hpos] at hfrac' hridx hlag
  rw [hadv] at hridx hlag
  intro t
  have ht : t = pullFresh c k rc (backlog c s) s := hpull
  rw [ht, hholdL, hholdR, hfrac', hridx, hlag]
  rw [PerChan.get_set_same, PerChan.get_set_same, PerChan.get_set_same, PerChan.get_set_same]
  exact ⟨hleft, hright, rfl, rfl, rfl⟩

theorem pullAll_concat (c : Chan) (rc : Bool) (ks : List Nat) (k : Nat) (s : State) :
    pullAll c rc (ks ++ [k]) s = pullFrame c k rc (pullAll c rc ks s) := by
  induction ks generalizing s with
  | nil => rfl
  | cons j ks ih => exact ih (pullFrame c j rc s)

theorem pullAll_ring (c : Chan) (rc : Bool) (ks : List Nat) (s : State) :
    (pullAll c rc ks s).mem.ring = s.mem.ring := by
  induction ks generalizing s with
  | nil => rfl
  | cons k ks ih => exact (ih (pullFrame c k rc s)).trans (pullFrame_ring c k rc s)

/-- What makes each of the next `m` pulls of a channel a step of exactly 1.0 from an integer position (R171). -/
structure IdentityPulls (c : Chan) (rc : Bool) (m : Nat) (s : State) : Prop where
  lag_le : lag c s ≤ 4096
  rate : max (s.rate.get c).toNat 1 = max s.outRate.toNat 1
  speed : s.speed = 0x10000#26
  shift : rc = false ∨ ∀ avail, backlog c s + 1 ≤ avail + m → avail ≤ backlog c s → shift s.tuning avail = 0
  frac : s.frac.get c = 0#16
  enough : m ≤ backlog c s

section Identity

variable {c : Chan} {rc : Bool} {m : Nat} {s : State}

/-- The next of these pulls. -/
theorem IdentityPulls.pullFrame (h : IdentityPulls c rc (m + 1) s) (k : Nat) :
    let t := pullFrame c k rc s
    (t.holdL.get c).toInt = (ringRead c (s.ridx.get c) s).1.toInt
      ∧ (t.holdR.get c).toInt = (ringRead c (s.ridx.get c) s).2.toInt
      ∧ t.frac.get c = 0#16 ∧ t.ridx.get c = s.ridx.get c + 2#32 ∧ lag c t = lag c s - 2 := by
  have henough := h.enough
  have hstep : stepValue c (backlog c s) rc s = 65536 :=
    stepValue_identity h.rate h.speed (h.shift.imp_right fun hz => hz _ (by omega) le_rfl)
  rw [backlog_eq] at henough
  exact pullFrame_identity h.lag_le (by omega) hstep h.frac

theorem IdentityPulls.next (h : IdentityPulls c rc (m + 1) s) (k : Nat) :
    IdentityPulls c rc m (Machine.pullFrame c k rc s) := by
  obtain ⟨-, -, hfrac, -, hlag⟩ := h.pullFrame k
  have henough := h.enough
  have hbacklog : backlog c (Machine.pullFrame c k rc s) = backlog c s - 1 := by
    rw [backlog_eq, backlog_eq, hlag]
    omega
  have hle := h.lag_le
  refine ⟨by omega, ?_, ?_, ?_, hfrac, by omega⟩
  · rw [pullFrame_rate, pullFrame_outRate]
    exact h.rate
  · rw [pullFrame_speed]
    exact h.speed
  · rw [pullFrame_tuning, hbacklog]
    exact h.shift.imp_right fun hz avail hlow hhigh => hz avail (by omega) (by omega)

/-- After some of these pulls the cursor is as many frames further on, and the others are still of this kind. -/
theorem IdentityPulls.pullAll {ks : List Nat} (h : IdentityPulls c rc (ks.length + m) s) :
    let t := pullAll c rc ks s
    IdentityPulls c rc m t ∧ t.ridx.get c = s.ridx.get c + BitVec.ofNat 32 (2 * ks.length)
      ∧ lag c t = lag c s - 2 * ks.length := by
  induction ks generalizing s with
  | nil => exact ⟨by simpa [Machine.pullAll] using h, (BitVec.add_zero _).symm, rfl⟩
  | cons k ks ih =>
    have h' : IdentityPulls c rc (ks.length + m + 1) s := by
      rwa [List.length_cons, Nat.add_right_comm] at h
    obtain ⟨-, -, -, hridx, hlag⟩ := h'.pullFrame k
    obtain ⟨hrest, hridx', hlag'⟩ := ih (h'.next k)
    refine ⟨hrest, hridx'.trans ?_, hlag'.trans ?_⟩
    · rw [hridx, List.length_cons, Nat.mul_succ, Nat.add_comm (2 * ks.length), BitVec.ofNat_add, BitVec.add_assoc]
    · rw [hlag, List.length_cons]
      omega

end Identity

/-- Settles O30: all pulls but the last move the cursor to the frame that the last one returns. -/
theorem identityResampleReturnsTheFramesInOrder : Obligations.IdentityResampleReturnsTheFramesInOrder := by
  intro c rc ks s hle hrate hspeed hshift hfrac hne henough t i
  have hall : IdentityPulls c rc ks.length s := ⟨hle, hrate, hspeed, hshift, hfrac, henough⟩
  rcases ks.eq_nil_or_concat' with rfl | ⟨xs, k, rfl⟩
  · exact absurd rfl hne
  · have hxs : IdentityPulls c rc (xs.length + 1) s := by simpa using hall
    obtain ⟨hlast, hcursor, -⟩ := hxs.pullAll
    have hi : i = (pullAll c rc xs s).ridx.get c := by
      rw [hcursor]
      simp [i]
    obtain ⟨-, hridx, hlag⟩ := IdentityPulls.pullAll (m := 0) hall
    obtain ⟨hleft, hright, hfrac', -, -⟩ := hlast.pullFrame k
    rw [ringRead_congr_ring (pullAll_ring c rc xs s), ← hi, ← pullAll_concat] at hleft hright
    rw [← pullAll_concat] at hfrac'
    refine ⟨hleft, hright, hfrac', hridx, ?_⟩
    rw [backlog_eq, backlog_eq, hlag]
    omega

end Sys2Proof.Machine
end

section
/-! ## The invariant (`spec/10_state.md` R33, R38, R40, `spec/43_mixer.md` R197, R204) -/

namespace Sys2Proof.Machine

/-! ### What the invariant reads -/

/-- The invariant reads the memories, the indices, `SEQ`, the held pairs and the transaction alone. -/
theorem State.Inv.congr {s t : State} (h : s.Inv) (hmem : t.mem = s.mem) (hwidx : t.widx = s.widx)
    (hridx : t.ridx = s.ridx) (hseq : t.seq = s.seq) (hholdL : t.holdL = s.holdL) (hholdR : t.holdR = s.holdR)
    (hdirty : t.DirtyOnlyInTxn) : t.Inv where
  mem := by rw [hmem]; exact h.mem
  even := by unfold State.IndexEven; rw [hwidx, hridx]; exact h.even
  seq := by rw [hseq]; exact h.seq
  hold := by unfold State.HoldsInRange; rw [hholdL, hholdR]; exact h.hold
  acc := fun side j => by rw [accCell_congr hmem, hseq]; exact h.acc side j
  dirty := hdirty

theorem State.Inv.takeTurn {s : State} (h : s.Inv) : (takeTurn s).Inv :=
  h.congr rfl rfl rfl rfl rfl rfl h.dirty

theorem State.Inv.setPending {s : State} (h : s.Inv) (p : Port) (beats : List Beat) : (setPending p beats s).Inv :=
  h.congr (by simp) (by simp) (by simp) (by simp) (by simp) (by simp)
    (fun hclosed => by simpa using h.dirty (by simpa using hclosed))

/-! ### Reset (R42) -/

/-- Settles O52: nothing is listed in a memory, every index and held value is 0, and `SEQ` is `IDLE`. -/
theorem resetSatisfiesTheInvariant : Obligations.ResetSatisfiesTheInvariant := by
  intro cfg
  have hzero : holdInRange 0#18 := by
    unfold holdInRange
    decide
  refine ⟨rfl, fun c => ?_, trivial, fun c => ?_, fun side j => ?_, fun _ => rfl⟩
  · obtain ⟨hwidx, hridx, -⟩ := channel_resetWith cfg c
    rw [hwidx, hridx]
    decide
  · obtain ⟨-, -, -, hholdL, hholdR, -⟩ := channel_resetWith cfg c
    rw [hholdL, hholdR]
    exact ⟨hzero, hzero⟩
  · rw [accCell_resetWith]
    exact Nat.zero_le _

/-! ### The accumulator bound (R197) -/

theorem Seq.addedTo_le (q : Seq) (j : Nat) : q.addedTo j ≤ 3 := by
  cases q with
  | pull fmt rc n c k =>
    have hc := chan_num_lt c
    simp only [Seq.addedTo]
    split
    · omega
    · split <;> omega
  | _ => exact le_rfl

/-- Settles O54: at most three channels are added to a cell. -/
theorem accumulatorNeverOverflows : Obligations.AccumulatorNeverOverflows := by
  intro s side j h
  have hcell := h.acc side j
  have hadded := s.seq.addedTo_le j
  omega

/-- A pull adds one channel to its cell, and the sequencer then counts one more there and as many elsewhere (R191). -/
theorem Seq.addedTo_nextPull {fmt : MixFormat} {rc : Bool} {n : Nat} {c : Chan} {k : Nat} (hk : k < n) (j : Nat) :
    (nextPull fmt rc n c k).addedTo j
      = (Seq.pull fmt rc n c k).addedTo j + if j = k then 1 else 0 := by
  unfold nextPull
  by_cases hlast : k + 1 < n
  · rw [if_pos hlast]
    simp only [Seq.addedTo]
    split_ifs <;> omega
  · rw [if_neg hlast]
    cases c <;> simp only [Seq.addedTo, Chan.num] <;> split_ifs <;> omega

theorem contribution_natAbs_le {side : Side} {pair : Hold × Hold} {v : Vol} (hleft : holdInRange pair.1)
    (hright : holdInRange pair.2) : (contribution side pair v).natAbs ≤ 10444800 := by
  have hbound (h : Hold) (hh : holdInRange h) (x : BitVec 8) : (h.toInt * (x.toNat : Int)).natAbs ≤ 10444800 := by
    obtain ⟨hlow, hhigh⟩ := hh
    have hx := x.isLt
    rw [Int.natAbs_mul]
    exact (Nat.mul_le_mul (by omega : h.toInt.natAbs ≤ 40960) (by omega : (x.toNat : Int).natAbs ≤ 255))
  cases side with
  | left => exact hbound _ hleft _
  | right => exact hbound _ hright _

/-! ### The steps of the sequencer (R191) -/

/-- What a pull adds is in the range of R33: a held value is, and an interpolation (R146). -/
theorem pulledPair_inRange {s : State} (h : s.HoldsInRange) (c : Chan) :
    holdInRange (pulledPair c s).1 ∧ holdInRange (pulledPair c s).2 := by
  rcases Nat.lt_or_ge (lag c s) 2 with hempty | hfresh
  · rw [pulledPair_of_empty hempty]
    exact h c
  · rw [pulledPair_of_fresh hfresh]
    obtain ⟨hleft, hright⟩ := interp_toInt c (backlog c (resync c s)) (resync c s)
    unfold holdInRange
    rw [hleft, hright]
    exact ⟨interpSide_bounds .., interpSide_bounds ..⟩

/-- A per-channel value keeps a property of its channels when the new value of one of them has it. -/
theorem perChan_set_forall {α : Type} {P : α → Prop} {p : PerChan α} {c : Chan} {v : α} (hv : P v)
    (hp : ∀ d, P (p.get d)) (d : Chan) : P ((p.set c v).get d) := by
  rw [PerChan.get_set]
  split
  · exact hv
  · exact hp d

theorem resync_ridx_even {s : State} (h : s.IndexEven) (c : Chan) : ((resync c s).ridx.get c).toNat % 2 = 0 := by
  obtain ⟨hwidx, hridx⟩ := h c
  rcases resync_cases c s with ⟨-, heq⟩ | ⟨-, heq, -⟩
  · rw [heq]
    exact hridx
  · rw [heq, setRidx_ridx, PerChan.get_set_same, BitVec.toNat_sub, BitVec.toNat_ofNat]
    omega

/-- The cursors stay even: the repair and the advance move one by whole frames (R40, I1). -/
theorem pullFrame_ridx_even {s : State} (h : s.IndexEven) (c : Chan) (k : Nat) (rc : Bool) (d : Chan) :
    ((pullFrame c k rc s).ridx.get d).toNat % 2 = 0 := by
  rcases Nat.lt_or_ge (lag c s) 2 with hempty | hfresh
  · rw [pullFrame_empty hempty, pullHeld_ridx]
    exact (h d).2
  · obtain ⟨-, -, -, hridx⟩ := pullFresh_read c k rc (backlog c (resync c s)) (resync c s)
    rw [pullFrame_fresh hfresh, hridx, resync_ridx_set]
    exact perChan_set_forall (P := fun i : Index => i.toNat % 2 = 0)
      (toNat_add_frames_even (resync_ridx_even h c) _) (fun e => (h e).2) d

theorem State.Inv.pullStep {s : State} (h : s.Inv) {fmt : MixFormat} {rc : Bool} {n : Nat} {c : Chan} {k : Nat}
    (hseq : s.seq = .pull fmt rc n c k) : (pullStep fmt rc n c k s).Inv := by
  have hlegal := h.seq
  rw [hseq] at hlegal
  obtain ⟨hk, hn⟩ := hlegal
  have hpair := pulledPair_inRange h.hold c
  obtain ⟨hholdL, hholdR⟩ := pullFrame_hold c k rc s
  refine ⟨?_, fun d => ⟨?_, pullFrame_ridx_even h.even c k rc d⟩, nextPull_legal ⟨hk, hn⟩, fun d => ⟨?_, ?_⟩,
    fun side j => ?_, fun hclosed => ?_⟩
  · rw [Machine.pullStep, setSeq_mem, pullFrame_mem]
    exact accAdd_wf k _ _ s h.mem (by omega)
  · rw [Machine.pullStep, setSeq_widx, pullFrame_widx]
    exact (h.even d).1
  · rw [Machine.pullStep, setSeq_holdL, hholdL]
    exact perChan_set_forall hpair.1 (fun e => (h.hold e).1) d
  · rw [Machine.pullStep, setSeq_holdR, hholdR]
    exact perChan_set_forall hpair.2 (fun e => (h.hold e).2) d
  · have hcell := h.acc side j
    rw [hseq] at hcell
    have hadded := Seq.addedTo_nextPull (fmt := fmt) (rc := rc) (c := c) hk j
    have hnew : (Machine.pullStep fmt rc n c k s).seq = nextPull fmt rc n c k := rfl
    rw [accCell_pullStep fmt rc n c k side j s h.mem, hnew, hadded]
    by_cases hj : j = k
    · have hsum := contribution_natAbs_le (side := side) (v := s.vol.get c) hpair.1 hpair.2
      have hbound := Seq.addedTo_le (.pull fmt rc n c k) j
      rw [if_pos hj, if_pos hj]
      subst hj
      rw [BitVec.toInt_ofInt, Int.bmod_eq_of_le (by omega) (by omega)]
      omega
    · rw [if_neg hj, if_neg hj]
      exact hcell
  · have hdirty : (Machine.pullStep fmt rc n c k s).dirty = s.dirty := pullFrame_dirty ..
    have htxn : (Machine.pullStep fmt rc n c k s).txn = s.txn := pullFrame_txn ..
    rw [hdirty]
    exact h.dirty (htxn.symm.trans hclosed)

/-- A new `SEQ` outside the pulls asks of the accumulator what every `SEQ` allows. -/
theorem State.Inv.setSeq {s : State} (h : s.Inv) {q : Seq} (hlegal : q.Legal) (hq : ∀ j, q.addedTo j = 3) :
    (setSeq q s).Inv where
  mem := h.mem
  even := h.even
  seq := hlegal
  hold := h.hold
  acc := fun side j => by
    rw [accCell_congr (setSeq_mem ..), setSeq_seq, hq]
    exact (h.acc side j).trans (Nat.mul_le_mul_right _ (s.seq.addedTo_le j))
  dirty := h.dirty

theorem Seq.addedTo_nextEmit (fmt : MixFormat) (n k j : Nat) : (nextEmit fmt n k).addedTo j = 3 := by
  unfold nextEmit
  split <;> rfl

theorem State.Inv.emitStep {s : State} (h : s.Inv) {fmt : MixFormat} {n k : Nat} (hseq : s.seq = .emit fmt n k) :
    (emitStep fmt n k s).Inv := by
  have hlegal := h.seq
  rw [hseq] at hlegal
  have hemit : (emitFrame fmt k s).Inv :=
    h.congr (by simp) (by simp) (by simp) (by simp) (by simp) (by simp)
      (fun hclosed => by simpa using h.dirty (by simpa using hclosed))
  exact hemit.setSeq (nextEmit_legal hlegal) (Seq.addedTo_nextEmit fmt n k)

theorem State.Inv.mixAdvance {s : State} (h : s.Inv) : (mixAdvance s).Inv := by
  unfold Machine.mixAdvance
  cases hseq : s.seq with
  | idle => exact h
  | pull fmt rc n c k => exact h.pullStep hseq
  | emit fmt n k => exact h.emitStep hseq
  | done n =>
    have hdone : (emitMix .done (BitVec.ofNat 32 n) s).Inv := h.congr rfl rfl rfl rfl rfl rfl h.dirty
    exact hdone.setSeq trivial fun _ => rfl

/-- START: the cells of the command are 0, and no channel is added to them yet (R191). -/
theorem State.Inv.start {s : State} (h : s.Inv) (fmt : MixFormat) (rc : Bool) {n : Nat} (hn : n ≤ Param.mixMax) :
    (Machine.setSeq (startSeq fmt rc n) (accClear n s)).Inv where
  mem := accClear_wf n s h.mem
  even := h.even
  seq := startSeq_legal fmt rc hn
  hold := h.hold
  acc := fun side j => by
    rw [accCell_congr (setSeq_mem ..), accCell_accClear, setSeq_seq]
    split
    case isTrue => exact Nat.zero_le _
    case isFalse hj =>
      have hadded : (startSeq fmt rc n).addedTo j = 3 := by
        unfold startSeq
        split
        · rfl
        · simp only [Seq.addedTo, Nat.not_lt_zero, if_false, if_neg hj]
      rw [hadded]
      exact (h.acc side j).trans (Nat.mul_le_mul_right _ (s.seq.addedTo_le j))
  dirty := h.dirty

/-! ### The steps of the agents -/

theorem State.Inv.pushFrame {s : State} (h : s.Inv) (c : Chan) (l r : Sample) : (pushFrame c l r s).Inv where
  mem := pushFrame_wf h.mem c l r
  even := fun d => by
    rw [pushFrame_widx, pushFrame_ridx]
    exact ⟨perChan_set_forall (P := fun i : Index => i.toNat % 2 = 0) (toNat_add_frames_even (h.even c).1 1)
      (fun e => (h.even e).1) d, (h.even d).2⟩
  seq := by
    rw [pushFrame_seq]
    exact h.seq
  hold := fun d => by
    rw [pushFrame_holdL, pushFrame_holdR]
    exact h.hold d
  acc := fun side j => by
    rw [accCell_pushFrame, pushFrame_seq]
    exact h.acc side j
  dirty := fun hclosed => by
    rw [pushFrame_dirty]
    exact h.dirty ((pushFrame_txn ..).symm.trans hclosed)

/-- A setter sets a dirty bit inside a transaction only (R199). -/
theorem cfgWrite_dirtyOnlyInTxn {s : State} (h : s.DirtyOnlyInTxn) (x : CfgItem) :
    (cfgWrite x s).DirtyOnlyInTxn := by
  intro hclosed
  rw [cfgWrite_txn] at hclosed
  rw [cfgWrite_of_txn_eq_false hclosed, writeLive_dirty]
  exact h hclosed

theorem ConfigEffect.inv {s t : State} (heffect : ConfigEffect s t) (h : s.Inv) : t.Inv := by
  cases heffect with
  | nothing => exact h
  | write x =>
    exact h.congr (by simp) (by simp) (by simp) (by simp) (by simp) (by simp) (cfgWrite_dirtyOnlyInTxn h.dirty x)
  | opened closed => exact h.congr rfl rfl rfl rfl rfl rfl fun _ => rfl
  | committed isOpen => exact h.congr rfl rfl rfl rfl rfl rfl fun _ => rfl
  | _ => exact h.congr rfl rfl rfl rfl rfl rfl h.dirty

theorem State.Inv.agentStep {a : Agent} {s t : State} (h : s.Inv) (hstep : agentStep a s = .next t) : t.Inv := by
  cases a with
  | producer c =>
    rcases producer_cases hstep with rfl | ⟨w, rest, -, rfl⟩
    · exact h
    · exact (h.setPending ..).pushFrame ..
  | config =>
    rcases config_cases hstep with rfl | ⟨w, rest, -, heffect⟩
    · exact h
    · exact heffect.inv (h.setPending ..)
  | consumer =>
    rcases consumer_cases hstep with ⟨-, rfl⟩ | ⟨-, -, rfl⟩ | ⟨-, w, rest, -, ⟨fmt, rc, n, -, rfl⟩ | ⟨-, rfl⟩⟩
    · exact h.mixAdvance
    · exact h
    · exact (h.setPending ..).start fmt rc (Nat.le_of_lt_succ n.isLt)
    · exact (h.setPending ..).congr rfl rfl rfl rfl rfl rfl (h.setPending ..).dirty

/-- Settles O53, agent by agent. -/
theorem everyStepKeepsTheInvariant : Obligations.EveryStepKeepsTheInvariant := by
  intro s t h hstep
  rcases step_cases hstep with ⟨-, rfl⟩ | ⟨a, -, hagent⟩
  · exact h
  · exact h.takeTurn.agentStep hagent

end Sys2Proof.Machine
end

section
/-! ## The end of a run (`spec/70_reset_and_hazards.md` R295) -/

namespace Sys2Proof.Machine

/-! ### Who steps with no turn left (`spec/20_memory.md` R70, log entry 4) -/

theorem mem_agentOrder (a : Agent) : a ∈ agentOrder := by
  cases a with
  | producer c => cases c <;> decide
  | consumer => decide
  | config => decide

/-- With no turn left, no agent steps only when none has an enabled step. -/
theorem enabled_eq_false_of_nextAgent_none {s : State} (hsched : s.sched = []) (hnone : nextAgent s = none)
    (a : Agent) : enabled s a = false := by
  have hfind : agentOrder.find? (enabled s) = none := by
    rw [nextAgent, hsched] at hnone
    exact hnone
  simpa using List.find?_eq_none.1 hfind a (mem_agentOrder a)

theorem enabled_of_nextAgent {s : State} {a : Agent} (hsched : s.sched = []) (hnext : nextAgent s = some a) :
    enabled s a = true := by
  rw [nextAgent, hsched] at hnext
  exact List.find?_some hnext

/-- No agent has an enabled step exactly at the end of the run (R295). -/
theorem ended_of_not_enabled {s : State} (h : ∀ a, enabled s a = false) : s.Ended := by
  have hall : ∀ a : Agent, pending a.port s = [] ∧ (a = .consumer → s.seq = .idle) := by
    simpa [enabled] using h
  refine ⟨fun p => ?_, (hall .consumer).2 rfl⟩
  cases p with
  | push c => exact (hall (.producer c)).1
  | mix => exact (hall .consumer).1
  | cfg => exact (hall .config).1

/-- At the end of a run no work is left. -/
theorem workLeft_of_ended {s : State} (h : s.Ended) : s.workLeft = 0 := by
  obtain ⟨hpending, hidle⟩ := h
  have hpush (c : Chan) : s.pushIn.get c = [] := hpending (.push c)
  have hdma : s.pushIn.dma = [] := hpush .dma
  have hstr : s.pushIn.str = [] := hpush .str
  have haux : s.pushIn.aux = [] := hpush .aux
  have hmix : s.mixIn = [] := hpending .mix
  have hcfg : s.cfgIn = [] := hpending .cfg
  rw [State.workLeft, hdma, hstr, haux, hmix, hcfg, hidle]
  rfl

/-! ### The work of a beat -/

/-- How many steps a beat of a port takes: the steps of its command on `MIXPORT`, else one. -/
def beatSteps : Port → Beat → Nat
  | .mix, w => mixBeatSteps w
  | _, _ => 1

theorem mixBeatSteps_of_mixInstr {w : Beat} {fmt : MixFormat} {rc : Bool} {n : BitVec 12}
    (h : decodeBeat .mix w = .ok (mixInstr fmt rc n)) : mixBeatSteps w = 4 * n.toNat + 2 := by
  have hdec : decodeMix w = .ok (mixInstr fmt rc n) := h
  rw [mixBeatSteps, hdec]
  cases fmt <;> rfl

theorem mixBeatSteps_of_illegal {w : Beat} {e : Illegal} (h : decodeBeat .mix w = .error e) :
    mixBeatSteps w = 1 := by
  have hdec : decodeMix w = .error e := h
  rw [mixBeatSteps, hdec]

theorem workLeft_congr {s t : State} (hpush : t.pushIn = s.pushIn) (hcfg : t.cfgIn = s.cfgIn)
    (hmix : t.mixIn = s.mixIn) (hseq : t.seq = s.seq) : t.workLeft = s.workLeft := by
  rw [State.workLeft, State.workLeft, hpush, hcfg, hmix, hseq]

theorem pushIn_total_set {p : PerChan (List Beat)} {c : Chan} {w : Beat} {rest : List Beat}
    (h : p.get c = w :: rest) :
    (p.set c rest).dma.length + (p.set c rest).str.length + (p.set c rest).aux.length + 1
      = p.dma.length + p.str.length + p.aux.length := by
  have hlen : (p.get c).length = rest.length + 1 := congrArg List.length h
  cases c
  all_goals
    simp only [PerChan.get, PerChan.set] at hlen ⊢
    omega

/-- The work of a beat leaves with it. -/
theorem workLeft_setPending {p : Port} {w : Beat} {rest : List Beat} {s : State} (h : pending p s = w :: rest) :
    (setPending p rest s).workLeft + beatSteps p w = s.workLeft := by
  cases p with
  | push c =>
    have hc : s.pushIn.get c = w :: rest := h
    have htotal := pushIn_total_set hc
    simp only [State.workLeft, setPending, beatSteps]
    omega
  | mix =>
    have hmix : s.mixIn = w :: rest := h
    simp only [State.workLeft, setPending, beatSteps, hmix, List.map_cons, List.sum_cons]
    omega
  | cfg =>
    have hcfg : s.cfgIn = w :: rest := h
    simp only [State.workLeft, setPending, beatSteps, hcfg, List.length_cons]
    omega

theorem ConfigEffect.workLeft {s t : State} (h : ConfigEffect s t) : t.workLeft = s.workLeft := by
  obtain ⟨hseq, hmix, -, -⟩ := h.mix_frame
  refine workLeft_congr ?_ ?_ hmix hseq
  all_goals
    cases h
    all_goals simp

/-- A beat taken from its port is one step of its work, and what is left of it is latched in `SEQ`. -/
theorem workLeft_runBeat {p : Port} {w : Beat} {s t : State} (hidle : p = .mix → s.seq = .idle)
    (hlegal : s.seq.Legal) (h : runBeat p w s = .next t) :
    t.workLeft + 1 = s.workLeft + beatSteps p w ∧ t.seq.Legal := by
  cases p with
  | push c =>
    have ht : t = pushFrame c (leftField w) (rightField w) s := by
      cases c <;> · cases h; rfl
    rw [ht, pushFrame_seq, workLeft_congr (pushFrame_pushIn ..) (pushFrame_cfgIn ..) (pushFrame_mixIn ..)
      (pushFrame_seq ..)]
    exact ⟨rfl, hlegal⟩
  | cfg =>
    have heffect := runBeat_cfg_cases h
    rw [heffect.workLeft, heffect.mix_frame.1]
    exact ⟨rfl, hlegal⟩
  | mix =>
    have hseq := hidle rfl
    rcases runBeat_mix_cases h with ⟨fmt, rc, n, hdec, rfl⟩ | ⟨⟨e, hdec⟩, rfl⟩
    · rw [mixStart_of_idle hseq, beatSteps, mixBeatSteps_of_mixInstr hdec, setSeq_seq]
      refine ⟨?_, startSeq_legal fmt rc (Nat.le_of_lt_succ n.isLt)⟩
      have hzero := Seq.stepsLeft_eq_zero_iff.2 hseq
      simp only [State.workLeft, setSeq_pushIn, setSeq_cfgIn, setSeq_mixIn, setSeq_seq, accClear_pushIn,
        accClear_cfgIn, accClear_mixIn, startSeq_stepsLeft, hzero]
      omega
    · rw [beatSteps, mixBeatSteps_of_illegal hdec]
      exact ⟨rfl, hlegal⟩

/-! ### Steps and runs -/

/-- Turns are the environment's: no agent's step uses one. -/
theorem agentStep_sched {a : Agent} {s t : State} (h : agentStep a s = .next t) : t.sched = s.sched := by
  cases a with
  | producer c =>
    obtain ⟨-, -, -, hframe⟩ := producer_frame h
    rw [hframe]
  | consumer => rw [(consumer_frame h).2]
  | config => rw [config_frame h]

/-- An enabled step is one of those that are left. -/
theorem workLeft_agentStep {a : Agent} {s t : State} (hlegal : s.seq.Legal) (henabled : enabled s a = true)
    (h : agentStep a s = .next t) : t.workLeft + 1 = s.workLeft ∧ t.seq.Legal := by
  by_cases hserve : a = .consumer → s.seq = .idle
  · have hsome : pending a.port s ≠ [] := by
      intro hempty
      simp only [enabled, hempty, List.isEmpty_nil, Bool.not_true, Bool.false_or, Bool.and_eq_true,
        decide_eq_true_eq] at henabled
      exact henabled.2 (hserve henabled.1)
    obtain ⟨w, rest, hp⟩ := List.exists_cons_of_ne_nil hsome
    rw [agentStep_eq_servePort hserve, servePort_cons hp] at h
    have hidle : a.port = .mix → (setPending a.port rest s).seq = .idle := fun hmix => by
      rw [setPending_seq]
      cases a with
      | consumer => exact hserve rfl
      | producer c => cases hmix
      | config => cases hmix
    obtain ⟨hwork, hlegal'⟩ := workLeft_runBeat hidle (by rwa [setPending_seq]) h
    exact ⟨hwork.trans (workLeft_setPending hp), hlegal'⟩
  · obtain ⟨rfl, hbusy⟩ := Classical.not_imp.1 hserve
    obtain ⟨u, -, hu, hlegal', hleft, hmix, -⟩ := consumer_carriesOn hbusy hlegal
    rw [hu] at h
    cases h
    obtain ⟨-, hframe⟩ := consumer_frame hu
    have hpush : t.pushIn = s.pushIn := by rw [hframe]
    have hcfg : t.cfgIn = s.cfgIn := by rw [hframe]
    refine ⟨?_, hlegal'⟩
    rw [State.workLeft, State.workLeft, hpush, hcfg, hmix, ← hleft]
    rfl

theorem takeTurn_of_nil {s : State} (h : s.sched = []) : takeTurn s = s := by
  have htail : s.sched.tail = s.sched := by rw [h]; rfl
  rw [takeTurn, htail]

/-- With no turn left: the run has ended and the block stands still, or one step less is left. -/
theorem step_of_no_turn {s : State} (hlegal : s.seq.Legal) (hsched : s.sched = []) :
    (s.Ended ∧ step s = .next s)
      ∨ ∃ t, step s = .next t ∧ t.workLeft + 1 = s.workLeft ∧ t.seq.Legal ∧ t.sched = [] := by
  cases hnext : nextAgent s with
  | none =>
    refine .inl ⟨ended_of_not_enabled (enabled_eq_false_of_nextAgent_none hsched hnext), ?_⟩
    simp only [step, blockStep, hnext]
  | some a =>
    obtain ⟨t, ht⟩ := agentStep_next a s
    obtain ⟨hwork, hlegal'⟩ := workLeft_agentStep hlegal (enabled_of_nextAgent hsched hnext) ht
    refine .inr ⟨t, ?_, hwork, hlegal', (agentStep_sched ht).trans hsched⟩
    rw [step_agent hnext, takeTurn_of_nil hsched, ht]

/-- Settles O55, by induction on the steps that are left. -/
theorem everyRunEndsWithAllCommandsExecuted : Obligations.EveryRunEndsWithAllCommandsExecuted := by
  intro s hlegal hsched
  generalize hwork : s.workLeft = m
  induction m generalizing s with
  | zero =>
    rcases step_of_no_turn hlegal hsched with ⟨hended, hstep⟩ | ⟨t, -, hleft, -, -⟩
    · exact ⟨s, rfl, hended, hstep⟩
    · omega
  | succ m ih =>
    rcases step_of_no_turn hlegal hsched with ⟨hended, -⟩ | ⟨t, hstep, hleft, hlegal', hsched'⟩
    · rw [workLeft_of_ended hended] at hwork
      cases hwork
    · obtain ⟨u, hrun, hend⟩ := ih t hlegal' hsched' (by omega)
      exact ⟨u, (run_succ m hstep).trans hrun, hend⟩

end Sys2Proof.Machine
end

section
/-! ## The interpolators as functions of their samples (`spec/41_interpolators.md` R141 to R143) -/

namespace Sys2Proof.Machine

/-- Settles O20: the clamp keeps an offset between the oldest and the newest frame the ring holds. -/
theorem tapsAreClampedAtTheEdgesOnly : Obligations.TapsAreClampedAtTheEdgesOnly := by
  intro avail hpos hcap
  refine ⟨tapOffset_zero hpos hcap, ?_, ?_, ?_⟩
  all_goals
    unfold tapOffset clamp Param.capacity
    split_ifs <;> omega

/-- Below a larger second sample: the average misses it by a positive share of the difference. -/
theorem lin_lt {s0 s1 : Int} {f : Nat} (h : s0 < s1) (hf : f < 65536) : lin s0 s1 f < s1 := by
  have hshare : 0 < (s1 - s0) * (65536 - (f : Int)) := Int.mul_pos (by omega) (by omega)
  have hsum : s0 * (65536 - (f : Int)) + s1 * f = s1 * 65536 - (s1 - s0) * (65536 - f) := by ring
  rw [lin_eq_ediv, hsum]
  omega

/-- Settles O21: the result is a floored quotient by 65536, of an average of the two samples. -/
theorem linIsTheFloorOfTheWeightedAverage : Obligations.LinIsTheFloorOfTheWeightedAverage := by
  intro s0 s1 f hf
  obtain ⟨hlow, hhigh⟩ := lin_bounds (f := f) ⟨min_le_left s0 s1, le_max_left s0 s1⟩
    ⟨min_le_right s0 s1, le_max_right s0 s1⟩ hf.le
  refine ⟨?_, ?_, hlow, hhigh, lin_zero s0 s1, fun h => lin_lt h hf⟩
  all_goals
    rw [lin_eq_ediv]
    omega

/-- The exact value of the spline at `t = f / 65536` is the weighted sum over its scale (R143). -/
theorem catmullRom_div (sm1 s0 s1 s2 : Int) (f : Nat) :
    (s0 : ℚ) + (f / 65536 : ℚ) * ((s1 - sm1 : Int) + (f / 65536 : ℚ) * ((2 * sm1 - 5 * s0 + 4 * s1 - s2 : Int)
        + (f / 65536 : ℚ) * (3 * (s0 - s1) + s2 - sm1 : Int))) / 2
      = (catmullRom sm1 s0 s1 s2 f (65536 - f) : ℚ) / ((2 ^ 49 : Nat) : ℚ) := by
  unfold catmullRom
  push_cast
  ring

theorem cub_const (x : Int) (f : Nat) : cub x x x x f = x := by
  have hb : 2 * x - 5 * x + 4 * x - x = 0 := by ring
  simp [cub, cubNum, hb]

/-- Settles O22: both sides are the same floored quotient. -/
theorem cubIsTheFloorOfTheCatmullRomSpline : Obligations.CubIsTheFloorOfTheCatmullRomSpline := by
  intro sm1 s0 s1 s2 f hf t spline
  refine ⟨?_, cub_zero sm1 s0 s1 s2, cub_const s0 f⟩
  have hspline : spline = (catmullRom sm1 s0 s1 s2 f (65536 - f) : ℚ) / ((2 ^ 49 : Nat) : ℚ) :=
    catmullRom_div sm1 s0 s1 s2 f
  rw [hspline, Rat.floor_intCast_div_natCast, cub_eq_ediv]
  rfl

end Sys2Proof.Machine
end

section
/-! ## The speed and the correction (`spec/42_resampler.md` R161, R162, R170) -/

namespace Sys2Proof.Machine

/-- A sum's quotient exceeds the sum of the quotients by one at most. -/
theorem add_div_le_succ (a b : Nat) {o : Nat} (ho : 0 < o) : (a + b) / o ≤ a / o + b / o + 1 := by
  rw [Nat.add_div ho]
  split <;> omega

/-- The correction is bounded by its parameter (R161). -/
theorem shift_le (t : Tuning) (avail : Nat) : shift t avail ≤ t.maxFreqShift := by
  unfold shift
  split
  · exact Nat.zero_le _
  · exact Nat.min_le_right ..

/-- Where no correction is in effect the numerator is the plain one. -/
theorem stepNum_of_no_shift {c : Chan} {avail : Nat} {rc : Bool} {s : State}
    (h : rc = false ∨ s.tuning.lowWatermark ≤ avail) : stepNum c avail rc s = stepNum c avail false s := by
  rcases h with rfl | hmark
  · rfl
  · cases rc with
    | false => rfl
    | true => rw [stepNum_corrected, shift_of_le hmark, Nat.zero_mul, Nat.sub_zero]

/-- Settles O27: doubling the speed doubles the numerator, the correction takes at most its bound from it, and the
quotient rounds by less than one. -/
theorem doublingTheSpeedDoublesTheStep : Obligations.DoublingTheSpeedDoublesTheStep := by
  intro c avail rc s q
  have hout : 0 < max s.outRate.toNat 1 := by omega
  refine ⟨fun hq hno hsat => ?_, ?_, ?_⟩
  · have hdouble : stepNum c avail false { s with speed := q } = stepNum c avail false s + stepNum c avail false s := by
      rw [stepNum_uncorrected, stepNum_uncorrected, hq]
      ring
    have hnum : stepNum c avail rc s = stepNum c avail false s := stepNum_of_no_shift hno
    have hnum' : stepNum c avail rc { s with speed := q } = stepNum c avail false { s with speed := q } :=
      stepNum_of_no_shift hno
    have hlow : stepNum c avail false s / max s.outRate.toNat 1 + stepNum c avail false s / max s.outRate.toNat 1
        ≤ (stepNum c avail false s + stepNum c avail false s) / max s.outRate.toNat 1 :=
      Nat.div_add_div_le_add_div
    have hhigh := add_div_le_succ (stepNum c avail false s) (stepNum c avail false s) hout
    simp only [stepValue, hnum, hnum', hdouble, Param.stepMax] at hsat ⊢
    omega
  · have hmono : stepNum c avail true s / max s.outRate.toNat 1 ≤ stepNum c avail false s / max s.outRate.toNat 1 := by
      rw [stepNum_corrected]
      exact Nat.div_le_div_right (Nat.sub_le ..)
    exact min_le_min_right _ hmono
  · have hcorr := add_div_le_succ (stepNum c avail true s) (shift s.tuning avail * 65536) hout
    have hbound : shift s.tuning avail * 65536 / max s.outRate.toNat 1
        ≤ s.tuning.maxFreqShift * 65536 / max s.outRate.toNat 1 :=
      Nat.div_le_div_right (Nat.mul_le_mul_right _ (shift_le ..))
    have hsub : stepNum c avail false s / max s.outRate.toNat 1
        ≤ (stepNum c avail true s + shift s.tuning avail * 65536) / max s.outRate.toNat 1 := by
      rw [stepNum_corrected]
      exact Nat.div_le_div_right (by omega)
    have hsaturate (a b e : Nat) (h : a ≤ b + e + 1) : min a Param.stepMax ≤ min b Param.stepMax + e + 1 := by omega
    exact hsaturate _ _ _ (by omega)

end Sys2Proof.Machine
end

section
/-! ## The dither and the two output paths (`spec/44_quantizer.md` R231, R235, R238) -/

namespace Sys2Proof.Machine

/-- A word that equals itself shifted up is 0: its lowest bits are, and each bit above repeats a lower one. -/
theorem eq_zero_of_eq_shiftLeft {w k : Nat} (hk : 0 < k) {x : BitVec w} (h : x = x <<< k) : x = 0#w := by
  apply BitVec.eq_of_getLsbD_eq
  intro i hi
  rw [BitVec.getLsbD_zero]
  induction i using Nat.strong_induction_on with
  | _ i ih =>
    rw [h, BitVec.getLsbD_shiftLeft]
    by_cases hik : i < k
    · simp [hik]
    · rw [ih (i - k) (by omega) (by omega), Bool.and_false]

/-- A word that equals itself shifted down is 0: the shift halves any other. -/
theorem eq_zero_of_eq_ushiftRight {w k : Nat} (hk : 0 < k) {x : BitVec w} (h : x = x >>> k) : x = 0#w := by
  apply BitVec.eq_of_toNat_eq
  have hdiv : x.toNat = x.toNat / 2 ^ k := by
    conv_lhs => rw [h, BitVec.toNat_ushiftRight, Nat.shiftRight_eq_div_pow]
  rw [BitVec.toNat_zero]
  by_contra hne
  have hlt := Nat.div_lt_self (Nat.pos_of_ne_zero hne) (Nat.one_lt_two_pow hk.ne')
  omega

/-- A state of the generator is 0 only after 0: none of its three steps loses a bit (R231). -/
theorem eq_zero_of_xs32_eq_zero {x : BitVec 32} (h : xs32 x = 0#32) : x = 0#32 := by
  have hleft (k : Nat) (hk : 0 < k) (y : BitVec 32) (hy : y ^^^ (y <<< k) = 0#32) : y = 0#32 :=
    eq_zero_of_eq_shiftLeft hk (BitVec.xor_eq_zero_iff.1 hy)
  have hright (k : Nat) (hk : 0 < k) (y : BitVec 32) (hy : y ^^^ (y >>> k) = 0#32) : y = 0#32 :=
    eq_zero_of_eq_ushiftRight hk (BitVec.xor_eq_zero_iff.1 hy)
  exact hleft 13 (by decide) _ (hright 17 (by decide) _ (hleft 5 (by decide) _ h))

/-- Settles O32: the listed states are computed, and each step of the generator is injective at 0. -/
theorem ditherGeneratorNeverDiesOut : Obligations.DitherGeneratorNeverDiesOut := by
  refine ⟨by decide, by decide, by decide, by decide, by decide, by decide, fun x hx h => hx ?_⟩
  exact eq_zero_of_xs32_eq_zero h

/-- The truncated sample times 256 is less than two LSB from the accumulator: the dither moves it by at most 255, the
truncation by less than 256 (R235 c). -/
theorem quantRaw_near (x : AccWord) (d prev : BitVec 8) : |256 * quantRaw x d prev - x.toInt| < 512 := by
  have hd := d.isLt
  have hp := prev.isLt
  have hraw : quantRaw x d prev = (x.toInt + (d.toNat : Int) - (prev.toNat : Int)).tdiv 256 := rfl
  rw [hraw, tdiv_volDiv, abs_lt]
  split <;> omega

/-- Silence stays silent: the dither alone never reaches one LSB (R235 a). -/
theorem quantRaw_zero (d prev : BitVec 8) : quantRaw 0#32 d prev = 0 := by
  have hd := d.isLt
  have hp := prev.isLt
  have hraw : quantRaw 0#32 d prev = (0 + (d.toNat : Int) - (prev.toNat : Int)).tdiv 256 := rfl
  rw [hraw, tdiv_volDiv]
  split <;> omega

/-- Settles O36: below full scale neither path saturates, so both are near the accumulator. -/
theorem integerOutputStaysNearTheAccumulator : Obligations.IntegerOutputStaysNearTheAccumulator := by
  intro x side s
  have hnear := quantRaw_near x (ditherOf (xs32 s.prng)) (dprev side s)
  refine ⟨?_, hnear, fun hscale => ?_⟩
  · rw [quantResult, quantRaw_zero]
    rfl
  · have hf32 := f32Value_toF32 x
    have hq : (quantResult x side s).toInt = quantRaw x (ditherOf (xs32 s.prng)) (dprev side s) := by
      rw [quantResult, clipS16_toInt]
      rw [abs_lt] at hnear hscale
      omega
    have hx : clamp x.toInt (-8388608) 8388607 = x.toInt := by
      rw [abs_lt] at hscale
      unfold clamp
      omega
    rw [hx] at hf32
    rw [hq, hf32]
    generalize quantRaw x (ditherOf (xs32 s.prng)) (dprev side s) = r at hnear
    have hcast : |256 * (r : ℚ) - (x.toInt : ℚ)| < 512 := by exact_mod_cast hnear
    have hdiff : (r : ℚ) / 32768 - (x.toInt : ℚ) / 2 ^ 23 = (256 * (r : ℚ) - x.toInt) / 2 ^ 23 := by ring
    rw [hdiff, abs_div, abs_of_pos (by positivity : (0 : ℚ) < 2 ^ 23), div_lt_iff₀ (by positivity)]
    calc |256 * (r : ℚ) - (x.toInt : ℚ)| < 512 := hcast
      _ = 2 / 32768 * 2 ^ 23 := by norm_num

end Sys2Proof.Machine
end
